-- ==== Sys2Proof/Word.lean ====
section
/-! DEFINITION. The words and plain data the SMX block handles: scalars, complex values, dump frames,
the 96-bit command and response words, and the element-indexed spaces (00_scope.md R8, R11, R12;
20_memory.md R50, R57; 30_encoding.md R90, R91). -/

namespace Sys2Proof

/-- A `NUM` scalar of this hardware: a binary32 value held as its 32-bit pattern, so that `NUM.bits`
is the identity (00_scope.md R12, log entry 1). -/
abbrev F32 := BitVec 32

/-- A 32-bit operand, payload or register word. -/
abbrev Word32 := BitVec 32

/-- A command word `CW96` or a response word `RW96` (30_encoding.md R90, R91). -/
abbrev Word96 := BitVec 96

/-- A complex value `(re, im)`: in-phase and quadrature (00_scope.md R11). -/
structure Cplx where
  re : F32
  im : F32
deriving DecidableEq, Repr, Inhabited

/-- A dump frame: two signed 16-bit integers `(I, Q)` (20_memory.md R56). -/
structure Frame where
  i : BitVec 16
  q : BitVec 16
deriving DecidableEq, Repr, Inhabited

/-- The two command/response port pairs: the processing port and the control port (20_memory.md R70). -/
inductive Port where
  | P
  | C
deriving DecidableEq, Repr, Inhabited

/-- An element-indexed space (20_memory.md R50): pairs of an index and the element it holds, indices
strictly rising (`Space.wf`). An index that is not listed holds no value: nothing has written it. -/
abbrev Space (α : Type) := List (Nat × α)

end Sys2Proof
end

