-- ==== Sys2Proof/Syntax.lean ====
section
/-! DEFINITION. The eight commands, one constructor per row of opcode_table.json (30_encoding.md R92, R94). -/

namespace Sys2Proof

/-- The commands of the block. Operands are whole 32-bit words or one bit (30_encoding.md R92). -/
inductive Instr where
  /-- `P: GETSAMPLE off` (40_sample_reader.md R137); `off` is read as signed. -/
  | getsample (off : Word32)
  /-- `P: GETSAMPLES count, off` (R138); `count` is unsigned, `off` signed. -/
  | getsamples (count off : Word32)
  /-- `P: SYNC nullLen, frameLen` (42_time_syncer.md R192); both unsigned. -/
  | sync (nullLen frameLen : Word32)
  /-- `P: RESET` (R140). -/
  | reset
  /-- `P: GETLEVEL` or `C: GETLEVEL` (R139): the port it arrived on is the port it is answered on. -/
  | getlevel (port : Port)
  /-- `C: SETRUN run` (41_control.md R161). -/
  | setrun (run : Bool)
  /-- `C: DUMPON target` (R162). -/
  | dumpon (target : Word32)
  /-- `C: DUMPOFF` (R163). -/
  | dumpoff
deriving DecidableEq, Repr, Inhabited

/-- The pseudo-instruction `C: START` (30_encoding.md R100). -/
def Instr.start : Instr := .setrun true

/-- The pseudo-instruction `C: STOP` (30_encoding.md R100). -/
def Instr.stop : Instr := .setrun false

end Sys2Proof
end

