-- ==== Sys2Proof/WellFormed.lean ====
section
/-! DEFINITION. Which command is legal on which port (30_encoding.md R95). Operand widths are in the types
of `Instr`, so port legality is the one check a command needs. -/

namespace Sys2Proof

/-- 30_encoding.md R95: GETSAMPLE, GETSAMPLES, SYNC, RESET on the processing port only; SETRUN, DUMPON,
DUMPOFF on the control port only; GETLEVEL on the port it names, which is either. -/
def Instr.wellFormed (p : Port) : Instr → Bool
  | .getsample _ => p == .P
  | .getsamples _ _ => p == .P
  | .sync _ _ => p == .P
  | .reset => p == .P
  | .getlevel q => p == q
  | .setrun _ => p == .C
  | .dumpon _ => p == .C
  | .dumpoff => p == .C

/-- A read: a command that pops samples and passes the availability wait (40_sample_reader.md R120). -/
def Instr.isRead : Instr → Bool
  | .getsample _ => true
  | .getsamples _ _ => true
  | .sync _ _ => true
  | .reset => false
  | .getlevel _ => false
  | .setrun _ => false
  | .dumpon _ => false
  | .dumpoff => false

/-- A command that `P` executes in several steps: a read, or RESET (log entry 26). -/
def Instr.resumes (i : Instr) : Bool := i.isRead || i == .reset

end Sys2Proof
end

