-- ==== Sys2Proof/Decode.lean ====
section
/-! DEFINITION. The decoder and the encoder of command words (30_encoding.md R90 to R98, R100). -/

namespace Sys2Proof

/-- Why a command word is illegal (30_encoding.md R96), by name. -/
inductive IllegalWord where
  /-- `CW[31:8]` is not zero. -/
  | reservedBits
  /-- `OPC` is none of the eight opcodes. -/
  | reservedOpcode
  /-- An operand word or operand bit that the row requires to be zero is not. -/
  | operandBits
  /-- A row's word on a port where the row is not legal. -/
  | wrongPort
deriving DecidableEq, Repr

/-- What the decoder answers: one of the eight commands, or illegal with its reason. -/
inductive Decoded where
  | ok (i : Instr)
  | illegal (why : IllegalWord)
deriving DecidableEq, Repr

/-- `OPC = CW[7:0]` (30_encoding.md R90). -/
def opcField (cw : Word96) : BitVec 8 := cw.extractLsb' 0 8

/-- `RSV = CW[31:8]` (30_encoding.md R90). -/
def rsvField (cw : Word96) : BitVec 24 := cw.extractLsb' 8 24

/-- `A = CW[63:32]` (30_encoding.md R90). -/
def aField (cw : Word96) : Word32 := cw.extractLsb' 32 32

/-- `B = CW[95:64]` (30_encoding.md R90). -/
def bField (cw : Word96) : Word32 := cw.extractLsb' 64 32

/-- A row's command, where the row's port and zero-bit conditions hold (30_encoding.md R94 to R96). -/
def decodeRow (portOk bitsOk : Bool) (i : Instr) : Decoded :=
  if bitsOk = false then .illegal .operandBits
  else if portOk = false then .illegal .wrongPort
  else .ok i

/-- The decoder, a total function of the port and the word (30_encoding.md R98). -/
def decode (port : Port) (cw : Word96) : Decoded :=
  let a := aField cw
  let b := bField cw
  if rsvField cw ≠ 0#24 then .illegal .reservedBits
  else if opcField cw = 0x01#8 then decodeRow (port == .P) (b == 0#32) (.getsample a)
  else if opcField cw = 0x02#8 then decodeRow (port == .P) true (.getsamples b a)
  else if opcField cw = 0x03#8 then decodeRow (port == .P) true (.sync a b)
  else if opcField cw = 0x04#8 then decodeRow (port == .P) (a == 0#32 && b == 0#32) .reset
  else if opcField cw = 0x08#8 then decodeRow true (a == 0#32 && b == 0#32) (.getlevel port)
  else if opcField cw = 0x10#8 then
    decodeRow (port == .C) (a.extractLsb' 1 31 == 0#31 && b == 0#32) (.setrun (a.getLsbD 0))
  else if opcField cw = 0x11#8 then decodeRow (port == .C) (b == 0#32) (.dumpon a)
  else if opcField cw = 0x12#8 then decodeRow (port == .C) (a == 0#32 && b == 0#32) .dumpoff
  else .illegal .reservedOpcode

/-- The opcode of a command (30_encoding.md R94). -/
def Instr.opc : Instr → BitVec 8
  | .getsample _ => 0x01#8
  | .getsamples _ _ => 0x02#8
  | .sync _ _ => 0x03#8
  | .reset => 0x04#8
  | .getlevel _ => 0x08#8
  | .setrun _ => 0x10#8
  | .dumpon _ => 0x11#8
  | .dumpoff => 0x12#8

/-- The word whose fields are `B`, `A`, a zero `RSV`, and `OPC` (30_encoding.md R90). -/
def commandWord (b a : Word32) (opc : BitVec 8) : Word96 := b ++ a ++ 0#24 ++ opc

/-- The encoder: the command word of an instruction (30_encoding.md R92, R94). -/
def encode : Instr → Word96
  | .getsample off => commandWord 0#32 off 0x01#8
  | .getsamples count off => commandWord count off 0x02#8
  | .sync nullLen frameLen => commandWord frameLen nullLen 0x03#8
  | .reset => commandWord 0#32 0#32 0x04#8
  | .getlevel _ => commandWord 0#32 0#32 0x08#8
  | .setrun run => commandWord 0#32 (BitVec.setWidth 32 (BitVec.ofBool run)) 0x10#8
  | .dumpon target => commandWord 0#32 target 0x11#8
  | .dumpoff => commandWord 0#32 0#32 0x12#8

/-- One row of the opcode map (30_encoding.md R94): the ports it is legal on, and the words it selects. -/
structure OpcodeRow where
  onP : Bool
  onC : Bool
  pattern : Word96
  mask : Word96
deriving DecidableEq, Repr

/-- The opcode map (30_encoding.md R94), in the order of spec/opcode_table.json. -/
def opcodeTable : List OpcodeRow :=
  [⟨true, false, 0x000000000000000000000001#96, 0xFFFFFFFF00000000FFFFFFFF#96⟩,
   ⟨true, false, 0x000000000000000000000002#96, 0x0000000000000000FFFFFFFF#96⟩,
   ⟨true, false, 0x000000000000000000000003#96, 0x0000000000000000FFFFFFFF#96⟩,
   ⟨true, false, 0x000000000000000000000004#96, 0xFFFFFFFFFFFFFFFFFFFFFFFF#96⟩,
   ⟨true, true, 0x000000000000000000000008#96, 0xFFFFFFFFFFFFFFFFFFFFFFFF#96⟩,
   ⟨false, true, 0x000000000000000000000010#96, 0xFFFFFFFFFFFFFFFEFFFFFFFF#96⟩,
   ⟨false, true, 0x000000000000000000000011#96, 0xFFFFFFFF00000000FFFFFFFF#96⟩,
   ⟨false, true, 0x000000000000000000000012#96, 0xFFFFFFFFFFFFFFFFFFFFFFFF#96⟩]

/-- `CW & mask = match`: the word selects the row (30_encoding.md R94). -/
def OpcodeRow.selects (r : OpcodeRow) (cw : Word96) : Bool := cw &&& r.mask == r.pattern

/-- The row is legal on the port (30_encoding.md R95). -/
def OpcodeRow.legalOn (r : OpcodeRow) (p : Port) : Bool :=
  match p with
  | .P => r.onP
  | .C => r.onC

/-- The assembler text of a command (30_encoding.md R99), operands in decimal. -/
def Instr.asm : Instr → String
  | .getsample off => "P: GETSAMPLE " ++ toString off.toInt
  | .getsamples count off => "P: GETSAMPLES " ++ toString count.toNat ++ ", " ++ toString off.toInt
  | .sync nullLen frameLen => "P: SYNC " ++ toString nullLen.toNat ++ ", " ++ toString frameLen.toNat
  | .reset => "P: RESET"
  | .getlevel .P => "P: GETLEVEL"
  | .getlevel .C => "C: GETLEVEL"
  | .setrun run => "C: SETRUN " ++ (if run then "1" else "0")
  | .dumpon target => "C: DUMPON " ++ toString target.toNat
  | .dumpoff => "C: DUMPOFF"

/-- The 96-bit word whose `nbits` low bits are those of `w`, every higher bit 0. -/
def tableWord (nbits w : Nat) : Word96 := BitVec.ofNat 96 (w % 2 ^ nbits)

/-- The port a table row's word is decoded on: the processing port where it is legal there, else the control
port (30_encoding.md R95; a word does not carry its port, log entry 12). -/
def tablePort (cw : Word96) : Port :=
  match decode .P cw with
  | .ok _ => .P
  | .illegal _ => .C

/-- The instruction the decoder reads from a word of spec/opcode_table.json, on the port of `tablePort`. -/
def decodeTableWord (nbits w : Nat) : Option Instr :=
  if 96 < nbits then none
  else
    match decode (tablePort (tableWord nbits w)) (tableWord nbits w) with
    | .ok i => some i
    | .illegal _ => none

end Sys2Proof
end

