-- ==== Sys2Proof/Config.lean ====
section
/-! DEFINITION. The configuration record `CFG` (00_scope.md R6) and the free values: what the spec leaves open and
nothing in the model may know. -/

namespace Sys2Proof

/-- The two named candidates for the configured fast magnitude `MAG` (00_scope.md R13):
`l1` is `MAG_L1`, `maxMin` is `MAG_MAXMIN`. -/
inductive MagKind where
  | l1
  | maxMin
deriving DecidableEq, Repr, Inhabited

/-- The operations of `NUM` whose result can be a NaN (00_scope.md R12). -/
inductive NumOp where
  | add
  | mul
  | div
deriving DecidableEq, Repr, Inhabited

/-- The instances of the scalar record `NUM` (00_scope.md R12): this hardware has one, IEEE 754 binary32 (log entry 1). -/
inductive NumKind where
  | binary32
deriving DecidableEq, Repr, Inhabited

/-- The configuration record `CFG` of 00_scope.md R6, with the constraints of its table: a parameter the table calls fixed is a
field whose constraint is its value. A record outside the constraints cannot be built: 93_implementation_defined.md U18
excludes it (log entry 6). `OSC` is computed from `inputRate` (entry 5), `PERIOD` is `Cfg.period`, `POLL_INTERVAL` is timing
only (92_eei_decisions.md D24, entry 22). -/
structure Cfg where
  /-- `INPUT_RATE`: samples per second, entries of `OSC`, modulus of `PHASE`. -/
  inputRate : Nat
  /-- `ALPHA`, the smoothing constant of the level, a binary32 value strictly between 0 and 1. -/
  alpha : F32
  /-- `LOW_WATER`: a single read waits while fewer samples are available. -/
  lowWater : Nat
  /-- `NOTIFY_DIV`, the document's `N`. -/
  notifyDiv : Nat
  /-- `DISPLAY_WINDOW`: entries of `DISP_BUF`. -/
  displayWindow : Nat
  /-- `SPEC_ATTACHED`: whether SPEC events are emitted. -/
  specAttached : Bool
  /-- `DUMP_BLOCK_FRAMES`: entries of `DUMP_BUF`. -/
  dumpBlockFrames : Nat
  /-- `DEV_BITS`: the quantization bit depth the device supplies, constant (20_memory.md R62 (d)). -/
  devBits : Nat
  /-- `NUM`: which scalar record the block computes with; `Cfg.NUM` is that record. -/
  num : NumKind
  /-- `MAG`: the one magnitude function of the level update and of SYNC. -/
  mag : MagKind
  /-- `WINDOW`: the length of the synchroniser's ring. -/
  window : Nat
  /-- `TH_DIP`, the threshold of the dip search. -/
  thDip : F32
  /-- `TH_REC`, the threshold of the recovery search. -/
  thRec : F32
  inputRate_pos : 1 ≤ inputRate
  inputRate_le : inputRate ≤ 2147483647
  alpha_pos : 0 < alpha.toNat
  alpha_lt_one : alpha.toNat < 0x3F800000
  lowWater_pos : 1 ≤ lowWater
  lowWater_le : lowWater ≤ 4294967295
  notifyDiv_pos : 1 ≤ notifyDiv
  notifyDiv_le : notifyDiv ≤ inputRate
  dumpBlockFrames_pos : 1 ≤ dumpBlockFrames
  devBits_pos : 1 ≤ devBits
  devBits_le : devBits ≤ 16
  /-- Fixed: 50 (42_time_syncer.md R180). -/
  window_eq : window = 50
  /-- Fixed: the binary32 value nearest 0.55 (42_time_syncer.md R180). -/
  thDip_eq : thDip = 0x3F0CCCCD#32
  /-- Fixed: 0.75 (42_time_syncer.md R180). -/
  thRec_eq : thRec = 0x3F400000#32
deriving DecidableEq, Repr

/-- The configuration of `State.reset`. The spec's defaults for `ALPHA`, `LOW_WATER`, `NOTIFY_DIV`, `MAG`;
PRESUMED 2048000 for `INPUT_RATE` (the spec's general-knowledge remark G1); DESIGN CHOICE for the four
other open parameters (log entry 7). -/
def Cfg.default : Cfg where
  inputRate := 2048000
  alpha := 0x3727C5AC#32
  lowWater := 2048
  notifyDiv := 5
  displayWindow := 2048
  specAttached := true
  dumpBlockFrames := 4096
  devBits := 8
  num := .binary32
  mag := .l1
  window := 50
  thDip := 0x3F0CCCCD#32
  thRec := 0x3F400000#32
  inputRate_pos := by decide
  inputRate_le := by decide
  alpha_pos := by decide
  alpha_lt_one := by decide
  lowWater_pos := by decide
  lowWater_le := by decide
  notifyDiv_pos := by decide
  notifyDiv_le := by decide
  dumpBlockFrames_pos := by decide
  devBits_pos := by decide
  devBits_le := by decide
  window_eq := rfl
  thDip_eq := rfl
  thRec_eq := rfl

/-- `PERIOD = INPUT_RATE div NOTIFY_DIV` (00_scope.md R6): samples per periodic notification. -/
def Cfg.period (c : Cfg) : Nat := c.inputRate / c.notifyDiv

/-- One answer of the device to a `DEV_POP` (20_memory.md R61): how many samples it is willing to return,
and its AGC statistics word. The block bounds the count (R61) and forwards the word unread (R63). -/
structure PopAnswer where
  count : Nat
  agc : Word32
deriving DecidableEq, Repr, Inhabited

/-- One turn of the global order of atomic steps (20_memory.md R74; 00_scope.md R14): which agent makes
the next step, with what the environment supplies in it. -/
inductive Turn where
  /-- `P` takes one step; the answer is used if that step makes a `DEV_POP`. -/
  | proc (answer : PopAnswer)
  /-- `C` executes the next command waiting on the control port, if there is one. -/
  | ctrl
  /-- The device appends samples to its FIFO, the first of the list first. -/
  | dev (samples : List Cplx)
  /-- The external reset line is asserted (70_reset_and_hazards.md R240). -/
  | hwReset
deriving DecidableEq, Repr, Inhabited

/-- Free value: the sign bit (bit 22) and the 22 low payload bits of a NaN result, which neither the spec nor
IEEE 754 fixes (93_implementation_defined.md U5, log entry 2). -/
opaque Config.freeNaN : NumOp → F32 → F32 → BitVec 23

/-- Free value: `NUM.toI16` of a NaN, which 40_sample_reader.md R129 does not define (log entry 4). -/
opaque Config.freeToI16 : F32 → BitVec 16

/-- Free value: a component of `OSC` (rate, index, component) whose rounding the computed enclosure does not
decide (log entry 5). No such entry is known. -/
opaque Config.freeOsc : Nat → Nat → Bool → F32

/-- Free value: what an `ENV` entry that nothing has written holds (10_state.md R36, log entry 9). -/
opaque Config.freeEnv : Nat → F32

/-- Free value: what a `DISP_BUF` entry that nothing has written holds (10_state.md R36, log entry 9). -/
opaque Config.freeDisp : Nat → Cplx

/-- Free value: what a `DUMP_BUF` entry that nothing has written holds (10_state.md R36, log entry 9). -/
opaque Config.freeFrame : Nat → Frame

/-- Free value: the agent that takes turn number `n` where the state lists no turn (00_scope.md R14 "any agent
may be scheduled at any step", log entry 10). -/
opaque Config.freeTurn : Nat → Turn

end Sys2Proof
end

