-- ==== Sys2Proof/Machine/Num.lean ====
section
/-! DEFINITION. The scalar record `NUM` of this hardware: IEEE 754 binary32, round to nearest even, gradual
underflow, no fused operations (00_scope.md R12, log entries 1 to 4).

Every finite binary32 value is an integer multiple of 2^-149. An operation is computed exactly on those
integers and rounded once. -/

namespace Sys2Proof.NUM

/-- The sign bit. -/
def neg? (a : F32) : Bool := a.msb

/-- The 31 bits below the sign, as a number. -/
def magBits (a : F32) : Nat := a.toNat % 2 ^ 31

def isNaN (a : F32) : Bool := decide (0x7F800000 < magBits a)

def isInf (a : F32) : Bool := decide (magBits a = 0x7F800000)

def isFinite (a : F32) : Bool := decide (magBits a < 0x7F800000)

/-- The magnitude of a finite value in units of 2^-149. -/
def units (a : F32) : Nat :=
  if magBits a / 2 ^ 23 = 0 then magBits a
  else (2 ^ 23 + magBits a % 2 ^ 23) * 2 ^ (magBits a / 2 ^ 23 - 1)

/-- A finite value in units of 2^-149. -/
def intUnits (a : F32) : Int := if neg? a then -(units a : Int) else (units a : Int)

/-- The value with a given sign bit and 31 magnitude bits. -/
def ofBits (negative : Bool) (mag : Nat) : F32 :=
  BitVec.ofNat 32 (mag + if negative then 2 ^ 31 else 0)

def zero : F32 := 0x00000000#32
def one : F32 := 0x3F800000#32

/-- A NaN result: exponent all ones and the quiet bit set; its sign and payload are free (log entry 2). -/
def nan (op : NumOp) (a b : F32) : F32 :=
  let f := Config.freeNaN op a b
  ofBits (f.getLsbD 22) (0x7FC00000 + f.toNat % 2 ^ 22)

/-- `m / 2^drop` rounded to the nearest integer, ties to even. -/
def roundNE (m drop : Nat) : Nat :=
  let q := m / 2 ^ drop
  let r := m % 2 ^ drop
  if 2 ^ drop < 2 * r ∨ (2 * r = 2 ^ drop ∧ q % 2 = 1) then q + 1 else q

/-- The magnitude `m * 2^-(149+sh)` rounded to 24 significant bits, but never finer than 2^-149; the answer
is in units of 2^-149. -/
def roundUnits (sh m : Nat) : Nat :=
  let drop := max sh (m.log2 - 23)
  roundNE m drop * 2 ^ (drop - sh)

/-- The magnitude bits of `n` units, for an `n` of at most 24 significant bits; infinity above the range. -/
def packMag (n : Nat) : Nat :=
  if n < 2 ^ 24 then n
  else
    let e := n.log2 - 23
    min 0x7F800000 (e * 2 ^ 23 + n / 2 ^ e)

/-- The binary32 value nearest `± m * 2^-(149+sh)`, ties to even; infinity beyond the range. -/
def round (negative : Bool) (sh m : Nat) : F32 := ofBits negative (packMag (roundUnits sh m))

/-- The binary32 value nearest `± p / q`, for `q > 0` below 2^300: the quotient is taken to 349 binary places
with a sticky bit below them. -/
def roundQuot (negative : Bool) (p q : Nat) : F32 :=
  let n := p * 2 ^ 349
  round negative 201 (2 * (n / q) + if n % q = 0 then 0 else 1)

/-- `NUM.ofInt`. -/
def ofInt (i : Int) : F32 := round (decide (i < 0)) 0 (i.natAbs * 2 ^ 149)

/-- `NUM.ofDec` of the literal whose value is `p / q`. -/
def ofDec (p q : Nat) : F32 := roundQuot false p q

/-- Negation flips the sign bit. -/
def neg (a : F32) : F32 := a ^^^ 0x80000000#32

/-- `NUM.abs` clears the sign bit. -/
def abs (a : F32) : F32 := a &&& 0x7FFFFFFF#32

/-- The sum of two finite values. An exact zero is -0 only when both are -0. -/
def addFinite (a b : F32) : F32 :=
  let z := intUnits a + intUnits b
  if z = 0 then (if neg? a && neg? b then 0x80000000#32 else zero)
  else round (decide (z < 0)) 0 z.natAbs

/-- `NUM.add`. -/
def add (a b : F32) : F32 :=
  if isNaN a || isNaN b then nan .add a b
  else if isInf a then (if isInf b && (neg? a != neg? b) then nan .add a b else a)
  else if isInf b then b
  else addFinite a b

/-- `NUM.sub`. -/
def sub (a b : F32) : F32 := add a (neg b)

/-- `NUM.mul`. -/
def mul (a b : F32) : F32 :=
  let s := neg? a != neg? b
  if isNaN a || isNaN b then nan .mul a b
  else if isInf a || isInf b then
    (if magBits a = 0 ∨ magBits b = 0 then nan .mul a b else ofBits s 0x7F800000)
  else round s 149 (units a * units b)

/-- `NUM.div`. -/
def div (a b : F32) : F32 :=
  let s := neg? a != neg? b
  if isNaN a || isNaN b then nan .div a b
  else if isInf a then (if isInf b then nan .div a b else ofBits s 0x7F800000)
  else if isInf b then ofBits s 0
  else if magBits b = 0 then (if magBits a = 0 then nan .div a b else ofBits s 0x7F800000)
  else roundQuot s (units a) (units b)

/-- The magnitude bits with the sign: its order is the order of the values, and both zeros are 0. -/
def orderKey (a : F32) : Int := if neg? a then -(magBits a : Int) else (magBits a : Int)

/-- `NUM.gt`: strictly greater; false where an operand is a NaN. -/
def gt (a b : F32) : Bool := !isNaN a && !isNaN b && decide (orderKey b < orderKey a)

/-- `NUM.ge`. -/
def ge (a b : F32) : Bool := !isNaN a && !isNaN b && decide (orderKey b ≤ orderKey a)

/-- `NUM.lt`. -/
def lt (a b : F32) : Bool := gt b a

/-- `NUM.le`. -/
def le (a b : F32) : Bool := ge b a

/-- `NUM.toI16` (40_sample_reader.md R129): toward zero, saturated to 16 bits. An infinity is beyond the
range and saturates; of a NaN the result is free (log entry 4). -/
def toI16 (v : F32) : BitVec 16 :=
  if isNaN v then Config.freeToI16 v
  else
    let t := units v / 2 ^ 149
    if neg? v then BitVec.ofInt 16 (-(min t 32768 : Nat)) else BitVec.ofNat 16 (min t 32767)

/-- `NUM.bits`: the 32-bit pattern of a scalar on a port. -/
def bits (v : F32) : Word32 := v

/-- `emod(a, n)`, the Euclidean remainder (00_scope.md R9). -/
def emod (a : Int) (n : Nat) : Nat := (a % (n : Int)).toNat

end Sys2Proof.NUM

namespace Sys2Proof

/-- The scalar record `NUM` (00_scope.md R12): the operations all non-integer arithmetic of the block goes through. -/
structure NumRecord where
  zero : F32
  one : F32
  add : F32 → F32 → F32
  sub : F32 → F32 → F32
  mul : F32 → F32 → F32
  div : F32 → F32 → F32
  abs : F32 → F32
  gt : F32 → F32 → Bool
  ge : F32 → F32 → Bool
  lt : F32 → F32 → Bool
  le : F32 → F32 → Bool
  ofInt : Int → F32
  /-- Of the literal whose value is the quotient of the two numbers. -/
  ofDec : Nat → Nat → F32
  toI16 : F32 → BitVec 16
  bits : F32 → Word32

/-- `CFG.NUM` (00_scope.md R6, R12): the scalar record of a configuration. -/
def Cfg.NUM (c : Cfg) : NumRecord :=
  match c.num with
  | .binary32 =>
    { zero := Sys2Proof.NUM.zero, one := Sys2Proof.NUM.one
      add := Sys2Proof.NUM.add, sub := Sys2Proof.NUM.sub, mul := Sys2Proof.NUM.mul, div := Sys2Proof.NUM.div
      abs := Sys2Proof.NUM.abs
      gt := Sys2Proof.NUM.gt, ge := Sys2Proof.NUM.ge, lt := Sys2Proof.NUM.lt, le := Sys2Proof.NUM.le
      ofInt := Sys2Proof.NUM.ofInt, ofDec := Sys2Proof.NUM.ofDec
      toI16 := Sys2Proof.NUM.toI16, bits := Sys2Proof.NUM.bits }

/-- `cmul` (00_scope.md R11): four products, one difference, one sum, in this association. -/
def NumRecord.cmul (n : NumRecord) (a b : Cplx) : Cplx :=
  ⟨n.sub (n.mul a.re b.re) (n.mul a.im b.im), n.add (n.mul a.re b.im) (n.mul a.im b.re)⟩

/-- `MAG_L1` (00_scope.md R13). -/
def NumRecord.magL1 (n : NumRecord) (z : Cplx) : F32 := n.add (n.abs z.re) (n.abs z.im)

/-- `MAG_MAXMIN` (00_scope.md R13): the larger of the absolute components plus half the smaller (log entry 16). -/
def NumRecord.magMaxMin (n : NumRecord) (z : Cplx) : F32 :=
  let x := n.abs z.re
  let y := n.abs z.im
  if n.ge x y then n.add x (n.mul (n.ofDec 1 2) y) else n.add y (n.mul (n.ofDec 1 2) x)

/-- `CFG.MAG` (00_scope.md R13): the configured magnitude. -/
def Cfg.MAG (c : Cfg) (z : Cplx) : F32 :=
  match c.mag with
  | .l1 => c.NUM.magL1 z
  | .maxMin => c.NUM.magMaxMin z

end Sys2Proof
end

