-- ==== Sys2Proof/Machine/Space.lean ====
section
/-! DEFINITION. Reading and writing an element-indexed space (20_memory.md R50, R59): one whole element at an
index. The canonical form is: indices strictly rising, so that equal contents are equal data. -/

namespace Sys2Proof

/-- The element at an index, if something has written it. -/
def Space.read {α : Type} (m : Space α) (k : Nat) : Option α :=
  match m with
  | [] => none
  | (j, v) :: rest => if j = k then some v else Space.read rest k

/-- The space after writing one element, in canonical form. -/
def Space.write {α : Type} (m : Space α) (k : Nat) (v : α) : Space α :=
  match m with
  | [] => [(k, v)]
  | (j, w) :: rest =>
    if k < j then (k, v) :: (j, w) :: rest
    else if j = k then (k, v) :: rest
    else (j, w) :: Space.write rest k v

/-- Every index of the list is above `lo`, and they rise strictly. -/
def Space.rising {α : Type} (lo : Nat) : Space α → Bool
  | [] => true
  | (j, _) :: rest => decide (lo < j) && Space.rising j rest

/-- The canonical form: indices strictly rising. -/
def Space.wf {α : Type} : Space α → Bool
  | [] => true
  | (j, _) :: rest => Space.rising j rest

/-- Elements `0 .. n-1`, an unwritten one at its free value. -/
def Space.firstN {α : Type} (m : Space α) (free : Nat → α) (n : Nat) : List α :=
  (List.range n).map fun k => (Space.read m k).getD (free k)

end Sys2Proof
end

