-- ==== Sys2Proof/Machine/State.lean ====
section
/-! DEFINITION. The state of the block as plain data (10_state.md R20 to R36), what the environment still
brings to it, what its ports have sent, the reasons a step can stop, and the state after hardware reset. -/

namespace Sys2Proof.Machine

/-- `OP_STATE` (10_state.md R24): the sequencing register of the processing port. -/
inductive OpState where
  /-- No command in flight. -/
  | idle
  /-- Command accepted, entry check of `RUNNING` not yet made. -/
  | entry
  /-- In the availability wait. -/
  | wait
  /-- Wait left, post-wait check not yet made. -/
  | post
  /-- Samples being pulled and processed. -/
  | run
deriving DecidableEq, Repr, Inhabited

/-- `SY_STATE` (10_state.md R31): the phase of the synchroniser. -/
inductive SyState where
  | idle
  | prime
  | dip
  | recover
deriving DecidableEq, Repr, Inhabited

/-- The local variables of a read whose `DEV_POP` has been made (R137, R138, R182): the count `m` the device
returned and the samples not yet processed, oldest first. -/
structure ReadInFlight where
  count : Nat
  rest : List Cplx
deriving DecidableEq, Repr, Inhabited

/-- One word or event that left the block on an output port (20_memory.md R65 to R70). -/
inductive Event where
  /-- A response word `RW96` on `RSP_P` or `RSP_C` (30_encoding.md R91). -/
  | rsp (port : Port) (word : Word96)
  /-- `SOUT(out)`: one corrected sample of a batch (R65). -/
  | sout (z : Cplx)
  /-- `GAIN(agc, n)`: the statistics word and sample count of one `DEV_POP` (R66). -/
  | gain (agc : Word32) (n : Nat)
  /-- `DUMP(target, frames)`: one flush of the dump buffer (R67). -/
  | dump (target : Word32) (frames : List Frame)
  /-- `SPEC(samples)`: the display window (R68). -/
  | spec (samples : List Cplx)
  /-- `NOTE(corr, level)`: the periodic notification (R69). -/
  | note (corr : Word32) (level : F32)
deriving DecidableEq, Repr, Inhabited

/-- The two spaces whose element index is a run-time register bounded only by an invariant (20_memory.md R50). -/
inductive SpaceName where
  | env
  | dumpBuf
deriving DecidableEq, Repr, Inhabited

/-- Why the machine stops with a fault. -/
inductive Fault where
  /-- Raised by the sample step of a read that would write an element the space does not have: `DUMP_BUF` at
  `DUMP_IDX >= DUMP_BLOCK_FRAMES`, or `ENV` at `SY_CNT >= 50` while priming (20_memory.md R50). Safe: the
  invariants of 10_state.md R35 exclude it, so no run from reset meets it (log entry 19). -/
  | noSuchElement (space : SpaceName) (index : Nat)
deriving DecidableEq, Repr

/-- Why a step has no meaning. -/
inductive Refusal where
  /-- Raised by an arm of `exec` for an instruction without a meaning; no arm raises it. Safe. -/
  | notModelled (mnemonic : String)
  /-- Raised by GETSAMPLE and SYNC when `DEV_POP(1)` returned no sample: a device duty is broken and
  93_implementation_defined.md U6 says to refuse. Safe: excluded by the invariants (log entry 18). -/
  | singleReadEmpty
  /-- Raised by a step of `P` when `OP_STATE` is not IDLE and `OP_CMD` is not the word of a read or of RESET, against
  10_state.md R24. Safe: excluded by the invariants (log entry 20). -/
  | latchedNotResumable
  /-- Raised by SYNC when `OP_STATE` is RUN and `SY_STATE` is SY_IDLE, for which 42_time_syncer.md R191 has no row.
  Safe: excluded by the invariants (log entry 20). -/
  | syncNotStarted
deriving DecidableEq, Repr

/-- Every piece of state the spec gives the block, the environment it observes, and the model's own fields,
marked as such. -/
structure State where
  /-- MODEL: the configuration record `CFG` (00_scope.md R6), changed by no step (log entry 6). -/
  cfg : Cfg
  /-- `PHASE` (10_state.md R21), signed. -/
  phase : Word32
  /-- `LEVEL` (R22). -/
  level : F32
  /-- `CORR` (R23), signed. -/
  corr : Word32
  /-- `SCOUNT` (R25), unsigned. -/
  scount : Word32
  /-- `DISP_CUR` (R26), unsigned. -/
  dispCur : Word32
  /-- `RUNNING` (R27). -/
  running : Bool
  /-- `DUMP_ACTIVE` (R28). -/
  dumpActive : Bool
  /-- `DUMP_TARGET` (R28). -/
  dumpTarget : Word32
  /-- `DUMP_IDX` (R30): frames in `DUMP_BUF` not yet sent. -/
  dumpIdx : Nat
  /-- `OP_STATE` (R24). -/
  opState : OpState
  /-- `OP_CMD` (R24): the latched command word. -/
  opCmd : Word96
  /-- MODEL: in WAIT, whether the iteration has found too few samples and looks at `RUNNING` next (log entry 13). -/
  opPolled : Bool
  /-- MODEL: the read in progress, from its `DEV_POP` on (log entry 14). -/
  opRead : Option ReadInFlight
  /-- MODEL: the GAIN or SOUT event that `P` has formed and emits in its next step, an emitted event having its own
  place in the global order (20_memory.md R74, log entry 14). -/
  opEvent : Option Event
  /-- `SY_STATE` (R31). -/
  syState : SyState
  /-- `SY_IDX` (R31). -/
  syIdx : Fin 50
  /-- `SY_CNT` (R31). -/
  syCnt : BitVec 33
  /-- `SY_SUM` (R31). -/
  sySum : F32
  /-- `SY_NULL` (R31). -/
  syNull : Word32
  /-- `SY_FRAME` (R31). -/
  syFrame : Word32
  /-- `ENV[0..49]` (R32). -/
  env : Space F32
  /-- `DISP_BUF` (20_memory.md R55). -/
  dispBuf : Space Cplx
  /-- `DUMP_BUF` (20_memory.md R56). -/
  dumpBuf : Space Frame
  /-- ENVIRONMENT: the device FIFO, oldest first; its length is `DEV_AVAIL` (20_memory.md R60). -/
  dev : List Cplx
  /-- ENVIRONMENT: the command words still to arrive on `CMD_P`, in order (20_memory.md R70). -/
  cmdP : List Word96
  /-- ENVIRONMENT: the command words still to arrive on `CMD_C`, in order. -/
  cmdC : List Word96
  /-- MODEL: the coming turns of the global order (20_memory.md R74, log entry 10). -/
  sched : List Turn
  /-- MODEL: turns taken so far; the free turn is applied to it (log entry 10). -/
  turns : Nat
  /-- MODEL: the device's answer if this step makes a `DEV_POP` (20_memory.md R61, log entry 11). -/
  draw : PopAnswer
  /-- MODEL: everything the output ports have sent, oldest first (log entry 15). -/
  out : List Event
deriving DecidableEq, Repr

/-- The state after hardware reset of a block built with the configuration `c` (10_state.md R36,
70_reset_and_hazards.md R240), with nothing in the device FIFO, no command and no turn waiting. -/
def State.resetWith (c : Cfg) : State where
  cfg := c
  phase := 0#32
  level := 0#32
  corr := 0#32
  scount := 0#32
  dispCur := 0#32
  running := false
  dumpActive := false
  dumpTarget := 0#32
  dumpIdx := 0
  opState := .idle
  opCmd := 0#96
  opPolled := false
  opRead := none
  opEvent := none
  syState := .idle
  syIdx := 0
  syCnt := 0#33
  sySum := 0#32
  syNull := 0#32
  syFrame := 0#32
  env := []
  dispBuf := []
  dumpBuf := []
  dev := []
  cmdP := []
  cmdC := []
  sched := []
  turns := 0
  draw := ⟨0, 0#32⟩
  out := []

/-- The machine right after reset, in the configuration `Cfg.default` (log entries 7, 8, 12). -/
def State.reset : State := State.resetWith Cfg.default

end Sys2Proof.Machine
end

