-- ==== Sys2Proof/Machine/Operands.lean ====
section
/-! DEFINITION. Operand forms, the response word and the words on the ports (20_memory.md R57, R58;
30_encoding.md R91 to R93). -/

namespace Sys2Proof.Machine

/-- `sext_32` of an operand word: `off` of GETSAMPLE and GETSAMPLES (30_encoding.md R92). -/
def signedOperand (w : Word32) : Int := w.toInt

/-- `zext_32` of an operand word: `count`, `nullLen`, `frameLen` (30_encoding.md R92). -/
def unsignedOperand (w : Word32) : Nat := w.toNat

/-- The status codes of 30_encoding.md R93. -/
inductive Status where
  | ok
  | cancelled
  | established
  | noDipFound
  | noEndOfDipFound
  | illegal
deriving DecidableEq, Repr, Inhabited

/-- The number of a status in `RW[3:0]` (30_encoding.md R93). -/
def statusCode (st : Status) : BitVec 4 :=
  match st with
  | .ok => 0#4
  | .cancelled => 1#4
  | .established => 2#4
  | .noDipFound => 3#4
  | .noEndOfDipFound => 4#4
  | .illegal => 15#4

/-- The response word (30_encoding.md R91): `P1`, `P0`, zero, `OPC`, zero, `ST`. -/
def responseWord (opc : BitVec 8) (st : Status) (p0 p1 : Word32) : Word96 :=
  p1 ++ p0 ++ 0#16 ++ opc ++ 0#4 ++ statusCode st

/-- A complex sample on a port: `im` in bits 63..32, `re` in bits 31..0 (20_memory.md R57). -/
def sampleWord (c : Cfg) (z : Cplx) : BitVec 64 := c.NUM.bits z.im ++ c.NUM.bits z.re

/-- A dump frame on a port: `Q` in bits 31..16, `I` in bits 15..0 (20_memory.md R57). -/
def frameWord (f : Frame) : Word32 := f.q ++ f.i

/-- The bytes of a word of `n` bits where something outside the block serialises it: little-endian, the byte holding bits
7..0 first (20_memory.md R58). -/
def littleEndian {n : Nat} (w : BitVec n) : List (BitVec 8) := (List.range (n / 8)).map fun k => w.extractLsb' (8 * k) 8

/-- The bytes of a 32-bit word: an operand, a payload, a dump frame (20_memory.md R57, R58). -/
def wordBytes (w : Word32) : List (BitVec 8) := littleEndian w

/-- The bytes of a command or response word where a bus carries it (20_memory.md R58; 30_encoding.md R90, R91). -/
def commandBytes (w : Word96) : List (BitVec 8) := littleEndian w

/-- The bytes of a `NUM` scalar (20_memory.md R57, R58). -/
def scalarBytes (c : Cfg) (v : F32) : List (BitVec 8) := wordBytes (c.NUM.bits v)

/-- The bytes of a complex sample, of its 64-bit word: those of `re`, then those of `im` (20_memory.md R57, R58). -/
def sampleBytes (c : Cfg) (z : Cplx) : List (BitVec 8) := littleEndian (sampleWord c z)

/-- The bytes of a dump block in a dump file: `I.lo, I.hi, Q.lo, Q.hi` per frame (20_memory.md R57, R58). -/
def dumpFileBytes (frames : List Frame) : List (BitVec 8) :=
  frames.flatMap fun f => wordBytes (frameWord f)

/-- `DUMP_SCALE = NUM.ofInt(2^(DEV_BITS - 1))` (40_sample_reader.md R129). -/
def dumpScale (c : Cfg) : F32 := c.NUM.ofInt (2 ^ (c.devBits - 1))

/-- The dump frame of a raw sample (40_sample_reader.md R128, R129). -/
def dumpFrame (c : Cfg) (raw : Cplx) : Frame :=
  ⟨c.NUM.toI16 (c.NUM.mul raw.re (dumpScale c)), c.NUM.toI16 (c.NUM.mul raw.im (dumpScale c))⟩

end Sys2Proof.Machine
end

