-- ==== Sys2Proof/Machine/Flags.lean ====
section
/-! DEFINITION. The conditions the block decides on: it has no arithmetic flags (10_state.md R27), only the
comparisons of the availability wait, the pipeline and the synchroniser. -/

namespace Sys2Proof.Machine

/-- `DEV_AVAIL` (20_memory.md R60): the length of the device FIFO. -/
def State.devAvail (s : State) : Nat := s.dev.length

/-- `a >= th`: the wait for `th` samples goes on to POST (40_sample_reader.md R122). -/
def State.enough (s : State) (th : Nat) : Bool := decide (th ≤ s.devAvail)

/-- `avg`, the sum over the window divided by its length `WINDOW = 50` (42_time_syncer.md R186). -/
def State.syAverage (s : State) : F32 := s.cfg.NUM.div s.sySum (s.cfg.NUM.ofInt s.cfg.window)

/-- `Above_dip` (42_time_syncer.md R186): the average strictly exceeds `TH_DIP * LEVEL`. -/
def State.aboveDip (s : State) : Bool := s.cfg.NUM.gt s.syAverage (s.cfg.NUM.mul s.cfg.thDip s.level)

/-- `Above_rec` (42_time_syncer.md R186): the average strictly exceeds `TH_REC * LEVEL`. -/
def State.aboveRec (s : State) : Bool := s.cfg.NUM.gt s.syAverage (s.cfg.NUM.mul s.cfg.thRec s.level)

/-- A dump append would write an element that `DUMP_BUF` does not have (20_memory.md R50). -/
def State.dumpSlotMissing (s : State) : Bool := s.dumpActive && decide (s.cfg.dumpBlockFrames ≤ s.dumpIdx)

/-- The priming write of SYNC would write an element that `ENV` does not have (20_memory.md R50). -/
def State.envSlotMissing (s : State) : Bool := decide (s.syState = .prime) && decide (s.cfg.window ≤ s.syCnt.toNat)

end Sys2Proof.Machine
end

