-- ==== Sys2Proof/Machine/Osc.lean ====
section
/-! DEFINITION. The oscillator table `OSC` (20_memory.md R51, R52): entry `k` is `exp(j*2*pi*k/INPUT_RATE)`
with each component the binary32 value nearest the exact real one.

The angle is reduced by exact integer arithmetic to an angle of at most pi/4. Its sine and cosine are
evaluated in fixed point with 192 binary places. The component is the rounding of that value if the whole
interval of `2^16` units around it rounds to the same binary32 value, which encloses every error of the
evaluation; otherwise it is a free value (log entry 5). -/

namespace Sys2Proof.Osc

/-- The fixed-point unit: 192 binary places. -/
def fixOne : Nat := 2 ^ 192

/-- `pi/2` in fixed point, rounded down. -/
def halfPi : Nat := 0x1921FB54442D18469898CC51701B839A252049C1114CF98E8

/-- Horner evaluation of `1 - x²/((j+1)(j+2)) * (1 - x²/((j+3)(j+4)) * (…))` with `fuel` factors; `x2` is the
square of the angle in fixed point. With `j = 0` it is cos x, with `j = 1` it is sin x / x. -/
def horner (x2 : Nat) : Nat → Nat → Nat
  | 0, _ => fixOne
  | fuel + 1, j => fixOne - x2 * horner x2 fuel (j + 2) / fixOne / ((j + 1) * (j + 2))

/-- cos of the angle `x` in fixed point, for `x` at most pi/4. -/
def cosFix (x : Nat) : Nat := horner (x * x / fixOne) 26 0

/-- sin of the angle `x` in fixed point, for `x` at most pi/4. -/
def sinFix (x : Nat) : Nat := x * horner (x * x / fixOne) 26 1 / fixOne

/-- The margin, in fixed-point units, that encloses the error of `cosFix` and `sinFix`. -/
def margin : Nat := 2 ^ 16

/-- The binary32 value nearest every number within the margin of `v`, if there is one. -/
def roundFix (v : Nat) : Option F32 :=
  let lo := NUM.round false 43 (v - margin)
  let hi := NUM.round false 43 (v + margin)
  if lo = hi then some lo else none

/-- Cosine and sine of the quarter-turn angle `(pi/2) * (r / rate)` for `r < rate`. -/
def quarter (rate r : Nat) : Option F32 × Option F32 :=
  if r = 0 then (some NUM.one, some NUM.zero)
  else if 2 * r ≤ rate then
    let x := halfPi * r / rate
    (roundFix (cosFix x), roundFix (sinFix x))
  else
    let x := halfPi * (rate - r) / rate
    (roundFix (sinFix x), roundFix (cosFix x))

/-- A component and its negative; zero entries of the table are +0. -/
def negate (v : F32) : F32 := if v = NUM.zero then NUM.zero else NUM.neg v

/-- `OSC[k]` of the table of `rate` entries (20_memory.md R51, R52). -/
def entry (rate k : Nat) : Cplx :=
  let cs := quarter rate (4 * k % rate)
  let c := cs.1.getD (Config.freeOsc rate k true)
  let s := cs.2.getD (Config.freeOsc rate k false)
  match 4 * k / rate % 4 with
  | 0 => ⟨c, s⟩
  | 1 => ⟨negate s, c⟩
  | 2 => ⟨negate c, negate s⟩
  | _ => ⟨s, negate c⟩

end Sys2Proof.Osc
end

