-- ==== Sys2Proof/Machine/Ops.lean ====
section
/-! DEFINITION. The shared operations: responding, cancellation, the availability wait, the device read, the
per-sample pipeline, the dump flush and the reset of the registers (40_sample_reader.md R120 to R135;
41_control.md R162 to R164; 60_exceptions.md R211; 10_state.md R36). -/

namespace Sys2Proof.Machine

/-- `emit PORT(fields)`: one event leaves the block (00_scope.md R10). -/
def State.emit (s : State) (e : Event) : State := { s with out := s.out ++ [e] }

/-- `respond(ST, p0, p1)` on the response port of `port` (00_scope.md R10, 30_encoding.md R91). -/
def State.respond (s : State) (port : Port) (opc : BitVec 8) (st : Status) (p0 p1 : Word32) : State :=
  s.emit (.rsp port (responseWord opc st p0 p1))

/-- The command in flight on the processing port ends: `OP_STATE <- IDLE` and its local variables are gone. -/
def State.endCommand (s : State) : State :=
  { s with opState := .idle, opPolled := false, opRead := none, opEvent := none }

/-- `raise Cancelled` (60_exceptions.md R211): the command in flight ends, `SY_STATE <- SY_IDLE` if it is a SYNC, the
response is `ST_CANCELLED` with a zero payload, and nothing else is written. -/
def State.takeCancelled (s : State) (opc : BitVec 8) : State :=
  ({ s.endCommand with syState := if opc = 0x03#8 then .idle else s.syState }).respond .P opc .cancelled 0#32 0#32

/-! ### The availability wait (40_sample_reader.md R122) -/

/-- `OP_STATE <- ENTRY`: a read begins its availability wait. -/
def State.beginRead (s : State) : State :=
  { s with opState := .entry, opPolled := false, opRead := none, opEvent := none }

/-- The look at `RUNNING` in ENTRY. -/
def State.entryLook (s : State) (opc : BitVec 8) : State :=
  if s.running then { s with opState := .wait, opPolled := false } else s.takeCancelled opc

/-- One look of a poll iteration in WAIT: at `DEV_AVAIL` first; if it found too few samples, at `RUNNING` next. -/
def State.waitLook (s : State) (opc : BitVec 8) (th : Nat) : State :=
  if s.opPolled then (if s.running then { s with opPolled := false } else s.takeCancelled opc)
  else if s.enough th then { s with opState := .post }
  else { s with opPolled := true }

/-- The look at `RUNNING` in POST; the read goes on to its `DEV_POP`. -/
def State.postLook (s : State) (opc : BitVec 8) : State :=
  if s.running then { s with opState := .run, opRead := none } else s.takeCancelled opc

/-! ### The device read (20_memory.md R61, 40_sample_reader.md R124 to R126) -/

/-- The count `m` of `DEV_POP(n)` on a FIFO of `avail` samples when the device draws `draw`: at most `n` and
at most `avail`, and 1 when `n = 1` and the FIFO is not empty (20_memory.md R61). -/
def popCount (n avail draw : Nat) : Nat :=
  if n = 1 then min 1 avail else min draw (min n avail)

/-- `DEV_POP(n)`; the `GAIN(agc, m)` event is the next thing `P` does. -/
def State.devPop (s : State) (n : Nat) : State :=
  let m := popCount n s.devAvail s.draw.count
  { s with dev := s.dev.drop m, opRead := some ⟨m, s.dev.take m⟩, opEvent := some (.gain s.draw.agc m) }

/-- `P` emits the event it has formed (20_memory.md R74). -/
def State.sendEvent (s : State) (e : Event) : State := ({ s with opEvent := none }).emit e

/-! ### The per-sample pipeline (40_sample_reader.md R127 to R135) -/

/-- `emit DUMP(DUMP_TARGET, DUMP_BUF[0 .. DUMP_IDX-1])` (20_memory.md R67), not emitted when `DUMP_IDX = 0`, and
`DUMP_IDX <- 0`. -/
def State.flushDump (s : State) : State :=
  { (if s.dumpActive && decide (0 < s.dumpIdx) then
      s.emit (.dump s.dumpTarget (s.dumpBuf.firstN Config.freeFrame s.dumpIdx))
    else s) with dumpIdx := 0 }

/-- Step 3, the dump append and its flush on a full buffer (R128, R130). -/
def State.dumpStep (s : State) (raw : Cplx) : State :=
  if s.dumpActive then
    let t := { s with dumpBuf := s.dumpBuf.write s.dumpIdx (dumpFrame s.cfg raw), dumpIdx := s.dumpIdx + 1 }
    if t.dumpIdx = s.cfg.dumpBlockFrames then t.flushDump else t
  else s

/-- Step 4, the display window (R131). -/
def State.displayStep (s : State) (raw : Cplx) : State :=
  if s.dispCur.toNat < s.cfg.displayWindow then
    { s with dispBuf := s.dispBuf.write s.dispCur.toNat raw, dispCur := BitVec.ofNat 32 (s.dispCur.toNat + 1) }
  else s

/-- The phase of step 5: `emod(PHASE - off, INPUT_RATE)`, the subtraction in the integers (R132, R121). -/
def State.nextPhase (s : State) (off : Word32) : Nat :=
  NUM.emod (s.phase.toInt - signedOperand off) s.cfg.inputRate

/-- Step 5, the phase update (R132). -/
def State.phaseStep (s : State) (off : Word32) : State :=
  { s with phase := BitVec.ofNat 32 (s.nextPhase off), corr := off }

/-- Step 6, the mix: `cmul(raw, OSC[PHASE])` with the phase just written (R133). -/
def State.mix (s : State) (raw : Cplx) : Cplx :=
  s.cfg.NUM.cmul raw (Osc.entry s.cfg.inputRate s.phase.toNat)

/-- Step 7, the level update (R134). -/
def State.levelStep (s : State) (z : Cplx) : State :=
  { s with
    level := s.cfg.NUM.add (s.cfg.NUM.mul s.cfg.alpha (s.cfg.MAG z))
      (s.cfg.NUM.mul (s.cfg.NUM.sub s.cfg.NUM.one s.cfg.alpha) s.level) }

/-- The events of a periodic notification: NOTE, then SPEC where it is attached (R135). -/
def State.notify (s : State) : State :=
  let t := s.emit (.note s.corr s.level)
  if s.cfg.specAttached then t.emit (.spec (s.dispBuf.firstN Config.freeDisp s.dispCur.toNat)) else t

/-- Step 8, the period (R135). -/
def State.periodStep (s : State) : State :=
  if s.cfg.period ≤ s.scount.toNat + 1 then { s.notify with scount := 0#32, dispCur := 0#32 }
  else { s with scount := BitVec.ofNat 32 (s.scount.toNat + 1) }

/-- Steps 3, 4 and 5. -/
def State.beforeMix (s : State) (raw : Cplx) (off : Word32) : State :=
  ((s.dumpStep raw).displayStep raw).phaseStep off

/-- The corrected sample `ProcessSample(raw, off)` returns (R127). -/
def State.corrected (s : State) (raw : Cplx) (off : Word32) : Cplx := (s.beforeMix raw off).mix raw

/-- The state `ProcessSample(raw, off)` leaves (R127). -/
def State.afterSample (s : State) (raw : Cplx) (off : Word32) : State :=
  ((s.beforeMix raw off).levelStep (s.corrected raw off)).periodStep

/-! ### Reset (10_state.md R36, 40_sample_reader.md R140, 70_reset_and_hazards.md R240) -/

/-- The datapath part of a reset: the registers of `P` and `LEVEL`. The contents of `ENV` and `DISP_BUF` become unspecified:
no entry holds a value (log entry 9). -/
def State.restoreDatapath (s : State) : State :=
  { s with
    phase := 0#32, level := s.cfg.NUM.zero, corr := 0#32, scount := 0#32, dispCur := 0#32, env := [], dispBuf := [] }

/-- The dump part of a reset, inside the dump critical section (41_control.md R164): no target, and the residue is discarded.
The contents of `DUMP_BUF` become unspecified (log entry 9). -/
def State.restoreDump (s : State) : State :=
  { s with dumpActive := false, dumpTarget := 0#32, dumpIdx := 0, dumpBuf := [] }

/-- `P` is in RUN with nothing read yet: a RESET is between its two steps (log entry 26). -/
def State.beginReset (s : State) : State :=
  { s with opState := .run, opPolled := false, opRead := none, opEvent := none }

/-- What hardware reset and the RESET command both restore. -/
def State.restore (s : State) : State :=
  { s.restoreDatapath.restoreDump.endCommand with syState := .idle }

/-- Hardware reset (R240, 93_implementation_defined.md U17): the command in flight is abandoned without a
response, and what is outside the block (FIFO, waiting commands, what was sent) stays. -/
def State.hwReset (s : State) : State :=
  { s.restore with
    running := false, opCmd := 0#96
    syIdx := 0, syCnt := 0#33, sySum := s.cfg.NUM.zero, syNull := 0#32, syFrame := 0#32 }

end Sys2Proof.Machine
end

