-- ==== Sys2Proof/Machine/Control.lean ====
section
/-! DEFINITION. The commands of the control port (41_control.md R160 to R164): each is one atomic step, whatever
`P` is doing. -/

namespace Sys2Proof.Machine

/-- SETRUN `run` (41_control.md R161). -/
def execSetrun (run : Bool) (s : State) : Host.Outcome State Fault Refusal :=
  .next (({ s with running := run }).respond .C 0x10#8 .ok 0#32 0#32)

/-- DUMPON `target` (41_control.md R162): the residue goes to the old target. -/
def execDumpon (target : Word32) (s : State) : Host.Outcome State Fault Refusal :=
  .next (({ s.flushDump with dumpTarget := target, dumpActive := true }).respond .C 0x11#8 .ok 0#32 0#32)

/-- DUMPOFF (41_control.md R163): the final, short block. -/
def execDumpoff (s : State) : Host.Outcome State Fault Refusal :=
  .next (({ s.flushDump with dumpActive := false, dumpTarget := 0#32 }).respond .C 0x12#8 .ok 0#32 0#32)

end Sys2Proof.Machine
end

