-- ==== Sys2Proof/Machine/Reader.lean ====
section
/-! DEFINITION. The commands of the processing port that read samples, the level read and RESET
(40_sample_reader.md R137 to R140). A read is executed one atomic step at a time (20_memory.md R74): where it
stands is `OP_STATE`. -/

namespace Sys2Proof.Machine

/-- GETSAMPLE after its pipeline: `OP_STATE <- IDLE` and the response carries the corrected sample (R137). -/
def State.answerSample (s : State) (z : Cplx) : State :=
  s.endCommand.respond .P 0x01#8 .ok (s.cfg.NUM.bits z.re) (s.cfg.NUM.bits z.im)

/-- GETSAMPLE `off` (40_sample_reader.md R137). -/
def execGetsample (off : Word32) (s : State) : Host.Outcome State Fault Refusal :=
  match s.opState with
  | .idle => .next s.beginRead
  | .entry => .next (s.entryLook 0x01#8)
  | .wait => .next (s.waitLook 0x01#8 s.cfg.lowWater)
  | .post => .next (s.postLook 0x01#8)
  | .run =>
    match s.opEvent, s.opRead with
    | some e, _ => .next (s.sendEvent e)
    | none, none => .next (s.devPop 1)
    | none, some ⟨_, []⟩ => .refused .singleReadEmpty
    | none, some ⟨_, raw :: _⟩ =>
      if s.dumpSlotMissing then .fault (.noSuchElement .dumpBuf s.dumpIdx)
      else .next ((s.afterSample raw off).answerSample (s.corrected raw off))

/-- GETSAMPLES after one sample of its batch: its `SOUT` event is next, and then the rest of the batch (R138). -/
def State.batchNext (s : State) (m : Nat) (rest : List Cplx) (z : Cplx) : State :=
  { s with opRead := some ⟨m, rest⟩, opEvent := some (.sout z) }

/-- GETSAMPLES `count, off` (40_sample_reader.md R138). -/
def execGetsamples (count off : Word32) (s : State) : Host.Outcome State Fault Refusal :=
  match s.opState with
  | .idle => .next s.beginRead
  | .entry => .next (s.entryLook 0x02#8)
  | .wait => .next (s.waitLook 0x02#8 (unsignedOperand count))
  | .post => .next (s.postLook 0x02#8)
  | .run =>
    match s.opEvent, s.opRead with
    | some e, _ => .next (s.sendEvent e)
    | none, none => .next (s.devPop (unsignedOperand count))
    | none, some ⟨m, []⟩ => .next (s.endCommand.respond .P 0x02#8 .ok (BitVec.ofNat 32 m) 0#32)
    | none, some ⟨m, raw :: rest⟩ =>
      if s.dumpSlotMissing then .fault (.noSuchElement .dumpBuf s.dumpIdx)
      else .next ((s.afterSample raw off).batchNext m rest (s.corrected raw off))

/-- GETLEVEL (40_sample_reader.md R139), answered on the port it arrived on. -/
def execGetlevel (port : Port) (s : State) : Host.Outcome State Fault Refusal :=
  .next (s.respond port 0x08#8 .ok (s.cfg.NUM.bits s.level) 0#32)

/-- RESET after its dump part: `SY_STATE <- SY_IDLE`, `OP_STATE <- IDLE`, and the response (R140, 10_state.md R36). -/
def State.finishReset (s : State) : State :=
  ({ s.endCommand with syState := .idle }).respond .P 0x04#8 .ok 0#32 0#32

/-- RESET (40_sample_reader.md R140). Its write of `LEVEL` and its dump part are two accesses to shared registers and so two
places in the global order (20_memory.md R74): a step of `C` may fall between them (log entry 26). -/
def execReset (s : State) : Host.Outcome State Fault Refusal :=
  match s.opState with
  | .run => .next s.restoreDump.finishReset
  | .idle => .next s.restoreDatapath.beginReset
  | .entry => .next s.restoreDatapath.beginReset
  | .wait => .next s.restoreDatapath.beginReset
  | .post => .next s.restoreDatapath.beginReset

end Sys2Proof.Machine
end

