-- ==== Sys2Proof/Machine/Syncer.lean ====
section
/-! DEFINITION. The null-symbol energy detector, SYNC (42_time_syncer.md R180 to R194). -/

namespace Sys2Proof.Machine

/-- The start of an invocation (42_time_syncer.md R181). -/
def State.syncStart (s : State) (nullLen frameLen : Word32) : State :=
  { s with
    syNull := nullLen, syFrame := frameLen, sySum := s.cfg.NUM.zero, syIdx := 0, syCnt := 0#33, syState := .prime }

/-- `finish(st)` (42_time_syncer.md R189). DESIGN CHOICE: `ENV` keeps the last window and the working registers their last
values, where the spec calls what they hold after a finished SYNC unspecified or dead (10_state.md R32,
93_implementation_defined.md U13, log entry 27). -/
def State.syncFinish (s : State) (st : Status) : State :=
  ({ s.endCommand with syState := .idle }).respond .P 0x03#8 st 0#32 0#32

/-- The circular index after one slide: `emod(SY_IDX + 1, 50)` (R185). -/
def nextIdx (i : Fin 50) : Fin 50 := i + 1

/-- `Slide(g)` (42_time_syncer.md R185): subtract the oldest entry, add the new one, advance the index. -/
def State.slide (s : State) (g : F32) : State :=
  { s with
    sySum := s.cfg.NUM.add (s.cfg.NUM.sub s.sySum ((s.env.read s.syIdx.val).getD (Config.freeEnv s.syIdx.val))) g
    env := s.env.write s.syIdx.val g
    syIdx := nextIdx s.syIdx }

/-- One entry of the priming phase (42_time_syncer.md R184). -/
def State.primeEntry (s : State) (g : F32) : State :=
  let t := { s with
    env := s.env.write s.syCnt.toNat g
    sySum := s.cfg.NUM.add s.sySum g
    syCnt := BitVec.ofNat 33 (s.syCnt.toNat + 1) }
  if s.syCnt.toNat + 1 = s.cfg.window then { t with syIdx := 0, syCnt := 0#33, syState := .dip } else t

/-- One sample of a search (R187, R188): slide, count, and finish with `st` when the counter exceeds `limit`. -/
def State.searchEntry (s : State) (g : F32) (limit : Nat) (st : Status) : State :=
  let t := { s.slide g with syCnt := BitVec.ofNat 33 (s.syCnt.toNat + 1) }
  if limit < s.syCnt.toNat + 1 then t.syncFinish st else t

/-- What SYNC does with the magnitude of a sample it has read (42_time_syncer.md R191). -/
def State.syncSample (s : State) (g : F32) : Host.Outcome State Fault Refusal :=
  match s.syState with
  | .idle => .refused .syncNotStarted
  | .prime => .next (s.primeEntry g)
  | .dip => .next (s.searchEntry g (unsignedOperand s.syFrame) .noDipFound)
  | .recover => .next (s.searchEntry g (unsignedOperand s.syNull + 50) .noEndOfDipFound)

/-- The loop test of SYNC between two reads (R184, R187, R188): another read, the next phase, or the end. -/
def State.syncTest (s : State) : Host.Outcome State Fault Refusal :=
  match s.syState with
  | .idle => .refused .syncNotStarted
  | .prime => .next s.beginRead
  | .dip =>
    if s.aboveDip then .next s.beginRead
    else .next { s with syCnt := 0#33, syState := .recover }
  | .recover =>
    if s.aboveRec then .next (s.syncFinish .established)
    else .next s.beginRead

/-- SYNC `nullLen, frameLen` (42_time_syncer.md R192). -/
def execSync (nullLen frameLen : Word32) (s : State) : Host.Outcome State Fault Refusal :=
  match s.opState with
  | .idle => .next (s.syncStart nullLen frameLen).beginRead
  | .entry => .next (s.entryLook 0x03#8)
  | .wait => .next (s.waitLook 0x03#8 s.cfg.lowWater)
  | .post => .next (s.postLook 0x03#8)
  | .run =>
    match s.opEvent, s.opRead with
    | some e, _ => .next (s.sendEvent e)
    | none, none => .next (s.devPop 1)
    | none, some ⟨0, []⟩ => .refused .singleReadEmpty
    | none, some ⟨_ + 1, []⟩ => s.syncTest
    | none, some ⟨m, raw :: rest⟩ =>
      if s.dumpSlotMissing then .fault (.noSuchElement .dumpBuf s.dumpIdx)
      else if s.envSlotMissing then .fault (.noSuchElement .env s.syCnt.toNat)
      else
        ({ s.afterSample raw 0#32 with opRead := some ⟨m, rest⟩ }).syncSample
          (s.cfg.MAG (s.corrected raw 0#32))

end Sys2Proof.Machine
end

