-- ==== Sys2Proof/Machine/Dispatch.lean ====
section
/-! DEFINITION. One arm per command: `exec i s` is the step of the machine that belongs to the command `i`. -/

namespace Sys2Proof.Machine

def exec (i : Instr) (s : State) : Host.Outcome State Fault Refusal :=
  match i with
  | .getsample off => Sys2Proof.Machine.execGetsample off s
  | .getsamples count off => Sys2Proof.Machine.execGetsamples count off s
  | .sync nullLen frameLen => Sys2Proof.Machine.execSync nullLen frameLen s
  | .reset => Sys2Proof.Machine.execReset s
  | .getlevel port => Sys2Proof.Machine.execGetlevel port s
  | .setrun run => Sys2Proof.Machine.execSetrun run s
  | .dumpon target => Sys2Proof.Machine.execDumpon target s
  | .dumpoff => Sys2Proof.Machine.execDumpoff s

end Sys2Proof.Machine
end

