-- ==== Sys2Proof/Machine/Fetch.lean ====
section
/-! DEFINITION. Whose turn it is and what it fetches: the block has no program, so a step takes the next turn of
the global order (20_memory.md R74), accepts a command word where that agent is free to (R70), and decodes it. -/

namespace Sys2Proof.Machine

/-- What a step has to do after the turn and the decoder have been looked at. -/
inductive Fetched where
  /-- The step is complete without a command: an append, a reset, an idle port, an illegal word. -/
  | done (s : State)
  /-- The step belongs to the command `i`. -/
  | run (i : Instr) (s : State)
  /-- The sequencing registers contradict 10_state.md R24. -/
  | refused (r : Refusal)
deriving DecidableEq, Repr

/-- The next turn: the first one listed, or a free one (log entry 10). -/
def State.nextTurn (s : State) : Turn :=
  match s.sched with
  | [] => Config.freeTurn s.turns
  | t :: _ => t

/-- The state with that turn taken off the list and counted. -/
def State.passTurn (s : State) : State := { s with sched := s.sched.tail, turns := s.turns + 1 }

/-- The answer to an illegal word: `ST_ILLEGAL` with the word's `OPC` byte, nothing else (30_encoding.md R96). -/
def State.answerIllegal (s : State) (port : Port) (cw : Word96) : State :=
  s.respond port (opcField cw) .illegal 0#32 0#32

/-- A turn of `P` that finds no command in flight: it accepts the next word of `CMD_P` (20_memory.md R70), latches it in
`OP_CMD` and decodes it. -/
def acceptP (s : State) : Fetched :=
  match s.cmdP with
  | [] => .done s
  | cw :: rest =>
    match decode .P cw with
    | .illegal _ => .done (({ s with cmdP := rest }).answerIllegal .P cw)
    | .ok i => .run i { s with cmdP := rest, opCmd := cw }

/-- A turn of `P` in the middle of a command: the latched word says which one (10_state.md R24). -/
def resumeP (s : State) : Fetched :=
  match decode .P s.opCmd with
  | .ok i => if i.resumes then .run i s else .refused .latchedNotResumable
  | .illegal _ => .refused .latchedNotResumable

/-- A turn of `C`: the next word of `CMD_C` is executed whole (41_control.md R160). -/
def acceptC (s : State) : Fetched :=
  match s.cmdC with
  | [] => .done s
  | cw :: rest =>
    match decode .C cw with
    | .illegal _ => .done (({ s with cmdC := rest }).answerIllegal .C cw)
    | .ok i => .run i { s with cmdC := rest }

/-- The device appends samples to its FIFO (20_memory.md R60; 00_scope.md R14 (3)). -/
def State.devAppend (s : State) (samples : List Cplx) : State := { s with dev := s.dev ++ samples }

/-- What a turn makes of a state whose list of turns has already moved on. -/
def fetchTurn (t : Turn) (s : State) : Fetched :=
  match t with
  | .proc answer =>
    if s.opState = .idle then acceptP { s with draw := answer } else resumeP { s with draw := answer }
  | .ctrl => acceptC s
  | .dev samples => .done (s.devAppend samples)
  | .hwReset => .done s.hwReset

/-- The fetch of a step: its turn, and the command it belongs to. -/
def fetch (s : State) : Fetched := fetchTurn s.nextTurn s.passTurn

/-- The state in which the command word `cw` is the next one on `port`, and that port has the next turn. -/
def State.offer (s : State) (port : Port) (cw : Word96) : State :=
  match port with
  | .P => { s with opState := .idle, cmdP := cw :: s.cmdP, sched := .proc ⟨0, 0#32⟩ :: s.sched }
  | .C => { s with cmdC := cw :: s.cmdC, sched := .ctrl :: s.sched }

end Sys2Proof.Machine
end

