-- ==== Sys2Proof/Machine/Step.lean ====
section
/-! DEFINITION. One step of the machine: one place in the global order of atomic steps (20_memory.md R74). -/

namespace Sys2Proof.Machine

/-- One step: the turn's fetch, and the command's meaning where the turn runs a command. -/
def step (s : State) : Host.Outcome State Fault Refusal :=
  match fetch s with
  | .done t => .next t
  | .run i t => exec i t
  | .refused r => .refused r

/-- `s` with the command word of the bits `w` waiting where the next step accepts it: at the head of the port it is
legal on, that port having the next turn and, on the processing port, no command being in flight (log entry 12). -/
def State.withFetchWord (s : State) (nbits w : Nat) : State :=
  s.offer (tablePort (tableWord nbits w)) (tableWord nbits w)

end Sys2Proof.Machine
end

