-- ==== Sys2Proof/Safety.lean ====
section
/-! DEFINITION. What counts as a sound state and a safe run: the invariants of 10_state.md R35 made inductive,
the end of a run (70_reset_and_hazards.md R244), and what a sink may see (20_memory.md R79). -/

namespace Sys2Proof.Safety

open Sys2Proof.Machine

/-- The threshold of a read's availability wait (40_sample_reader.md R122). -/
def threshold (i : Instr) (s : State) : Nat :=
  match i with
  | .getsamples count _ => count.toNat
  | _ => s.cfg.lowWater

/-- The read is past its wait and has not popped: POST, or RUN before `DEV_POP`. -/
def beforePop (s : State) : Prop := s.opState = .post ∨ (s.opState = .run ∧ s.opRead = none)

/-- What is true of the read `r` in progress when the command in flight is `i` (R124, R125, R137, R138, R182). -/
def readSound (i : Instr) (r : ReadInFlight) : Prop :=
  match i with
  | .getsample _ => r.count = 1 ∧ r.rest.length = 1
  | .getsamples count _ => r.count ≤ count.toNat ∧ r.rest.length ≤ r.count
  | .sync _ _ => r.count = 1 ∧ r.rest.length ≤ 1
  | _ => False

/-- The counter of the synchroniser is within its phase's limit (42_time_syncer.md R184, R187, R188). -/
def counterSound (s : State) : Prop :=
  match s.syState with
  | .idle => True
  | .prime => s.syCnt.toNat < 50
  | .dip => s.syCnt.toNat ≤ s.syFrame.toNat
  | .recover => s.syCnt.toNat ≤ s.syNull.toNat + 50

/-- The entries of `ENV` the running phase may read have been written (10_state.md R32). -/
def envSound (s : State) : Prop :=
  match s.syState with
  | .idle => True
  | .prime => ∀ k, k < s.syCnt.toNat → (s.env.read k).isSome
  | .dip => ∀ k, k < 50 → (s.env.read k).isSome
  | .recover => ∀ k, k < 50 → (s.env.read k).isSome

/-- The read in flight is `i`: past its wait and before its `DEV_POP` enough samples are there, and what it has popped fits
it (40_sample_reader.md R122, R124, R125). -/
def readFlight (i : Instr) (s : State) : Prop :=
  i.isRead = true ∧ (beforePop s → threshold i s ≤ s.devAvail) ∧ ∀ r, s.opRead = some r → readSound i r

/-- The command in flight is a RESET between its two steps (log entry 26). -/
def resetFlight (i : Instr) (s : State) : Prop :=
  i = .reset ∧ s.opState = .run ∧ s.opRead = none ∧ s.opEvent = none

/-- The command in flight: the latched word decodes to a read or to RESET, and SY_STATE is SY_IDLE exactly when it is not a
SYNC (10_state.md R24, R35). -/
def flightSound (s : State) : Prop :=
  ∃ i, decode .P s.opCmd = .ok i ∧ (s.syState = .idle ↔ i.opc ≠ 0x03#8) ∧ (readFlight i s ∨ resetFlight i s)

/-- The invariants of 10_state.md R35, with what is needed beside them to be kept by every step. -/
structure Inv (s : State) : Prop where
  /-- R35: `0 <= PHASE < INPUT_RATE`. -/
  phase_lt : s.phase.toNat < s.cfg.inputRate
  /-- R35: `0 <= SCOUNT < PERIOD`. -/
  scount_lt : s.scount.toNat < s.cfg.period
  /-- R35: `0 <= DISP_CUR <= DISPLAY_WINDOW`. -/
  dispCur_le : s.dispCur.toNat ≤ s.cfg.displayWindow
  /-- The cursor moves at most once a sample and is cleared with `SCOUNT`, so it never leaves its 32 bits. -/
  dispCur_le_scount : s.dispCur.toNat ≤ s.scount.toNat
  /-- R35: `0 <= DUMP_IDX < DUMP_BLOCK_FRAMES`. -/
  dumpIdx_lt : s.dumpIdx < s.cfg.dumpBlockFrames
  /-- R35: `DUMP_ACTIVE = 0` implies `DUMP_IDX = 0` and `DUMP_TARGET = 0`. -/
  dump_off : s.dumpActive = false → s.dumpIdx = 0 ∧ s.dumpTarget = 0#32
  /-- No space lists an index twice or out of order. -/
  env_wf : s.env.wf = true
  dispBuf_wf : s.dispBuf.wf = true
  dumpBuf_wf : s.dumpBuf.wf = true
  /-- No space lists an index it does not have (20_memory.md R50). -/
  env_size : ∀ k, (s.env.read k).isSome → k < 50
  dispBuf_size : ∀ k, (s.dispBuf.read k).isSome → k < s.cfg.displayWindow
  dumpBuf_size : ∀ k, (s.dumpBuf.read k).isSome → k < s.cfg.dumpBlockFrames
  /-- Every entry a later rule reads has been written (93_implementation_defined.md U10). -/
  env_written : envSound s
  dispBuf_written : ∀ k, k < s.dispCur.toNat → (s.dispBuf.read k).isSome
  dumpBuf_written : ∀ k, k < s.dumpIdx → (s.dumpBuf.read k).isSome
  /-- 42_time_syncer.md R187, R188, R193. -/
  counter : counterSound s
  /-- R35: `SY_STATE = SY_IDLE` when no SYNC is in flight. -/
  idle_sync : s.opState = .idle → s.syState = .idle
  /-- 10_state.md R24. -/
  flight : s.opState ≠ .idle → flightSound s
  /-- A read is in progress only in RUN. -/
  opRead_run : s.opState ≠ .run → s.opRead = none
  /-- An event waits to be emitted only in RUN. -/
  opEvent_run : s.opState ≠ .run → s.opEvent = none
  /-- A poll iteration is half done only in WAIT. -/
  opPolled_wait : s.opState ≠ .wait → s.opPolled = false

/-- The end of a run (70_reset_and_hazards.md R244): both command lists are exhausted and `OP_STATE = IDLE`. -/
def ended (s : State) : Prop := s.cmdP = [] ∧ s.cmdC = [] ∧ s.opState = .idle

/-- NOTE and SPEC may be dropped under load, nothing else (20_memory.md R79). -/
def droppable : Event → Bool
  | .rsp _ _ => false
  | .sout _ => false
  | .gain _ _ => false
  | .dump _ _ => false
  | .spec _ => true
  | .note _ _ => true

/-- What the sinks together may see of what the block emitted (93_implementation_defined.md U14): a subsequence
that lacks at most NOTE and SPEC events. -/
def Delivered (seen emitted : List Event) : Prop :=
  seen.Sublist emitted ∧ seen.filter (fun e => !droppable e) = emitted.filter (fun e => !droppable e)

/-- `ProcessSample` on a list of raw samples, each with its phase offset, oldest first (40_sample_reader.md R127). -/
def feed (l : List (Cplx × Word32)) (s : State) : State := l.foldl (fun t p => t.afterSample p.1 p.2) s

/-- The corrected samples of the same list, in order. -/
def feedOut : List (Cplx × Word32) → State → List Cplx
  | [], _ => []
  | p :: l, s => s.corrected p.1 p.2 :: feedOut l (s.afterSample p.1 p.2)

/-- The samples of a list of reads, each read an offset and the raw samples it returned (40_sample_reader.md R141). -/
def readSamples (reads : List (Word32 × List Cplx)) : List (Cplx × Word32) :=
  reads.flatMap fun r => r.2.map fun raw => (raw, r.1)

/-- A batch of GETSAMPLES: the pipeline and one SOUT per sample, in order (40_sample_reader.md R138). -/
def feedBatch (off : Word32) : List Cplx → State → State
  | [], s => s
  | raw :: rest, s =>
    feedBatch off rest { s.afterSample raw off with out := (s.afterSample raw off).out ++ [.sout (s.corrected raw off)] }

/-- The frames of the DUMP events among some events, in order. -/
def dumpedFrames (es : List Event) : List Frame :=
  es.flatMap fun
    | .dump _ fs => fs
    | _ => []

/-- The sizes of the DUMP blocks among some events, in order. -/
def dumpBlocks (es : List Event) : List Nat :=
  es.filterMap fun
    | .dump _ fs => some fs.length
    | _ => none

/-- The number of NOTE events among some events. -/
def noteCount (es : List Event) : Nat :=
  es.countP fun
    | .note _ _ => true
    | _ => false

/-- `n` steps in which `P` has every turn and the device answers every `DEV_POP` with `d`. -/
def procRun (d : PopAnswer) (n : Nat) (s : State) : Host.Outcome State Fault Refusal :=
  Host.Core.run Sys2Proof.core n { s with sched := List.replicate n (.proc d) }

/-- `n` steps of the schedule `ts`: turn `k` of the global order is `ts k`. -/
def schedRun (ts : Nat → Turn) (n : Nat) (s : State) : Host.Outcome State Fault Refusal :=
  Host.Core.run Sys2Proof.core n { s with sched := (List.range n).map ts }

/-- Weak fairness of `P` (40_sample_reader.md R123, 70_reset_and_hazards.md R257): in the infinite schedule `ts` its turns never
stop coming. `P` has a step of a command in flight at every turn of its own, so a cancel step that stays enabled is taken
within finitely many turns; no bound is part of it (92_eei_decisions.md D24). -/
def FairToP (ts : Nat → Turn) : Prop := ∀ n, ∃ k d, n ≤ k ∧ ts k = .proc d

/-- The step stops the machine. -/
def stops (s : State) : Prop :=
  (∃ f, step s = .fault f) ∨ (∃ r, step s = .refused r)

end Sys2Proof.Safety
end

