-- ==== Sys2Proof/Certificates/Slice0/Obligations.lean ====
section
/-! DEFINITION. The statements for the provers: what the commands and the machine do, rule by rule of spec/. -/

open Sys2Proof Sys2Proof.Machine Sys2Proof.Safety

/-! ### Encoding -/

/-- 30_encoding.md R98, the worked examples: each word on its port decodes to the command it stands for, or is illegal. -/
def Obligations.WorkedExampleWordsDecode : Prop :=
  decode .P 0x00000000FFFFFFFD00000001#96 = .ok (.getsample (BitVec.ofInt 32 (-3))) ∧
  decode .P 0x000000030000000100000002#96 = .ok (.getsamples 3#32 1#32) ∧
  decode .P 0x000003E80000006400000003#96 = .ok (.sync 100#32 1000#32) ∧
  decode .C 0x000000000000000100000010#96 = .ok (.setrun true) ∧
  (∃ why, decode .C 0x000000000000000200000010#96 = .illegal why) ∧
  (∃ why, decode .C 0x000000000000000000000001#96 = .illegal why) ∧
  (∃ why, decode .P 0x000000000000000000000100#96 = .illegal why)

/-- 30_encoding.md R92, R94, R98: decoding the word of a command, on a port where the command is legal, gives the command back,
for every operand. -/
def Obligations.DecodeInvertsEncode : Prop :=
  ∀ (p : Port) (i : Instr), i.wellFormed p = true → decode p (encode i) = .ok i

/-- 30_encoding.md R94 to R98: a word that decodes to a command is the word of that command and no other, and the command is legal
on the port. -/
def Obligations.EncodeInvertsDecode : Prop :=
  ∀ (p : Port) (w : Word96) (i : Instr), decode p w = .ok i → encode i = w ∧ i.wellFormed p = true

/-- 30_encoding.md R94, R96: a word is illegal exactly when it selects no row of the opcode map that is legal on the port it
arrived on. -/
def Obligations.IllegalWordSelectsNoRow : Prop :=
  ∀ (p : Port) (w : Word96), (∃ why, decode p w = .illegal why) ↔
    ¬ ∃ r, r ∈ opcodeTable ∧ r.legalOn p = true ∧ r.selects w = true

/-- 30_encoding.md R91, R93: the fields of a response word, and the numbers of the six statuses. -/
def Obligations.ResponseWordFields : Prop :=
  ∀ (o : BitVec 8) (st : Status) (p0 p1 : Word32),
    (responseWord o st p0 p1).extractLsb' 0 4 = statusCode st ∧
    (responseWord o st p0 p1).extractLsb' 4 4 = 0#4 ∧
    (responseWord o st p0 p1).extractLsb' 8 8 = o ∧
    (responseWord o st p0 p1).extractLsb' 16 16 = 0#16 ∧
    (responseWord o st p0 p1).extractLsb' 32 32 = p0 ∧
    (responseWord o st p0 p1).extractLsb' 64 32 = p1 ∧
    statusCode .ok = 0#4 ∧ statusCode .cancelled = 1#4 ∧ statusCode .established = 2#4 ∧
    statusCode .noDipFound = 3#4 ∧ statusCode .noEndOfDipFound = 4#4 ∧ statusCode .illegal = 15#4

/-! ### The control port -/

/-- 41_control.md R161: SETRUN writes `RUNNING`, responds `ST_OK`, and changes nothing else. -/
def Obligations.SetrunWritesOnlyRunning : Prop :=
  ∀ (run : Bool) (s : State), exec (.setrun run) s =
    .next { s with running := run, out := s.out ++ [.rsp .C (responseWord 0x10#8 .ok 0#32 0#32)] }

/-- 41_control.md R162: DUMPON sends the residue, if there is one, to the old target, installs the new target with an empty
buffer, responds `ST_OK`, and changes nothing else. -/
def Obligations.DumponInstallsTarget : Prop :=
  ∀ (target : Word32) (s : State), exec (.dumpon target) s =
    .next { s with
      dumpActive := true, dumpTarget := target, dumpIdx := 0
      out := s.out ++
        (if s.dumpActive = true ∧ 0 < s.dumpIdx then
          [.dump s.dumpTarget (s.dumpBuf.firstN Config.freeFrame s.dumpIdx)] else []) ++
        [.rsp .C (responseWord 0x11#8 .ok 0#32 0#32)] }

/-- 41_control.md R163: DUMPOFF sends the residue, if there is one, removes the target, responds `ST_OK`, and changes nothing
else. -/
def Obligations.DumpoffRemovesTarget : Prop :=
  ∀ s : State, exec .dumpoff s =
    .next { s with
      dumpActive := false, dumpTarget := 0#32, dumpIdx := 0
      out := s.out ++
        (if s.dumpActive = true ∧ 0 < s.dumpIdx then
          [.dump s.dumpTarget (s.dumpBuf.firstN Config.freeFrame s.dumpIdx)] else []) ++
        [.rsp .C (responseWord 0x12#8 .ok 0#32 0#32)] }

/-! ### The level read and RESET -/

/-- 40_sample_reader.md R139: GETLEVEL answers `LEVEL` on the port it came from and has no other effect. -/
def Obligations.GetlevelAnswersLevel : Prop :=
  ∀ (p : Port) (s : State), exec (.getlevel p) s =
    .next { s with out := s.out ++ [.rsp p (responseWord 0x08#8 .ok s.level 0#32)] }

/-- 40_sample_reader.md R140, 10_state.md R36, 20_memory.md R74: what RESET restores, what it answers, and what it leaves. Its
first step restores the datapath and writes `LEVEL`, its second is the dump part and the response; the third clause is the
whole command. That `OP_STATE` is RUN between the two steps, and that the buffers hold no value afterwards, are the model's
(log entries 26, 9). -/
def Obligations.ResetRestoresRegisters : Prop :=
  (∀ s : State, s.opState ≠ .run → exec .reset s =
    .next { s with
      phase := 0#32, level := 0#32, corr := 0#32, scount := 0#32, dispCur := 0#32, env := [], dispBuf := []
      opState := .run, opPolled := false, opRead := none, opEvent := none }) ∧
  (∀ s : State, s.opState = .run → exec .reset s =
    .next { s with
      dumpActive := false, dumpTarget := 0#32, dumpIdx := 0, dumpBuf := []
      opState := .idle, opPolled := false, opRead := none, opEvent := none, syState := .idle
      out := s.out ++ [.rsp .P (responseWord 0x04#8 .ok 0#32 0#32)] }) ∧
  ∀ (d : PopAnswer) (rest : List Word96) (s : State), s.opState = .idle → s.cmdP = encode .reset :: rest →
    procRun d 2 s = .next { s with
      phase := 0#32, level := 0#32, corr := 0#32, scount := 0#32, dispCur := 0#32
      dumpActive := false, dumpTarget := 0#32, dumpIdx := 0
      opState := .idle, opCmd := encode .reset, opPolled := false, opRead := none, opEvent := none, syState := .idle
      env := [], dispBuf := [], dumpBuf := [], cmdP := rest, sched := [], turns := s.turns + 2, draw := d
      out := s.out ++ [.rsp .P (responseWord 0x04#8 .ok 0#32 0#32)] }

/-- 40_sample_reader.md R140, 70_reset_and_hazards.md R241: after the two steps of RESET, replaying any samples and offsets gives
the same phase, level, counters and corrected samples as on a fresh block of the same configuration. -/
def Obligations.ResetThenReplayIsFresh : Prop :=
  ∀ s : State, s.opState ≠ .run → ∃ h t, exec .reset s = .next h ∧ exec .reset h = .next t ∧
    ∀ l : List (Cplx × Word32),
      feedOut l t = feedOut l (State.resetWith s.cfg) ∧
      (feed l t).phase = (feed l (State.resetWith s.cfg)).phase ∧
      (feed l t).level = (feed l (State.resetWith s.cfg)).level ∧
      (feed l t).corr = (feed l (State.resetWith s.cfg)).corr ∧
      (feed l t).scount = (feed l (State.resetWith s.cfg)).scount ∧
      (feed l t).dispCur = (feed l (State.resetWith s.cfg)).dispCur

/-! ### The availability wait and cancellation -/

/-- 10_state.md R24: an accepted read begins at ENTRY; GETSAMPLE and GETSAMPLES change nothing but the sequencing of the port. -/
def Obligations.AcceptedReadEntersEntry : Prop :=
  ∀ (count off : Word32) (s : State), s.opState = .idle →
    exec (.getsample off) s = .next { s with opState := .entry, opPolled := false, opRead := none, opEvent := none } ∧
    exec (.getsamples count off) s = .next { s with opState := .entry, opPolled := false, opRead := none, opEvent := none }

/-- 40_sample_reader.md R122, 60_exceptions.md R218, for every read `i` (GETSAMPLE, GETSAMPLES, SYNC) and its threshold: the entry
look, the two looks of a poll iteration (availability first, whatever `RUNNING` is; `RUNNING` only where it found too few samples)
and the post-wait look. Nothing else changes. Where a look at `RUNNING` sees 0, `CancelledReadWritesNothingElse` says what happens. -/
def Obligations.ReadPassesAvailabilityWait : Prop :=
  ∀ (i : Instr) (s : State), i.isRead = true →
    (s.opState = .entry → s.running = true → exec i s = .next { s with opState := .wait, opPolled := false }) ∧
    (s.opState = .wait → s.opPolled = false → threshold i s ≤ s.dev.length →
      exec i s = .next { s with opState := .post }) ∧
    (s.opState = .wait → s.opPolled = false → s.dev.length < threshold i s →
      exec i s = .next { s with opPolled := true }) ∧
    (s.opState = .wait → s.opPolled = true → s.running = true → exec i s = .next { s with opPolled := false }) ∧
    (s.opState = .post → s.running = true → exec i s = .next { s with opState := .run, opRead := none })

/-- 60_exceptions.md R211: a look at `RUNNING` that sees 0 (at entry, in a poll iteration, after the wait) ends the read: the
response is `ST_CANCELLED` with a zero payload, `SY_STATE` becomes SY_IDLE if it is a SYNC, and nothing else is written. -/
def Obligations.CancelledReadWritesNothingElse : Prop :=
  ∀ (i : Instr) (s : State), i.isRead = true → s.running = false →
    (s.opState = .entry ∨ (s.opState = .wait ∧ s.opPolled = true) ∨ s.opState = .post) →
    exec i s = .next { s with
      opState := .idle, opPolled := false, opRead := none, opEvent := none
      syState := if i.opc = 0x03#8 then .idle else s.syState
      out := s.out ++ [.rsp .P (responseWord i.opc .cancelled 0#32 0#32)] }

/-- 60_exceptions.md R218, 70_reset_and_hazards.md R243: while `RUNNING` is 0 a read that is accepted is cancelled by its entry
check, whatever the device holds: two turns of `P` take it from its command word to its response, and nothing is popped. -/
def Obligations.ReadCancelledAtEntry : Prop :=
  ∀ (i : Instr) (d : PopAnswer) (rest : List Word96) (s : State),
    i.isRead = true → s.opState = .idle → s.running = false → s.cmdP = encode i :: rest →
    ∃ t, procRun d 2 s = .next t ∧ t.opState = .idle ∧ t.cmdP = rest ∧
      t.out = s.out ++ [.rsp .P (responseWord i.opc .cancelled 0#32 0#32)] ∧
      t.dev = s.dev ∧ t.phase = s.phase ∧ t.level = s.level ∧ t.corr = s.corr ∧ t.scount = s.scount ∧
      t.dispCur = s.dispCur ∧ t.running = s.running ∧ t.dumpActive = s.dumpActive ∧
      t.dumpTarget = s.dumpTarget ∧ t.dumpIdx = s.dumpIdx ∧ t.dispBuf = s.dispBuf ∧ t.dumpBuf = s.dumpBuf ∧
      t.env = s.env

/-- 40_sample_reader.md R123: a read in its wait with `RUNNING` 1 and too few samples is held: however many poll iterations `P` makes,
nothing of the state changes but the account of turns. -/
def Obligations.HeldReadStaysHeld : Prop :=
  ∀ (i : Instr) (d : PopAnswer) (k : Nat) (s : State),
    decode .P s.opCmd = .ok i → i.isRead = true → s.opState = .wait → s.opPolled = false → s.running = true →
    s.dev.length < threshold i s →
    procRun d (2 * (k + 1)) s = .next { s with sched := [], turns := s.turns + 2 * (k + 1), draw := d }

/-- 70_reset_and_hazards.md R257, 40_sample_reader.md R122, R123: once `RUNNING` is 0, a read in its wait is cancelled within two
turns of `P` (one poll iteration), and consumes nothing. And under weak fairness of `P`, whatever the other agents do in
between but a SETRUN 1 or a hardware reset, every read in ENTRY, WAIT or POST is cancelled in the end, and consumes nothing. -/
def Obligations.WaitingReadCancelsWithinOnePoll : Prop :=
  (∀ (i : Instr) (d : PopAnswer) (s : State),
    decode .P s.opCmd = .ok i → i.isRead = true → s.opState = .wait → s.running = false →
    ∃ k t, k ≤ 2 ∧ procRun d k s = .next t ∧ t.opState = .idle ∧ t.dev = s.dev ∧
      t.out = s.out ++ [.rsp .P (responseWord i.opc .cancelled 0#32 0#32)]) ∧
  ∀ (i : Instr) (ts : Nat → Turn) (s : State),
    decode .P s.opCmd = .ok i → i.isRead = true → s.opState = .entry ∨ s.opState = .wait ∨ s.opState = .post →
    s.running = false → (∀ w ∈ s.cmdC, decode .C w ≠ .ok (.setrun true)) → (∀ n, ts n ≠ .hwReset) → FairToP ts →
    ∃ n t xs, schedRun ts n s = .next t ∧ t.opState = .idle ∧ t.dev = s.dev ++ xs ∧
      t.out.getLast? = some (.rsp .P (responseWord i.opc .cancelled 0#32 0#32))

/-! ### The device read -/

/-- 20_memory.md R61: how many samples a `DEV_POP(n)` returns: at most `n`, at most what is there, exactly one for `n = 1` on a
FIFO that is not empty, and for every other `n` any count within the bounds is one the device can draw. -/
def Obligations.PopCountWithinBounds : Prop :=
  ∀ n avail : Nat,
    (∀ draw, popCount n avail draw ≤ n ∧ popCount n avail draw ≤ avail) ∧
    (∀ draw, n = 1 → 1 ≤ avail → popCount n avail draw = 1) ∧
    (∀ m, n ≠ 1 → m ≤ n → m ≤ avail → ∃ draw, popCount n avail draw = m)

/-- 40_sample_reader.md R124, R125, R126: the device read of a command in RUN takes the `m` oldest samples and changes nothing else but
what `P` emits next, `GAIN(agc, m)`; `n` is 1 for GETSAMPLE and SYNC and `count` for GETSAMPLES. In its next step `P` emits that
event. That the pop and the event are two steps is the model's (log entry 14). -/
def Obligations.DeviceReadTakesOldest : Prop :=
  (∀ (i : Instr) (s : State) (n : Nat), s.opState = .run → s.opRead = none → s.opEvent = none →
    ((∃ off, i = .getsample off) ∧ n = 1 ∨ (∃ a b, i = .sync a b) ∧ n = 1 ∨
      ∃ count off, i = .getsamples count off ∧ n = count.toNat) →
    exec i s = .next { s with
      dev := s.dev.drop (popCount n s.dev.length s.draw.count)
      opRead := some ⟨popCount n s.dev.length s.draw.count, s.dev.take (popCount n s.dev.length s.draw.count)⟩
      opEvent := some (.gain s.draw.agc (popCount n s.dev.length s.draw.count)) }) ∧
  ∀ (i : Instr) (s : State) (e : Event), i.isRead = true → s.opState = .run → s.opEvent = some e →
    exec i s = .next { s with opEvent := none, out := s.out ++ [e] }

/-! ### The per-sample pipeline -/

/-- 40_sample_reader.md R132: after one sample the phase is `emod(PHASE - off, INPUT_RATE)`, never negative, below the rate, and
`CORR` is `off`. -/
def Obligations.PhaseMovesBackByOffset : Prop :=
  ∀ (s : State) (raw : Cplx) (off : Word32),
    (s.afterSample raw off).phase.toInt = (s.phase.toInt - off.toInt) % (s.cfg.inputRate : Int) ∧
    0 ≤ (s.afterSample raw off).phase.toInt ∧
    (s.afterSample raw off).phase.toInt < (s.cfg.inputRate : Int) ∧
    (s.afterSample raw off).corr = off

/-- 40_sample_reader.md R133, 00_scope.md R11: the corrected sample is the raw one times the table entry at the phase just
written: four products, one difference, one sum. -/
def Obligations.CorrectedSampleUsesNewPhase : Prop :=
  ∀ (s : State) (raw e : Cplx) (off : Word32),
    e = Osc.entry s.cfg.inputRate (s.afterSample raw off).phase.toNat →
    s.corrected raw off =
      ⟨NUM.sub (NUM.mul raw.re e.re) (NUM.mul raw.im e.im), NUM.add (NUM.mul raw.re e.im) (NUM.mul raw.im e.re)⟩

/-- 40_sample_reader.md R134: the level after one sample, from the magnitude of the corrected sample; and the two candidates of
00_scope.md R13 for that magnitude. -/
def Obligations.LevelIsSmoothedMagnitude : Prop :=
  ∀ (s : State) (raw : Cplx) (off : Word32),
    (s.afterSample raw off).level =
      NUM.add (NUM.mul s.cfg.alpha (s.cfg.MAG (s.corrected raw off)))
        (NUM.mul (NUM.sub 0x3F800000#32 s.cfg.alpha) s.level) ∧
    (∀ z : Cplx, s.cfg.mag = .l1 → s.cfg.MAG z = NUM.add (NUM.abs z.re) (NUM.abs z.im)) ∧
    ∀ (z : Cplx) (mx mn : F32), s.cfg.mag = .maxMin →
      (mx, mn) = (if NUM.ge (NUM.abs z.re) (NUM.abs z.im) = true then (NUM.abs z.re, NUM.abs z.im)
        else (NUM.abs z.im, NUM.abs z.re)) →
      s.cfg.MAG z = NUM.add mx (NUM.mul 0x3F000000#32 mn)

/-- 40_sample_reader.md R128 to R130: while dumping, the scaled raw sample is written at `DUMP_IDX` and the index advances, or
returns to 0 when the buffer is full; while not dumping nothing of the dump state changes. -/
def Obligations.RawSampleAppendedWhileDumping : Prop :=
  ∀ (s : State) (raw : Cplx) (off : Word32),
    (s.dumpActive = false →
      (s.afterSample raw off).dumpBuf = s.dumpBuf ∧ (s.afterSample raw off).dumpIdx = s.dumpIdx) ∧
    (s.dumpActive = true →
      (s.afterSample raw off).dumpBuf.read s.dumpIdx =
        some ⟨NUM.toI16 (NUM.mul raw.re (NUM.ofInt (2 ^ (s.cfg.devBits - 1)))),
              NUM.toI16 (NUM.mul raw.im (NUM.ofInt (2 ^ (s.cfg.devBits - 1))))⟩ ∧
      (∀ k, k ≠ s.dumpIdx → (s.afterSample raw off).dumpBuf.read k = s.dumpBuf.read k) ∧
      (s.afterSample raw off).dumpIdx =
        if s.dumpIdx + 1 = s.cfg.dumpBlockFrames then 0 else s.dumpIdx + 1)

/-- 40_sample_reader.md R131, R135: the counters after one sample. The raw sample is stored while the window has room; the period
counter wraps at `PERIOD` and then clears the cursor. The premise is part of the invariant (`StepKeepsInvariant`). -/
def Obligations.WindowAndPeriodCountSamples : Prop :=
  ∀ (s : State) (raw : Cplx) (off : Word32),
    s.dispCur.toNat ≤ s.scount.toNat → s.scount.toNat < s.cfg.period →
    (s.dispCur.toNat < s.cfg.displayWindow →
      (s.afterSample raw off).dispBuf.read s.dispCur.toNat = some raw ∧
      ∀ k, k ≠ s.dispCur.toNat → (s.afterSample raw off).dispBuf.read k = s.dispBuf.read k) ∧
    (s.cfg.displayWindow ≤ s.dispCur.toNat → (s.afterSample raw off).dispBuf = s.dispBuf) ∧
    (s.scount.toNat + 1 < s.cfg.period →
      (s.afterSample raw off).scount.toNat = s.scount.toNat + 1 ∧
      (s.afterSample raw off).dispCur.toNat =
        if s.dispCur.toNat < s.cfg.displayWindow then s.dispCur.toNat + 1 else s.dispCur.toNat) ∧
    (s.cfg.period ≤ s.scount.toNat + 1 →
      (s.afterSample raw off).scount = 0#32 ∧ (s.afterSample raw off).dispCur = 0#32)

/-- 40_sample_reader.md R130, R135: the events of one sample, in order: the full dump block, then NOTE with the new `CORR` and `LEVEL`,
then SPEC with the window as step 4 left it. -/
def Obligations.SampleEventsInOrder : Prop :=
  ∀ (s : State) (raw : Cplx) (off : Word32),
    s.dispCur.toNat ≤ s.scount.toNat → s.scount.toNat < s.cfg.period →
    (s.afterSample raw off).out = s.out ++
      (if s.dumpActive = true ∧ s.dumpIdx + 1 = s.cfg.dumpBlockFrames then
        [.dump s.dumpTarget ((s.afterSample raw off).dumpBuf.firstN Config.freeFrame s.cfg.dumpBlockFrames)] else []) ++
      (if s.cfg.period ≤ s.scount.toNat + 1 then
        .note off (s.afterSample raw off).level ::
          (if s.cfg.specAttached = true then
            [.spec ((s.afterSample raw off).dispBuf.firstN Config.freeDisp
              (if s.dispCur.toNat < s.cfg.displayWindow then s.dispCur.toNat + 1 else s.dispCur.toNat))] else [])
      else [])

/-- The frame of one sample (10_state.md R37): `ProcessSample` writes the datapath registers, the dump index and the two buffers,
emits events, and leaves every other piece of state as it was. -/
def Obligations.SampleLeavesOtherState : Prop :=
  ∀ (s t : State) (raw : Cplx) (off : Word32), t = s.afterSample raw off →
    t = { s with
      phase := t.phase, level := t.level, corr := t.corr, scount := t.scount, dispCur := t.dispCur
      dumpIdx := t.dumpIdx, dispBuf := t.dispBuf, dumpBuf := t.dumpBuf, out := t.out }

/-- 40_sample_reader.md R129: `NUM.toI16` of a finite value rounds toward zero and saturates to 16 bits. A finite value is
`intUnits v / 2^149`. -/
def Obligations.ToI16TruncatesAndSaturates : Prop :=
  ∀ v : F32, NUM.isFinite v = true →
    (NUM.toI16 v).toInt = max (-32768) (min 32767 (Int.tdiv (NUM.intUnits v) (2 ^ 149)))

/-- 20_memory.md R51, R52: the exact entries of the oscillator table; and every other entry the model's enclosure decides (log
entry 5) is the cosine and the sine of its angle, each within half a unit in the last place of it (a relative 2^-24) and a
relative 2^-60. -/
def Obligations.QuarterCycleEntriesExact : Prop :=
  ∀ n : Nat, 1 ≤ n →
    Osc.entry n 0 = ⟨0x3F800000#32, 0x00000000#32⟩ ∧
    (2 ∣ n → Osc.entry n (n / 2) = ⟨0xBF800000#32, 0x00000000#32⟩) ∧
    (4 ∣ n → Osc.entry n (n / 4) = ⟨0x00000000#32, 0x3F800000#32⟩ ∧
      Osc.entry n (3 * n / 4) = ⟨0x00000000#32, 0xBF800000#32⟩) ∧
    (n ≤ 2147483647 → ∀ k, k < n →
      (Osc.quarter n (4 * k % n)).1.isSome = true → (Osc.quarter n (4 * k % n)).2.isSome = true →
      |(NUM.intUnits (Osc.entry n k).re : ℝ) / 2 ^ 149 - Real.cos (2 * Real.pi * k / n)| ≤
        (1 / 2 ^ 24 + 1 / 2 ^ 60) * |Real.cos (2 * Real.pi * k / n)| ∧
      |(NUM.intUnits (Osc.entry n k).im : ℝ) / 2 ^ 149 - Real.sin (2 * Real.pi * k / n)| ≤
        (1 / 2 ^ 24 + 1 / 2 ^ 60) * |Real.sin (2 * Real.pi * k / n)|)

/-- 00_scope.md R12 ("each operation rounded once", to nearest): a finite sum of two finite scalars is as near the exact sum as any
finite scalar. Values are in units of 2^-149. -/
def Obligations.SumRoundedToNearest : Prop :=
  ∀ a b c : F32, NUM.isFinite a = true → NUM.isFinite b = true → NUM.isFinite c = true →
    NUM.isFinite (NUM.add a b) = true →
    |NUM.intUnits (NUM.add a b) - (NUM.intUnits a + NUM.intUnits b)| ≤
      |NUM.intUnits c - (NUM.intUnits a + NUM.intUnits b)|

/-- 00_scope.md R12: a finite product of two finite scalars is as near the exact product as any finite scalar. Values are in units
of 2^-149, so the exact product is in units of 2^-298. -/
def Obligations.ProductRoundedToNearest : Prop :=
  ∀ a b c : F32, NUM.isFinite a = true → NUM.isFinite b = true → NUM.isFinite c = true →
    NUM.isFinite (NUM.mul a b) = true →
    |NUM.intUnits (NUM.mul a b) * 2 ^ 149 - NUM.intUnits a * NUM.intUnits b| ≤
      |NUM.intUnits c * 2 ^ 149 - NUM.intUnits a * NUM.intUnits b|

/-! ### GETSAMPLE and GETSAMPLES -/

/-- 40_sample_reader.md R137: GETSAMPLE, its sample popped, runs the pipeline on it, ends, and answers the corrected sample. The
premise on `DUMP_IDX` is 10_state.md R35. -/
def Obligations.GetsampleAnswersCorrectedSample : Prop :=
  ∀ (off : Word32) (s : State) (m : Nat) (raw : Cplx) (rest : List Cplx),
    s.opState = .run → s.opRead = some ⟨m, raw :: rest⟩ → s.opEvent = none →
    (s.dumpActive = true → s.dumpIdx < s.cfg.dumpBlockFrames) →
    exec (.getsample off) s = .next { s.afterSample raw off with
      opState := .idle, opPolled := false, opRead := none, opEvent := none
      out := (s.afterSample raw off).out ++
        [.rsp .P (responseWord 0x01#8 .ok (s.corrected raw off).re (s.corrected raw off).im)] }

/-- 40_sample_reader.md R138: GETSAMPLES runs the pipeline on the next sample of its batch, with the same offset; what `P` emits
next is the corrected sample on SOUT (`DeviceReadTakesOldest` says that it does). -/
def Obligations.GetsamplesProcessesNextSample : Prop :=
  ∀ (count off : Word32) (s : State) (m : Nat) (raw : Cplx) (rest : List Cplx),
    s.opState = .run → s.opRead = some ⟨m, raw :: rest⟩ → s.opEvent = none →
    (s.dumpActive = true → s.dumpIdx < s.cfg.dumpBlockFrames) →
    exec (.getsamples count off) s = .next { s.afterSample raw off with
      opRead := some ⟨m, rest⟩, opEvent := some (.sout (s.corrected raw off)) }

/-- 40_sample_reader.md R138: GETSAMPLES, its batch processed, ends and answers the actual count `m`. -/
def Obligations.GetsamplesAnswersActualCount : Prop :=
  ∀ (count off : Word32) (s : State) (m : Nat), s.opState = .run → s.opRead = some ⟨m, []⟩ → s.opEvent = none →
    exec (.getsamples count off) s = .next { s with
      opState := .idle, opPolled := false, opRead := none, opEvent := none
      out := s.out ++ [.rsp .P (responseWord 0x02#8 .ok (BitVec.ofNat 32 m) 0#32)] }

/-! ### The words and bytes of the ports -/

/-- 20_memory.md R57, R58, 30_encoding.md R90, R91: the words of a complex sample and of a dump frame; and the bytes of a word
where it is serialised, a layout that is the spec's own choice (92_eei_decisions.md D15). The bytes of a word of whole bytes are as many as its width says, and read with the first byte as the least significant
they are its value. A sample is `re` then `im`, each from its byte 7..0 up; a dump file is `I.lo, I.hi, Q.lo, Q.hi` per frame, in
order. -/
def Obligations.PortWordsAreLittleEndian : Prop :=
  (∀ (c : Cfg) (z : Cplx),
    (sampleWord c z).extractLsb' 0 32 = c.NUM.bits z.re ∧ (sampleWord c z).extractLsb' 32 32 = c.NUM.bits z.im) ∧
  (∀ f : Frame, (frameWord f).extractLsb' 0 16 = f.i ∧ (frameWord f).extractLsb' 16 16 = f.q) ∧
  (∀ (n : Nat) (w : BitVec n), 8 ∣ n →
    (littleEndian w).length = n / 8 ∧ (littleEndian w).foldr (fun b rest => b.toNat + 256 * rest) 0 = w.toNat) ∧
  (∀ (c : Cfg) (z : Cplx), sampleBytes c z =
    [z.re.extractLsb' 0 8, z.re.extractLsb' 8 8, z.re.extractLsb' 16 8, z.re.extractLsb' 24 8,
     z.im.extractLsb' 0 8, z.im.extractLsb' 8 8, z.im.extractLsb' 16 8, z.im.extractLsb' 24 8]) ∧
  (∀ (c : Cfg) (v : F32), scalarBytes c v = littleEndian v) ∧
  (∀ w : Word96, commandBytes w = littleEndian w) ∧
  ∀ frames : List Frame, dumpFileBytes frames =
    frames.flatMap fun f => [f.i.extractLsb' 0 8, f.i.extractLsb' 8 8, f.q.extractLsb' 0 8, f.q.extractLsb' 8 8]

/-! ### Whole reads, and the laws that follow -/

/-- 40_sample_reader.md R137, the whole command: from its command word, with `RUNNING` 1 and `LOW_WATER` samples there, seven turns of
`P` pop the oldest sample, emit its GAIN event, run the pipeline on it and answer the corrected sample. -/
def Obligations.GetsampleRunsToItsAnswer : Prop :=
  ∀ (off : Word32) (d : PopAnswer) (rest : List Word96) (raw : Cplx) (fifo : List Cplx) (s : State),
    s.opState = .idle → s.running = true → s.cmdP = encode (.getsample off) :: rest → s.dev = raw :: fifo →
    s.cfg.lowWater ≤ s.dev.length → (s.dumpActive = true → s.dumpIdx < s.cfg.dumpBlockFrames) →
    ∃ p : State, p = { s with
        cmdP := rest, opCmd := encode (.getsample off), opPolled := false, dev := fifo
        sched := [], turns := s.turns + 7, draw := d, out := s.out ++ [.gain d.agc 1] } ∧
      procRun d 7 s = .next { p.afterSample raw off with
        opState := .idle, opRead := none, opEvent := none
        out := (p.afterSample raw off).out ++
          [.rsp .P (responseWord 0x01#8 .ok (p.corrected raw off).re (p.corrected raw off).im)] }

/-- 40_sample_reader.md R138, the whole command: from its command word, with `RUNNING` 1 and `count` samples there, `2 m + 7` turns
of `P` pop `m` samples, emit GAIN, run the pipeline and SOUT for each in order, and answer `m`. -/
def Obligations.GetsamplesRunsToItsAnswer : Prop :=
  ∀ (count off : Word32) (d : PopAnswer) (rest : List Word96) (m : Nat) (s : State),
    s.opState = .idle → s.running = true → s.cmdP = encode (.getsamples count off) :: rest →
    count.toNat ≤ s.dev.length → (s.dumpActive = true → s.dumpIdx < s.cfg.dumpBlockFrames) →
    m = popCount count.toNat s.dev.length d.count →
    ∃ p q : State, p = { s with
        cmdP := rest, opCmd := encode (.getsamples count off), opPolled := false, dev := s.dev.drop m
        sched := [], turns := s.turns + (2 * m + 7), draw := d, out := s.out ++ [.gain d.agc m] } ∧
      q = feedBatch off (s.dev.take m) p ∧
      procRun d (2 * m + 7) s = .next { q with
        opState := .idle, opRead := none, opEvent := none
        out := q.out ++ [.rsp .P (responseWord 0x02#8 .ok (BitVec.ofNat 32 m) 0#32)] }

/-! ### Laws of the pipeline -/

/-- 40_sample_reader.md R141: after any reads with offsets `off_i` that processed `m_i` samples, the phase is
`emod(P0 - sum of off_i * m_i, INPUT_RATE)`. -/
def Obligations.PhaseFollowsCumulativeOffset : Prop :=
  ∀ (reads : List (Word32 × List Cplx)) (s : State), s.phase.toNat < s.cfg.inputRate →
    (feed (readSamples reads) s).phase.toInt =
      (s.phase.toInt - (reads.map fun r => r.1.toInt * (r.2.length : Int)).sum) % (s.cfg.inputRate : Int)

/-- 40_sample_reader.md R135, 60_exceptions.md R222: from a zero period counter, `k` samples give exactly `k div PERIOD` notifications
and leave the counter at `k mod PERIOD`. -/
def Obligations.NotificationEveryPeriod : Prop :=
  ∀ (l : List (Cplx × Word32)) (s : State), s.scount = 0#32 →
    ∃ es, (feed l s).out = s.out ++ es ∧ noteCount es = l.length / s.cfg.period ∧
      (feed l s).scount.toNat = l.length % s.cfg.period

/-- 41_control.md R165: from a DUMPON to the DUMPOFF after `k` samples, every DUMP event carries that target, their frames are the
scaled raw samples in order, and the blocks are `k div DUMP_BLOCK_FRAMES` full ones and one of the remainder, if any. The law is
the spec's inference [derived: from rules R162, R163, R164 and 40_sample_reader.md rules R128 to R130]. -/
def Obligations.DumpFileHoldsEverySample : Prop :=
  ∀ (target : Word32) (l : List (Cplx × Word32)) (s : State),
    ∃ t u es, exec (.dumpon target) s = .next t ∧ exec .dumpoff (feed l t) = .next u ∧ u.out = t.out ++ es ∧
      (∀ x fs, Event.dump x fs ∈ es → x = target) ∧
      dumpedFrames es = l.map (fun p =>
        ⟨NUM.toI16 (NUM.mul p.1.re (NUM.ofInt (2 ^ (s.cfg.devBits - 1)))),
         NUM.toI16 (NUM.mul p.1.im (NUM.ofInt (2 ^ (s.cfg.devBits - 1))))⟩) ∧
      dumpBlocks es = List.replicate (l.length / s.cfg.dumpBlockFrames) s.cfg.dumpBlockFrames ++
        (if l.length % s.cfg.dumpBlockFrames = 0 then [] else [l.length % s.cfg.dumpBlockFrames])

/-! ### SYNC -/

/-- 42_time_syncer.md R181: the start of an invocation latches the operands, clears the working registers, and begins the first
read. -/
def Obligations.SyncStartsFresh : Prop :=
  ∀ (n f : Word32) (s : State), s.opState = .idle →
    exec (.sync n f) s = .next { s with
      syNull := n, syFrame := f, sySum := 0#32, syIdx := 0, syCnt := 0#33, syState := .prime
      opState := .entry, opPolled := false, opRead := none, opEvent := none }

/-- 42_time_syncer.md R184: a priming sample is processed as GETSAMPLE 0 would, its magnitude is stored at `ENV[SY_CNT]` and added to
the sum; the 50th ends the phase. -/
def Obligations.SyncPrimesWindow : Prop :=
  ∀ (n f : Word32) (s : State) (m : Nat) (raw : Cplx) (rest : List Cplx),
    s.opState = .run → s.opRead = some ⟨m, raw :: rest⟩ → s.opEvent = none → s.syState = .prime → s.syCnt.toNat < 50 →
    (s.dumpActive = true → s.dumpIdx < s.cfg.dumpBlockFrames) →
    exec (.sync n f) s = .next { s.afterSample raw 0#32 with
      opRead := some ⟨m, rest⟩
      env := s.env.write s.syCnt.toNat (s.cfg.MAG (s.corrected raw 0#32))
      sySum := NUM.add s.sySum (s.cfg.MAG (s.corrected raw 0#32))
      syCnt := if s.syCnt.toNat = 49 then 0#33 else BitVec.ofNat 33 (s.syCnt.toNat + 1)
      syIdx := if s.syCnt.toNat = 49 then 0 else s.syIdx
      syState := if s.syCnt.toNat = 49 then .dip else .prime }

/-- 42_time_syncer.md R185, R187: a sample of the dip search slides the window over the oldest entry (a free value should nothing have
written it, log entry 9) and is counted; when the counter exceeds `SY_FRAME` the verdict is NO_DIP_FOUND. -/
def Obligations.SyncDipSearchSample : Prop :=
  ∀ (n f : Word32) (s : State) (m : Nat) (raw : Cplx) (rest : List Cplx) (oldest g sum : F32) (p q : State),
    s.opState = .run → s.opRead = some ⟨m, raw :: rest⟩ → s.opEvent = none → s.syState = .dip →
    oldest = (s.env.read s.syIdx.val).getD (Config.freeEnv s.syIdx.val) → (s.dumpActive = true → s.dumpIdx < s.cfg.dumpBlockFrames) →
    p = s.afterSample raw 0#32 → g = s.cfg.MAG (s.corrected raw 0#32) →
    sum = NUM.add (NUM.sub s.sySum oldest) g →
    q = { p with
      sySum := sum, env := s.env.write s.syIdx.val g, syIdx := s.syIdx + 1
      syCnt := BitVec.ofNat 33 (s.syCnt.toNat + 1) } →
    (s.syCnt.toNat + 1 ≤ s.syFrame.toNat → exec (.sync n f) s = .next { q with opRead := some ⟨m, rest⟩ }) ∧
    (s.syFrame.toNat < s.syCnt.toNat + 1 → exec (.sync n f) s = .next { q with
      opState := .idle, opPolled := false, opRead := none, opEvent := none, syState := .idle
      out := p.out ++ [.rsp .P (responseWord 0x03#8 .noDipFound 0#32 0#32)] })

/-- 42_time_syncer.md R185, R188: a sample of the recovery search slides the window (over a free value should nothing have written
the oldest entry, log entry 9) and is counted; when the counter exceeds `SY_NULL + 50` the verdict is NO_END_OF_DIP_FOUND. -/
def Obligations.SyncRecoverySearchSample : Prop :=
  ∀ (n f : Word32) (s : State) (m : Nat) (raw : Cplx) (rest : List Cplx) (oldest g sum : F32) (p q : State),
    s.opState = .run → s.opRead = some ⟨m, raw :: rest⟩ → s.opEvent = none → s.syState = .recover →
    oldest = (s.env.read s.syIdx.val).getD (Config.freeEnv s.syIdx.val) → (s.dumpActive = true → s.dumpIdx < s.cfg.dumpBlockFrames) →
    p = s.afterSample raw 0#32 → g = s.cfg.MAG (s.corrected raw 0#32) →
    sum = NUM.add (NUM.sub s.sySum oldest) g →
    q = { p with
      sySum := sum, env := s.env.write s.syIdx.val g, syIdx := s.syIdx + 1
      syCnt := BitVec.ofNat 33 (s.syCnt.toNat + 1) } →
    (s.syCnt.toNat + 1 ≤ s.syNull.toNat + 50 → exec (.sync n f) s = .next { q with opRead := some ⟨m, rest⟩ }) ∧
    (s.syNull.toNat + 50 < s.syCnt.toNat + 1 → exec (.sync n f) s = .next { q with
      opState := .idle, opPolled := false, opRead := none, opEvent := none, syState := .idle
      out := p.out ++ [.rsp .P (responseWord 0x03#8 .noEndOfDipFound 0#32 0#32)] })

/-- 42_time_syncer.md R186, R180: the two comparisons, against the live level, and what they say where both sides are finite: true
strictly above the threshold, false at it and below it. The reading of the equality case is the spec's own choice among what
the prose allows (92_eei_decisions.md D22). -/
def Obligations.ThresholdComparisonsStrict : Prop :=
  ∀ (s : State) (avg dip rec : F32),
    avg = NUM.div s.sySum (NUM.ofInt 50) → dip = NUM.mul (NUM.ofDec 55 100) s.level →
    rec = NUM.mul (NUM.ofDec 75 100) s.level →
    s.aboveDip = NUM.gt avg dip ∧ s.aboveRec = NUM.gt avg rec ∧
    (NUM.isFinite avg = true → NUM.isFinite dip = true →
      (NUM.intUnits dip < NUM.intUnits avg → s.aboveDip = true) ∧
      (NUM.intUnits avg = NUM.intUnits dip → s.aboveDip = false) ∧
      (NUM.intUnits avg < NUM.intUnits dip → s.aboveDip = false)) ∧
    (NUM.isFinite avg = true → NUM.isFinite rec = true →
      (NUM.intUnits rec < NUM.intUnits avg → s.aboveRec = true) ∧
      (NUM.intUnits avg = NUM.intUnits rec → s.aboveRec = false) ∧
      (NUM.intUnits avg < NUM.intUnits rec → s.aboveRec = false))

/-- 42_time_syncer.md R184, R187, R188, R189: the loop test between two reads, in each phase. -/
def Obligations.SyncLoopTests : Prop :=
  ∀ (n f : Word32) (s : State) (m : Nat), s.opState = .run → s.opRead = some ⟨m + 1, []⟩ → s.opEvent = none →
    (s.syState = .prime → exec (.sync n f) s = .next { s with opState := .entry, opPolled := false, opRead := none, opEvent := none }) ∧
    (s.syState = .dip → s.aboveDip = true →
      exec (.sync n f) s = .next { s with opState := .entry, opPolled := false, opRead := none, opEvent := none }) ∧
    (s.syState = .dip → s.aboveDip = false → exec (.sync n f) s = .next { s with syCnt := 0#33, syState := .recover }) ∧
    (s.syState = .recover → s.aboveRec = false →
      exec (.sync n f) s = .next { s with opState := .entry, opPolled := false, opRead := none, opEvent := none }) ∧
    (s.syState = .recover → s.aboveRec = true → exec (.sync n f) s = .next { s with
      opState := .idle, opPolled := false, opRead := none, opEvent := none, syState := .idle
      out := s.out ++ [.rsp .P (responseWord 0x03#8 .established 0#32 0#32)] })

/-- 42_time_syncer.md R193: with `RUNNING` 1 and enough samples in the FIFO, a SYNC ends with one of its three verdicts, and
consumes exactly the samples the rule counts. -/
def Obligations.SyncEndsWithVerdictAndCount : Prop :=
  ∀ (n f : Word32) (d : PopAnswer) (rest : List Word96) (s : State),
    Inv s → s.opState = .idle → s.running = true → s.cmdP = encode (.sync n f) :: rest →
    s.cfg.lowWater + (f.toNat + n.toNat + 102) ≤ s.dev.length →
    ∃ k t used st, procRun d k s = .next t ∧ t.opState = .idle ∧ t.syState = .idle ∧ t.cmdP = rest ∧
      t.dev = s.dev.drop used ∧ t.phase = s.phase ∧
      t.out.getLast? = some (.rsp .P (responseWord 0x03#8 st 0#32 0#32)) ∧
      ((st = .noDipFound ∧ used = 50 + f.toNat + 1) ∨
       (st = .noEndOfDipFound ∧ ∃ dip, dip ≤ f.toNat ∧ used = 50 + dip + n.toNat + 51) ∨
       (st = .established ∧ ∃ dip rec, dip ≤ f.toNat ∧ rec ≤ n.toNat + 50 ∧ used = 50 + dip + rec))

/-! ### The machine -/

/-- 20_memory.md R70, 10_state.md R24: a turn of `P` with no command in flight accepts the next word of `CMD_P`, latches it, and
the step is the meaning of the command it decodes to. -/
def Obligations.StepRunsAcceptedCommand : Prop :=
  ∀ (s : State) (d : PopAnswer) (turns : List Turn) (w : Word96) (rest : List Word96) (i : Instr),
    s.sched = .proc d :: turns → s.opState = .idle → s.cmdP = w :: rest → decode .P w = .ok i →
    step s = exec i { s with sched := turns, turns := s.turns + 1, draw := d, cmdP := rest, opCmd := w }

/-- 10_state.md R24: a turn of `P` in the middle of a command is a step of the command that `OP_CMD` holds, a read or a RESET
between its two steps (log entry 26). -/
def Obligations.StepResumesLatchedRead : Prop :=
  ∀ (s : State) (d : PopAnswer) (turns : List Turn) (i : Instr),
    s.sched = .proc d :: turns → s.opState ≠ .idle → decode .P s.opCmd = .ok i → i.isRead = true ∨ i = .reset →
    step s = exec i { s with sched := turns, turns := s.turns + 1, draw := d }

/-- 41_control.md R160, 20_memory.md R70: a turn of `C` executes the next word of `CMD_C` whole, whatever `P` is doing. -/
def Obligations.StepRunsControlCommand : Prop :=
  ∀ (s : State) (turns : List Turn) (w : Word96) (rest : List Word96) (i : Instr),
    s.sched = .ctrl :: turns → s.cmdC = w :: rest → decode .C w = .ok i →
    step s = exec i { s with sched := turns, turns := s.turns + 1, cmdC := rest }

/-- 30_encoding.md R96, 60_exceptions.md R214: an illegal word is answered `ST_ILLEGAL` with its own opcode byte on the port it
arrived on, whatever `RUNNING` is, and has no other effect. -/
def Obligations.IllegalWordAnswered : Prop :=
  ∀ (s : State) (d : PopAnswer) (turns : List Turn) (w : Word96) (rest : List Word96) (why : IllegalWord),
    (s.sched = .proc d :: turns → s.opState = .idle → s.cmdP = w :: rest → decode .P w = .illegal why →
      step s = .next { s with
        sched := turns, turns := s.turns + 1, draw := d, cmdP := rest
        out := s.out ++ [.rsp .P (responseWord (w.extractLsb' 0 8) .illegal 0#32 0#32)] }) ∧
    (s.sched = .ctrl :: turns → s.cmdC = w :: rest → decode .C w = .illegal why →
      step s = .next { s with
        sched := turns, turns := s.turns + 1, cmdC := rest
        out := s.out ++ [.rsp .C (responseWord (w.extractLsb' 0 8) .illegal 0#32 0#32)] })

/-- 70_reset_and_hazards.md R240, 93_implementation_defined.md U17: hardware reset puts every register to its reset value, abandons
the command in flight without a response, and leaves what is outside the block. -/
def Obligations.HardwareResetRestoresEverything : Prop :=
  ∀ (s : State) (turns : List Turn), s.sched = .hwReset :: turns →
    step s = .next { State.resetWith s.cfg with
      dev := s.dev, cmdP := s.cmdP, cmdC := s.cmdC, sched := turns, turns := s.turns + 1, draw := s.draw, out := s.out }

/-- 10_state.md R36: the reset state, in every configuration: the values the rule's table gives after hardware reset. -/
def Obligations.ResetStateValues : Prop :=
  ∀ c : Cfg, (State.resetWith c).cfg = c ∧
    (State.resetWith c).phase = 0#32 ∧ (State.resetWith c).level = NUM.zero ∧ (State.resetWith c).corr = 0#32 ∧
    (State.resetWith c).scount = 0#32 ∧ (State.resetWith c).dispCur = 0#32 ∧ (State.resetWith c).running = false ∧
    (State.resetWith c).dumpActive = false ∧ (State.resetWith c).dumpTarget = 0#32 ∧
    (State.resetWith c).dumpIdx = 0 ∧ (State.resetWith c).opState = .idle ∧ (State.resetWith c).syState = .idle ∧
    (State.resetWith c).syIdx = 0 ∧ (State.resetWith c).syCnt = 0#33 ∧ (State.resetWith c).syNull = 0#32 ∧
    (State.resetWith c).syFrame = 0#32 ∧ (State.resetWith c).sySum = NUM.zero ∧
    State.reset = State.resetWith Cfg.default

/-- 10_state.md R35: the invariant holds after reset, in every configuration. -/
def Obligations.InvariantHoldsAtReset : Prop := ∀ c : Cfg, Inv (State.resetWith c)

/-- 10_state.md R35: every step keeps the invariant, from every state that has it, whatever turn comes and whatever the device
answers. -/
def Obligations.StepKeepsInvariant : Prop :=
  ∀ s t : State, Inv s → step s = .next t → Inv t

/-- 60_exceptions.md R210 ("No other error classes exist in this core"): from a state with the invariant, no step stops the
machine: every step has a next state. -/
def Obligations.SoundStateNeverStops : Prop :=
  ∀ s : State, Inv s → ∃ t, step s = .next t

/-- 10_state.md R34: no step changes the configuration. -/
def Obligations.StepKeepsConfiguration : Prop :=
  ∀ s t : State, step s = .next t → t.cfg = s.cfg

/-- 10_state.md R27: `RUNNING` changes only by a SETRUN on the control port or by hardware reset. -/
def Obligations.OnlySetrunChangesRunning : Prop :=
  ∀ s t : State, step s = .next t → t.running ≠ s.running →
    s.nextTurn = .hwReset ∨
    (s.nextTurn = .ctrl ∧ ∃ w rest, s.cmdC = w :: rest ∧ decode .C w = .ok (.setrun t.running))

/-- 10_state.md R37, 60_exceptions.md R221: a turn of `C` never changes the datapath registers, the synchroniser, the
sequencing of `P`, the buffers' contents, the device FIFO or the words waiting on `CMD_P`. -/
def Obligations.ControlTurnLeavesDatapath : Prop :=
  ∀ s t : State, s.nextTurn = .ctrl → step s = .next t →
    t.phase = s.phase ∧ t.level = s.level ∧ t.corr = s.corr ∧ t.scount = s.scount ∧ t.dispCur = s.dispCur ∧
    t.opState = s.opState ∧ t.opCmd = s.opCmd ∧ t.opPolled = s.opPolled ∧ t.opRead = s.opRead ∧ t.opEvent = s.opEvent ∧
    t.syState = s.syState ∧ t.syIdx = s.syIdx ∧ t.syCnt = s.syCnt ∧ t.sySum = s.sySum ∧ t.syNull = s.syNull ∧
    t.syFrame = s.syFrame ∧ t.env = s.env ∧ t.dispBuf = s.dispBuf ∧ t.dumpBuf = s.dumpBuf ∧ t.dev = s.dev ∧
    t.cmdP = s.cmdP

/-- 20_memory.md R60 to R62 (a), R64, R75 (a): a turn of the device appends its samples at the tail of the FIFO and changes nothing
else but the account of turns; no other turn adds a sample; and samples leave it, from its head, only in a turn of `P` whose
read is in RUN before its `DEV_POP`. -/
def Obligations.FifoKeepsArrivalOrder : Prop :=
  ∀ s : State,
    (∀ xs, s.nextTurn = .dev xs →
      step s = .next { s with sched := s.sched.tail, turns := s.turns + 1, dev := s.dev ++ xs }) ∧
    ∀ (t : State) (pops : Prop), step s = .next t → (∀ xs, s.nextTurn ≠ .dev xs) →
      (pops ↔ (∃ d, s.nextTurn = .proc d) ∧ s.opState = .run ∧ s.opRead = none ∧ s.opEvent = none ∧
        ∃ i, decode .P s.opCmd = .ok i ∧ i.isRead = true) →
      (pops → ∃ n, t.dev = s.dev.drop n) ∧ (¬ pops → t.dev = s.dev)

/-- 20_memory.md R67, R79: what the ports have sent is never taken back or reordered: every step only adds to it. -/
def Obligations.OutputsOnlyGrow : Prop :=
  ∀ s t : State, step s = .next t → ∃ es, t.out = s.out ++ es
end

