-- ==== Sys2Proof/Laws/Decode.lean ====
section
/-! SUPPORT. What the decoder can answer, said once. -/

namespace Sys2Proof

theorem decodeRow_ok {p b : Bool} {i j : Instr} (h : decodeRow p b i = .ok j) : p = true ∧ b = true ∧ j = i := by
  cases p <;> cases b <;> simp_all [decodeRow]

/-- An accepted word has a zero reserved field, and is one of eight rows: its opcode, its port and bit conditions, and the
command with its operands. -/
theorem decode_ok_cases {p : Port} {w : Word96} {i : Instr} (h : decode p w = .ok i) :
    rsvField w = 0#24 ∧
    ((opcField w = 0x01#8 ∧ p = .P ∧ bField w = 0#32 ∧ i = .getsample (aField w)) ∨
     (opcField w = 0x02#8 ∧ p = .P ∧ i = .getsamples (bField w) (aField w)) ∨
     (opcField w = 0x03#8 ∧ p = .P ∧ i = .sync (aField w) (bField w)) ∨
     (opcField w = 0x04#8 ∧ p = .P ∧ aField w = 0#32 ∧ bField w = 0#32 ∧ i = .reset) ∨
     (opcField w = 0x08#8 ∧ aField w = 0#32 ∧ bField w = 0#32 ∧ i = .getlevel p) ∨
     (opcField w = 0x10#8 ∧ p = .C ∧ (aField w).extractLsb' 1 31 = 0#31 ∧ bField w = 0#32 ∧
        i = .setrun ((aField w).getLsbD 0)) ∨
     (opcField w = 0x11#8 ∧ p = .C ∧ bField w = 0#32 ∧ i = .dumpon (aField w)) ∨
     (opcField w = 0x12#8 ∧ p = .C ∧ aField w = 0#32 ∧ bField w = 0#32 ∧ i = .dumpoff)) := by
  unfold decode at h
  generalize opcField w = o at *
  generalize aField w = a at *
  generalize bField w = b at *
  generalize rsvField w = r at *
  dsimp only at h
  by_cases hr : r = 0#24
  · rw [if_neg (by simpa using hr)] at h
    refine ⟨hr, ?_⟩
    split at h
    · obtain ⟨h1, h2, h3⟩ := decodeRow_ok h
      exact .inl ⟨by assumption, by simpa using h1, by simpa using h2, h3⟩
    split at h
    · obtain ⟨h1, -, h3⟩ := decodeRow_ok h
      exact .inr (.inl ⟨by assumption, by simpa using h1, h3⟩)
    split at h
    · obtain ⟨h1, -, h3⟩ := decodeRow_ok h
      exact .inr (.inr (.inl ⟨by assumption, by simpa using h1, h3⟩))
    split at h
    · obtain ⟨h1, h2, h3⟩ := decodeRow_ok h
      rw [Bool.and_eq_true, beq_iff_eq, beq_iff_eq] at h2
      exact .inr (.inr (.inr (.inl ⟨by assumption, by simpa using h1, h2.1, h2.2, h3⟩)))
    split at h
    · obtain ⟨-, h2, h3⟩ := decodeRow_ok h
      rw [Bool.and_eq_true, beq_iff_eq, beq_iff_eq] at h2
      exact .inr (.inr (.inr (.inr (.inl ⟨by assumption, h2.1, h2.2, h3⟩))))
    split at h
    · obtain ⟨h1, h2, h3⟩ := decodeRow_ok h
      rw [Bool.and_eq_true, beq_iff_eq, beq_iff_eq] at h2
      exact .inr (.inr (.inr (.inr (.inr (.inl ⟨by assumption, by simpa using h1, h2.1, h2.2, h3⟩)))))
    split at h
    · obtain ⟨h1, h2, h3⟩ := decodeRow_ok h
      exact .inr (.inr (.inr (.inr (.inr (.inr (.inl ⟨by assumption, by simpa using h1, by simpa using h2, h3⟩))))))
    split at h
    · obtain ⟨h1, h2, h3⟩ := decodeRow_ok h
      rw [Bool.and_eq_true, beq_iff_eq, beq_iff_eq] at h2
      exact .inr (.inr (.inr (.inr (.inr (.inr (.inr ⟨by assumption, by simpa using h1, h2.1, h2.2, h3⟩))))))
    · exact absurd h (by simp)
  · rw [if_pos hr] at h
    exact absurd h (by simp)

/-- The reads are the three commands whose meaning has more than one step. -/
theorem decode_P_cases {w : Word96} {i : Instr} (h : decode .P w = .ok i) :
    i.isRead = true ∨ i = .reset ∨ i = .getlevel .P := by
  obtain ⟨-, h⟩ := decode_ok_cases h
  rcases h with h | h | h | h | h | h | h | h
  · exact .inl (by rw [h.2.2.2]; rfl)
  · exact .inl (by rw [h.2.2]; rfl)
  · exact .inl (by rw [h.2.2]; rfl)
  · exact .inr (.inl h.2.2.2.2)
  · exact .inr (.inr h.2.2.2)
  · exact absurd h.2.1 (by simp)
  · exact absurd h.2.1 (by simp)
  · exact absurd h.2.1 (by simp)

/-- The control port runs four commands, none of them a read. -/
theorem decode_C_cases {w : Word96} {i : Instr} (h : decode .C w = .ok i) :
    (∃ b, i = .setrun b) ∨ (∃ t, i = .dumpon t) ∨ i = .dumpoff ∨ i = .getlevel .C := by
  obtain ⟨-, h⟩ := decode_ok_cases h
  rcases h with h | h | h | h | h | h | h | h
  · exact absurd h.2.1 (by simp)
  · exact absurd h.2.1 (by simp)
  · exact absurd h.2.1 (by simp)
  · exact absurd h.2.1 (by simp)
  · exact .inr (.inr (.inr h.2.2.2))
  · exact .inl ⟨_, h.2.2.2.2⟩
  · exact .inr (.inl ⟨_, h.2.2.2⟩)
  · exact .inr (.inr (.inl h.2.2.2.2))

/-! ### The four fields of a command word (30_encoding.md R90) -/

/-- The word with given `B`, `A`, `RSV` and `OPC`. -/
def fieldWord (b a : Word32) (r : BitVec 24) (o : BitVec 8) : Word96 := b ++ a ++ r ++ o

theorem commandWord_eq_fieldWord (b a : Word32) (o : BitVec 8) : commandWord b a o = fieldWord b a 0#24 o := rfl

theorem fieldWord_getLsbD (b a : Word32) (r : BitVec 24) (o : BitVec 8) (i : Nat) :
    (fieldWord b a r o).getLsbD i =
      if i < 8 then o.getLsbD i else if i < 32 then r.getLsbD (i - 8)
      else if i < 64 then a.getLsbD (i - 32) else b.getLsbD (i - 64) := by
  have h := BitVec.getLsbD_append (x := b ++ a ++ r) (y := o) (i := i)
  have h2 := BitVec.getLsbD_append (x := b ++ a) (y := r) (i := i - 8)
  have h3 := BitVec.getLsbD_append (x := b) (y := a) (i := i - 8 - 24)
  unfold fieldWord
  refine Eq.trans h ?_
  rw [h2, h3, show i - 8 - 24 = i - 32 by omega, show i - 32 - 32 = i - 64 by omega]
  repeat' split
  all_goals first | rfl | omega

/-- Each field is what was put into it. -/
theorem fieldWord_fields (b a : Word32) (r : BitVec 24) (o : BitVec 8) :
    opcField (fieldWord b a r o) = o ∧ rsvField (fieldWord b a r o) = r ∧
    aField (fieldWord b a r o) = a ∧ bField (fieldWord b a r o) = b := by
  refine ⟨?_, ?_, ?_, ?_⟩ <;> apply BitVec.eq_of_getLsbD_eq <;> intro i hi <;>
    simp only [opcField, rsvField, aField, bField, BitVec.getLsbD_extractLsb', fieldWord_getLsbD]
  · simp [hi]
  · simp [hi, show ¬ 8 + i < 8 by omega, show 8 + i < 32 by omega]
  · simp [hi, show ¬ 32 + i < 8 by omega, show 32 + i < 64 by omega]
  · simp [hi, show ¬ 64 + i < 8 by omega, show ¬ 64 + i < 32 by omega]

/-- A word is its four fields. -/
theorem fieldWord_eta (w : Word96) : fieldWord (bField w) (aField w) (rsvField w) (opcField w) = w := by
  apply BitVec.eq_of_getLsbD_eq
  intro i hi
  rw [fieldWord_getLsbD]
  simp only [opcField, aField, bField, rsvField, BitVec.getLsbD_extractLsb']
  by_cases h8 : i < 8
  · simp [h8]
  by_cases h32 : i < 32
  · simp [h8, h32, show i - 8 < 24 by omega, show 8 + (i - 8) = i by omega]
  by_cases h64 : i < 64
  · simp [h8, h32, h64, show i - 32 < 32 by omega, show 32 + (i - 32) = i by omega]
  · simp [h8, h32, h64, show i - 64 < 32 by omega, show 64 + (i - 64) = i by omega]

theorem fieldWord_and (b a b' a' : Word32) (r r' : BitVec 24) (o o' : BitVec 8) :
    fieldWord b a r o &&& fieldWord b' a' r' o' = fieldWord (b &&& b') (a &&& a') (r &&& r') (o &&& o') := by
  apply BitVec.eq_of_getLsbD_eq
  intro i hi
  simp only [BitVec.getLsbD_and, fieldWord_getLsbD]
  repeat' split
  all_goals rfl

theorem fieldWord_inj {b a b' a' : Word32} {r r' : BitVec 24} {o o' : BitVec 8} :
    fieldWord b a r o = fieldWord b' a' r' o' ↔ b = b' ∧ a = a' ∧ r = r' ∧ o = o' := by
  constructor
  · intro h
    have h1 := fieldWord_fields b a r o
    have h2 := fieldWord_fields b' a' r' o'
    rw [h] at h1
    exact ⟨h1.2.2.2.symm.trans h2.2.2.2, h1.2.2.1.symm.trans h2.2.2.1, h1.2.1.symm.trans h2.2.1, h1.1.symm.trans h2.1⟩
  · rintro ⟨rfl, rfl, rfl, rfl⟩
    rfl

/-- The bits of an operand word that SETRUN requires to be zero. -/
theorem and_runMask (a : Word32) : a &&& 0xFFFFFFFE#32 = 0#32 ↔ a.extractLsb' 1 31 = 0#31 := by
  have hmask : ∀ i : Fin 31, (0xFFFFFFFE#32).getLsbD (i + 1) = true := by decide
  constructor <;> intro h <;> apply BitVec.eq_of_getLsbD_eq <;> intro i hi
  · have hb := congrArg (fun v => BitVec.getLsbD v (i + 1)) h
    simp only [BitVec.getLsbD_and, hmask ⟨i, hi⟩, Bool.and_true] at hb
    simpa [hi, Nat.add_comm] using hb
  · cases i with
    | zero => simp
    | succ k =>
      have hb := congrArg (fun v => BitVec.getLsbD v k) h
      simp [show k < 31 by omega, Nat.add_comm 1 k] at hb
      simp [hb]

/-- A row selects a word by its fields, where the row's mask covers `RSV` and `OPC`, as every mask of the map does. -/
theorem selects_fieldWord (onP onC : Bool) (w : Word96) (b a mb ma : Word32) (o : BitVec 8) :
    (OpcodeRow.mk onP onC (fieldWord b a 0#24 o) (fieldWord mb ma 0xFFFFFF#24 0xFF#8)).selects w = true ↔
      bField w &&& mb = b ∧ aField w &&& ma = a ∧ rsvField w = 0#24 ∧ opcField w = o := by
  rw [OpcodeRow.selects, beq_iff_eq]
  conv => lhs; lhs; rw [← fieldWord_eta w]
  have h1 : rsvField w &&& 0xFFFFFF#24 = rsvField w := BitVec.and_allOnes
  have h2 : opcField w &&& 0xFF#8 = opcField w := BitVec.and_allOnes
  rw [fieldWord_and, fieldWord_inj, h1, h2]

/-- The opcode map, its patterns and masks written as fields. -/
theorem opcodeTable_fields : opcodeTable =
    [⟨true, false, fieldWord 0#32 0#32 0#24 0x01#8, fieldWord 0xFFFFFFFF#32 0#32 0xFFFFFF#24 0xFF#8⟩,
     ⟨true, false, fieldWord 0#32 0#32 0#24 0x02#8, fieldWord 0#32 0#32 0xFFFFFF#24 0xFF#8⟩,
     ⟨true, false, fieldWord 0#32 0#32 0#24 0x03#8, fieldWord 0#32 0#32 0xFFFFFF#24 0xFF#8⟩,
     ⟨true, false, fieldWord 0#32 0#32 0#24 0x04#8, fieldWord 0xFFFFFFFF#32 0xFFFFFFFF#32 0xFFFFFF#24 0xFF#8⟩,
     ⟨true, true, fieldWord 0#32 0#32 0#24 0x08#8, fieldWord 0xFFFFFFFF#32 0xFFFFFFFF#32 0xFFFFFF#24 0xFF#8⟩,
     ⟨false, true, fieldWord 0#32 0#32 0#24 0x10#8, fieldWord 0xFFFFFFFF#32 0xFFFFFFFE#32 0xFFFFFF#24 0xFF#8⟩,
     ⟨false, true, fieldWord 0#32 0#32 0#24 0x11#8, fieldWord 0xFFFFFFFF#32 0#32 0xFFFFFF#24 0xFF#8⟩,
     ⟨false, true, fieldWord 0#32 0#32 0#24 0x12#8, fieldWord 0xFFFFFFFF#32 0xFFFFFFFF#32 0xFFFFFF#24 0xFF#8⟩] := by
  decide

end Sys2Proof
end

