-- ==== Sys2Proof/Laws/Num.lean ====
section
/-! SUPPORT. The scalar record of a configuration, field by field: binary32 (00_scope.md R12). -/

namespace Sys2Proof

variable (c : Cfg)

@[simp] theorem Cfg.NUM_zero : c.NUM.zero = NUM.zero := rfl
@[simp] theorem Cfg.NUM_one : c.NUM.one = NUM.one := rfl
@[simp] theorem Cfg.NUM_add (a b : F32) : c.NUM.add a b = NUM.add a b := rfl
@[simp] theorem Cfg.NUM_sub (a b : F32) : c.NUM.sub a b = NUM.sub a b := rfl
@[simp] theorem Cfg.NUM_mul (a b : F32) : c.NUM.mul a b = NUM.mul a b := rfl
@[simp] theorem Cfg.NUM_div (a b : F32) : c.NUM.div a b = NUM.div a b := rfl
@[simp] theorem Cfg.NUM_abs (a : F32) : c.NUM.abs a = NUM.abs a := rfl
@[simp] theorem Cfg.NUM_gt (a b : F32) : c.NUM.gt a b = NUM.gt a b := rfl
@[simp] theorem Cfg.NUM_ge (a b : F32) : c.NUM.ge a b = NUM.ge a b := rfl
@[simp] theorem Cfg.NUM_lt (a b : F32) : c.NUM.lt a b = NUM.lt a b := rfl
@[simp] theorem Cfg.NUM_le (a b : F32) : c.NUM.le a b = NUM.le a b := rfl
@[simp] theorem Cfg.NUM_ofInt (i : Int) : c.NUM.ofInt i = NUM.ofInt i := rfl
@[simp] theorem Cfg.NUM_ofDec (p q : Nat) : c.NUM.ofDec p q = NUM.ofDec p q := rfl
@[simp] theorem Cfg.NUM_toI16 (a : F32) : c.NUM.toI16 a = NUM.toI16 a := rfl
@[simp] theorem Cfg.NUM_bits (a : F32) : c.NUM.bits a = a := rfl

/-- Every configuration has the same scalar record. -/
theorem Cfg.NUM_eq (d : Cfg) : c.NUM = d.NUM := rfl

/-- The window of every configuration has the fixed length (42_time_syncer.md R180). -/
@[simp] theorem Cfg.window_fixed : c.window = 50 := c.window_eq

end Sys2Proof

/-! ### The order of finite values -/

namespace Sys2Proof.NUM

/-- More magnitude bits are a larger magnitude. -/
theorem units_lt_units {a b : F32} (h : magBits a < magBits b) : units a < units b := by
  unfold units
  generalize magBits a = x at *
  generalize magBits b = y at *
  have hY : 1 ≤ 2 ^ (y / 2 ^ 23 - 1) := Nat.one_le_two_pow
  by_cases hx : x / 2 ^ 23 = 0
  · rw [if_pos hx]
    by_cases hy : y / 2 ^ 23 = 0
    · rw [if_pos hy]
      exact h
    · rw [if_neg hy]
      calc x < 2 ^ 23 := by omega
        _ ≤ 2 ^ 23 + y % 2 ^ 23 := Nat.le_add_right _ _
        _ ≤ _ := Nat.le_mul_of_pos_right _ hY
  · have hy : y / 2 ^ 23 ≠ 0 := by omega
    rw [if_neg hx, if_neg hy]
    by_cases he : x / 2 ^ 23 = y / 2 ^ 23
    · rw [he]
      exact (Nat.mul_lt_mul_right hY).2 (by omega)
    · have h2 : 2 ^ (x / 2 ^ 23 - 1 + 1) ≤ 2 ^ (y / 2 ^ 23 - 1) := Nat.pow_le_pow_right (by decide) (by omega)
      calc (2 ^ 23 + x % 2 ^ 23) * 2 ^ (x / 2 ^ 23 - 1)
          < 2 ^ 24 * 2 ^ (x / 2 ^ 23 - 1) := (Nat.mul_lt_mul_right Nat.one_le_two_pow).2 (by omega)
        _ = 2 ^ 23 * 2 ^ (x / 2 ^ 23 - 1 + 1) := by ring
        _ ≤ 2 ^ 23 * 2 ^ (y / 2 ^ 23 - 1) := Nat.mul_le_mul_left _ h2
        _ ≤ _ := Nat.mul_le_mul_right _ (Nat.le_add_right _ _)

/-- Magnitude bits and magnitudes have the same order. -/
theorem magBits_trichotomy (a b : F32) :
    magBits a < magBits b ∧ units a < units b ∨ magBits a = magBits b ∧ units a = units b ∨
    magBits b < magBits a ∧ units b < units a := by
  rcases Nat.lt_trichotomy (magBits a) (magBits b) with h | h | h
  · exact .inl ⟨h, units_lt_units h⟩
  · exact .inr (.inl ⟨h, by unfold units; rw [h]⟩)
  · exact .inr (.inr ⟨h, units_lt_units h⟩)

theorem isNaN_of_isFinite {a : F32} (h : isFinite a = true) : isNaN a = false := by
  simp only [isFinite, isNaN, decide_eq_true_eq, decide_eq_false_iff_not] at *
  omega

/-- `NUM.gt` of finite values is the strict order of the values (00_scope.md R12). -/
theorem gt_iff {a b : F32} (ha : isFinite a = true) (hb : isFinite b = true) :
    gt a b = true ↔ intUnits b < intUnits a := by
  have h := magBits_trichotomy a b
  have h1 := magBits_trichotomy a 0#32
  have h2 := magBits_trichotomy b 0#32
  rw [show magBits 0#32 = 0 by decide, show units 0#32 = 0 by decide] at h1 h2
  rw [gt, isNaN_of_isFinite ha, isNaN_of_isFinite hb, Bool.not_false, Bool.true_and, Bool.true_and, decide_eq_true_iff]
  unfold orderKey intUnits
  split <;> split <;> omega

/-! ### Rounding -/

/-- The value of a pattern with given magnitude bits below the sign. -/
theorem intUnits_ofBits {m : Nat} (h : m < 2 ^ 31) :
    intUnits (ofBits false m) = (if m / 2 ^ 23 = 0 then m else (2 ^ 23 + m % 2 ^ 23) * 2 ^ (m / 2 ^ 23 - 1) : Nat) := by
  have hn : (ofBits false m).toNat = m := by
    rw [ofBits, BitVec.toNat_ofNat]
    simp
    omega
  have hs : neg? (ofBits false m) = false := by
    rw [neg?, BitVec.msb_eq_false_iff_two_mul_lt, hn]
    omega
  have hm : magBits (ofBits false m) = m := by
    rw [magBits, hn, Nat.mod_eq_of_lt h]
  rw [intUnits, hs, units, hm]
  rfl

/-- Packing keeps a number of units whose significant part has at most 24 bits, within the range. -/
theorem intUnits_packMag {q k : Nat} (hq : q ≤ 2 ^ 24) (hk : k ≤ 200) :
    intUnits (ofBits false (packMag (q * 2 ^ k))) = (q * 2 ^ k : Nat) := by
  generalize hn : q * 2 ^ k = n
  unfold packMag
  by_cases hsmall : n < 2 ^ 24
  · rw [if_pos hsmall, intUnits_ofBits (by omega)]
    congr 1
    by_cases hz : n / 2 ^ 23 = 0
    · rw [if_pos hz]
    · rw [if_neg hz, show n / 2 ^ 23 - 1 = 0 by omega]
      omega
  rw [if_neg hsmall]
  have hn0 : n ≠ 0 := by omega
  have hlo := Nat.log2_self_le hn0
  have hhi := Nat.lt_log2_self (n := n)
  set l := n.log2 with hl
  have hl24 : 24 ≤ l := (Nat.le_log2 hn0).2 (by omega)
  have hlk : l ≤ 24 + k := by
    have h1 : 2 ^ l ≤ 2 ^ (24 + k) := by
      rw [pow_add]
      exact hlo.trans (hn ▸ Nat.mul_le_mul_right _ hq)
    exact (Nat.pow_le_pow_iff_right (by decide)).1 h1
  obtain ⟨p, hp⟩ : 2 ^ (l - 23) ∣ n := by
    rcases Nat.lt_or_ge l (24 + k) with h | h
    · exact (Nat.pow_dvd_pow 2 (by omega)).trans (hn ▸ Nat.dvd_mul_left _ _)
    · have hq' : q = 2 ^ 24 := by
        by_contra hne
        have h1 : n < 2 ^ l := by
          rw [← hn, show l = 24 + k by omega, pow_add]
          exact (Nat.mul_lt_mul_right (by positivity)).2 (by omega)
        omega
      rw [← hn, hq', ← pow_add]
      exact Nat.pow_dvd_pow 2 (by omega)
  have hP : 0 < 2 ^ (l - 23) := by positivity
  have e1 : 2 ^ l = 2 ^ (l - 23) * 2 ^ 23 := by rw [← pow_add]; congr 1; omega
  have e2 : 2 ^ (l + 1) = 2 ^ (l - 23) * 2 ^ 24 := by rw [← pow_add]; congr 1; omega
  have hp1 : 2 ^ 23 ≤ p := by
    rw [hp, e1] at hlo
    exact Nat.le_of_mul_le_mul_left hlo hP
  have hp2 : p < 2 ^ 24 := by
    rw [hp, e2] at hhi
    exact Nat.lt_of_mul_lt_mul_left hhi
  have hdiv : n / 2 ^ (l - 23) = p := by rw [hp, Nat.mul_div_cancel_left _ hP]
  dsimp only
  rw [hdiv, Nat.min_eq_right (by omega), intUnits_ofBits (by omega)]
  congr 1
  rw [show ((l - 23) * 2 ^ 23 + p) / 2 ^ 23 = l - 22 by omega, if_neg (by omega),
    show 2 ^ 23 + ((l - 23) * 2 ^ 23 + p) % 2 ^ 23 = p by omega, show l - 22 - 1 = l - 23 by omega, hp, Nat.mul_comm]

/-- Rounding to nearest is off by at most half. -/
theorem roundNE_error (m d : Nat) : 2 * (roundNE m d * 2 ^ d) ≤ 2 * m + 2 ^ d ∧ 2 * m ≤ 2 * (roundNE m d * 2 ^ d) + 2 ^ d := by
  have h := Nat.div_add_mod m (2 ^ d)
  have h2 := Nat.mod_lt m (show 0 < 2 ^ d by positivity)
  unfold roundNE
  dsimp only
  generalize m / 2 ^ d = q at *
  generalize m % 2 ^ d = r at *
  generalize 2 ^ d = D at *
  have e : (q + 1) * D = q * D + D := by ring
  rw [Nat.mul_comm D q] at h
  split
  · rw [e]
    omega
  · omega

/-- A magnitude `m` units of 2^-(149+sh) in the normal range is rounded to within half a unit of its last place. -/
theorem intUnits_round {sh m : Nat} (h : 2 ^ (sh + 23) ≤ m) (hm : m < 2 ^ (sh + 200)) :
    ∃ v : Nat, intUnits (round false sh m) = (v : Int) ∧
      2 ^ 24 * (v * 2 ^ sh) ≤ 2 ^ 24 * m + m ∧ 2 ^ 24 * m ≤ 2 ^ 24 * (v * 2 ^ sh) + m := by
  have hm0 : m ≠ 0 := by
    have : 0 < 2 ^ (sh + 23) := by positivity
    omega
  have hlo := Nat.log2_self_le hm0
  have hhi := Nat.lt_log2_self (n := m)
  have hl : sh + 23 ≤ m.log2 := (Nat.le_log2 hm0).2 h
  have hl2 : m.log2 < sh + 200 := (Nat.log2_lt hm0).2 hm
  set l := m.log2 with hld
  have hdrop : max sh (l - 23) = l - 23 := by omega
  have hr := roundNE_error m (l - 23)
  have hq : roundNE m (l - 23) ≤ 2 ^ 24 := by
    have hP : 0 < 2 ^ (l - 23) := by positivity
    have e2 : 2 ^ (l + 1) = 2 ^ (l - 23) * 2 ^ 24 := by rw [← pow_add]; congr 1; omega
    rw [e2] at hhi
    generalize 2 ^ (l - 23) = P at *
    by_contra hne
    have h1 : (2 ^ 24 + 1) * P ≤ roundNE m (l - 23) * P := Nat.mul_le_mul_right _ (by omega)
    nlinarith
  refine ⟨roundNE m (l - 23) * 2 ^ (l - 23 - sh), ?_, ?_⟩
  · rw [round, roundUnits, hdrop]
    exact intUnits_packMag hq (by omega)
  · have e1 : roundNE m (l - 23) * 2 ^ (l - 23 - sh) * 2 ^ sh = roundNE m (l - 23) * 2 ^ (l - 23) := by
      rw [Nat.mul_assoc, ← pow_add]
      congr 2
      omega
    have e2 : 2 ^ l = 2 ^ (l - 23) * 2 ^ 23 := by rw [← pow_add]; congr 1; omega
    rw [e1]
    generalize 2 ^ (l - 23) = P at *
    omega

end Sys2Proof.NUM
end

