-- ==== Sys2Proof/Laws/Space.lean ====
section
/-! SUPPORT. The laws of an element-indexed space: a read after a write, and the canonical form. -/

namespace Sys2Proof

variable {α : Type}

@[simp] theorem Space.read_nil (k : Nat) : Space.read ([] : Space α) k = none := rfl

@[simp] theorem Space.wf_nil : Space.wf ([] : Space α) = true := rfl

/-- Below the lowest index of a rising list nothing is listed. -/
theorem Space.read_of_rising {lo : Nat} {m : Space α} (h : Space.rising lo m = true) {k : Nat} (hk : k ≤ lo) :
    Space.read m k = none := by
  induction m generalizing lo with
  | nil => rfl
  | cons p rest ih =>
    obtain ⟨j, v⟩ := p
    simp only [Space.rising, Bool.and_eq_true, decide_eq_true_eq] at h
    rw [Space.read, if_neg (by omega)]
    exact ih h.2 (by omega)

theorem Space.read_write_same (m : Space α) (k : Nat) (v : α) : (m.write k v).read k = some v := by
  induction m with
  | nil => simp [Space.write, Space.read]
  | cons p rest ih =>
    obtain ⟨j, w⟩ := p
    simp only [Space.write]
    split
    · simp [Space.read]
    · split
      · simp [Space.read]
      · rename_i h
        rw [Space.read, if_neg h]
        exact ih

theorem Space.read_write_other (m : Space α) {k l : Nat} (v : α) (h : k ≠ l) : (m.write k v).read l = m.read l := by
  induction m with
  | nil => simp [Space.write, Space.read, h]
  | cons p rest ih =>
    obtain ⟨j, w⟩ := p
    simp only [Space.write]
    split
    · simp [Space.read, h]
    · split
      · rename_i hj
        subst hj
        simp [Space.read, h]
      · simp only [Space.read, ih]

/-- A read after a write, in one equation. -/
theorem Space.read_write (m : Space α) (k l : Nat) (v : α) :
    (m.write k v).read l = if k = l then some v else m.read l := by
  by_cases h : k = l
  · subst h; simp [Space.read_write_same]
  · simp [h, Space.read_write_other]

theorem Space.rising_write {lo : Nat} {m : Space α} (h : Space.rising lo m = true) {k : Nat} (hk : lo < k) (v : α) :
    Space.rising lo (m.write k v) = true := by
  induction m generalizing lo with
  | nil => simp [Space.write, Space.rising, hk]
  | cons p rest ih =>
    obtain ⟨j, w⟩ := p
    simp only [Space.rising, Bool.and_eq_true, decide_eq_true_eq] at h
    simp only [Space.write]
    split
    · rename_i hj
      simp [Space.rising, hk, hj, h.2]
    · split
      · rename_i hj
        subst hj
        simp [Space.rising, h]
      · simp only [Space.rising, Bool.and_eq_true, decide_eq_true_eq]
        exact ⟨h.1, ih h.2 (by omega)⟩

/-- A write keeps the canonical form. -/
theorem Space.wf_write {m : Space α} (h : m.wf = true) (k : Nat) (v : α) : (m.write k v).wf = true := by
  cases m with
  | nil => rfl
  | cons p rest =>
    obtain ⟨j, w⟩ := p
    simp only [Space.wf] at h
    simp only [Space.write]
    split
    · rename_i hj
      simp [Space.wf, Space.rising, hj, h]
    · split
      · rename_i hj
        subst hj
        simpa [Space.wf] using h
      · simp only [Space.wf]
        exact Space.rising_write h (by omega) v

theorem Space.rising_of_rising {lo hi : Nat} {m : Space α} (h : Space.rising hi m = true) (hl : lo ≤ hi) :
    Space.rising lo m = true := by
  cases m with
  | nil => rfl
  | cons p rest =>
    obtain ⟨j, w⟩ := p
    simp only [Space.rising, Bool.and_eq_true, decide_eq_true_eq] at h ⊢
    exact ⟨by omega, h.2⟩

theorem Space.wf_of_rising {lo : Nat} {m : Space α} (h : Space.rising lo m = true) : m.wf = true := by
  cases m with
  | nil => rfl
  | cons p rest =>
    simp only [Space.rising, Bool.and_eq_true, decide_eq_true_eq] at h
    exact h.2

/-- Two canonical spaces with the same contents are the same data. -/
theorem Space.ext_of_read {m n : Space α} (hm : m.wf = true) (hn : n.wf = true)
    (h : ∀ k, m.read k = n.read k) : m = n := by
  induction m generalizing n with
  | nil =>
    cases n with
    | nil => rfl
    | cons q rest =>
      have := h q.1
      simp [Space.read] at this
  | cons p rest ih =>
    obtain ⟨j, v⟩ := p
    simp only [Space.wf] at hm
    cases n with
    | nil =>
      have := h j
      simp [Space.read] at this
    | cons q rest' =>
      obtain ⟨l, w⟩ := q
      simp only [Space.wf] at hn
      have hjl : j = l := by
        rcases Nat.lt_trichotomy j l with hlt | heq | hgt
        · have := h j
          rw [Space.read, if_pos rfl, Space.read, if_neg (by omega), Space.read_of_rising hn (by omega)] at this
          simp at this
        · exact heq
        · have := h l
          rw [Space.read, if_neg (by omega), Space.read_of_rising hm (by omega), Space.read, if_pos rfl] at this
          simp at this
      subst hjl
      have hv : v = w := by simpa [Space.read] using h j
      subst hv
      have : rest = rest' := by
        refine ih (Space.wf_of_rising hm) (Space.wf_of_rising hn) fun k => ?_
        by_cases hk : j = k
        · subst hk
          rw [Space.read_of_rising hm (Nat.le_refl _), Space.read_of_rising hn (Nat.le_refl _)]
        · have := h k
          rwa [Space.read, if_neg hk, Space.read, if_neg hk] at this
      rw [this]

@[simp] theorem Space.firstN_length (m : Space α) (free : Nat → α) (n : Nat) : (m.firstN free n).length = n := by
  simp [Space.firstN]

end Sys2Proof
end

