-- ==== Sys2Proof/Laws/State.lean ====
section
/-! SUPPORT. What each unconditional update of the state leaves in each field, so that no proof unfolds a record
update. -/

namespace Sys2Proof.Machine

variable (s : State)

@[simp] theorem State.emit_cfg (e : Event) : (s.emit e).cfg = s.cfg := rfl
@[simp] theorem State.emit_phase (e : Event) : (s.emit e).phase = s.phase := rfl
@[simp] theorem State.emit_level (e : Event) : (s.emit e).level = s.level := rfl
@[simp] theorem State.emit_corr (e : Event) : (s.emit e).corr = s.corr := rfl
@[simp] theorem State.emit_scount (e : Event) : (s.emit e).scount = s.scount := rfl
@[simp] theorem State.emit_dispCur (e : Event) : (s.emit e).dispCur = s.dispCur := rfl
@[simp] theorem State.emit_running (e : Event) : (s.emit e).running = s.running := rfl
@[simp] theorem State.emit_dumpActive (e : Event) : (s.emit e).dumpActive = s.dumpActive := rfl
@[simp] theorem State.emit_dumpTarget (e : Event) : (s.emit e).dumpTarget = s.dumpTarget := rfl
@[simp] theorem State.emit_dumpIdx (e : Event) : (s.emit e).dumpIdx = s.dumpIdx := rfl
@[simp] theorem State.emit_opState (e : Event) : (s.emit e).opState = s.opState := rfl
@[simp] theorem State.emit_opCmd (e : Event) : (s.emit e).opCmd = s.opCmd := rfl
@[simp] theorem State.emit_opPolled (e : Event) : (s.emit e).opPolled = s.opPolled := rfl
@[simp] theorem State.emit_opRead (e : Event) : (s.emit e).opRead = s.opRead := rfl
@[simp] theorem State.emit_opEvent (e : Event) : (s.emit e).opEvent = s.opEvent := rfl
@[simp] theorem State.emit_syState (e : Event) : (s.emit e).syState = s.syState := rfl
@[simp] theorem State.emit_syIdx (e : Event) : (s.emit e).syIdx = s.syIdx := rfl
@[simp] theorem State.emit_syCnt (e : Event) : (s.emit e).syCnt = s.syCnt := rfl
@[simp] theorem State.emit_sySum (e : Event) : (s.emit e).sySum = s.sySum := rfl
@[simp] theorem State.emit_syNull (e : Event) : (s.emit e).syNull = s.syNull := rfl
@[simp] theorem State.emit_syFrame (e : Event) : (s.emit e).syFrame = s.syFrame := rfl
@[simp] theorem State.emit_env (e : Event) : (s.emit e).env = s.env := rfl
@[simp] theorem State.emit_dispBuf (e : Event) : (s.emit e).dispBuf = s.dispBuf := rfl
@[simp] theorem State.emit_dumpBuf (e : Event) : (s.emit e).dumpBuf = s.dumpBuf := rfl
@[simp] theorem State.emit_dev (e : Event) : (s.emit e).dev = s.dev := rfl
@[simp] theorem State.emit_cmdP (e : Event) : (s.emit e).cmdP = s.cmdP := rfl
@[simp] theorem State.emit_cmdC (e : Event) : (s.emit e).cmdC = s.cmdC := rfl
@[simp] theorem State.emit_sched (e : Event) : (s.emit e).sched = s.sched := rfl
@[simp] theorem State.emit_turns (e : Event) : (s.emit e).turns = s.turns := rfl
@[simp] theorem State.emit_draw (e : Event) : (s.emit e).draw = s.draw := rfl
@[simp] theorem State.emit_out (e : Event) : (s.emit e).out = s.out ++ [e] := rfl

@[simp] theorem State.sendEvent_cfg (e : Event) : (s.sendEvent e).cfg = s.cfg := rfl
@[simp] theorem State.sendEvent_phase (e : Event) : (s.sendEvent e).phase = s.phase := rfl
@[simp] theorem State.sendEvent_level (e : Event) : (s.sendEvent e).level = s.level := rfl
@[simp] theorem State.sendEvent_corr (e : Event) : (s.sendEvent e).corr = s.corr := rfl
@[simp] theorem State.sendEvent_scount (e : Event) : (s.sendEvent e).scount = s.scount := rfl
@[simp] theorem State.sendEvent_dispCur (e : Event) : (s.sendEvent e).dispCur = s.dispCur := rfl
@[simp] theorem State.sendEvent_running (e : Event) : (s.sendEvent e).running = s.running := rfl
@[simp] theorem State.sendEvent_dumpActive (e : Event) : (s.sendEvent e).dumpActive = s.dumpActive := rfl
@[simp] theorem State.sendEvent_dumpTarget (e : Event) : (s.sendEvent e).dumpTarget = s.dumpTarget := rfl
@[simp] theorem State.sendEvent_dumpIdx (e : Event) : (s.sendEvent e).dumpIdx = s.dumpIdx := rfl
@[simp] theorem State.sendEvent_opState (e : Event) : (s.sendEvent e).opState = s.opState := rfl
@[simp] theorem State.sendEvent_opCmd (e : Event) : (s.sendEvent e).opCmd = s.opCmd := rfl
@[simp] theorem State.sendEvent_opPolled (e : Event) : (s.sendEvent e).opPolled = s.opPolled := rfl
@[simp] theorem State.sendEvent_opRead (e : Event) : (s.sendEvent e).opRead = s.opRead := rfl
@[simp] theorem State.sendEvent_opEvent (e : Event) : (s.sendEvent e).opEvent = none := rfl
@[simp] theorem State.sendEvent_syState (e : Event) : (s.sendEvent e).syState = s.syState := rfl
@[simp] theorem State.sendEvent_syIdx (e : Event) : (s.sendEvent e).syIdx = s.syIdx := rfl
@[simp] theorem State.sendEvent_syCnt (e : Event) : (s.sendEvent e).syCnt = s.syCnt := rfl
@[simp] theorem State.sendEvent_sySum (e : Event) : (s.sendEvent e).sySum = s.sySum := rfl
@[simp] theorem State.sendEvent_syNull (e : Event) : (s.sendEvent e).syNull = s.syNull := rfl
@[simp] theorem State.sendEvent_syFrame (e : Event) : (s.sendEvent e).syFrame = s.syFrame := rfl
@[simp] theorem State.sendEvent_env (e : Event) : (s.sendEvent e).env = s.env := rfl
@[simp] theorem State.sendEvent_dispBuf (e : Event) : (s.sendEvent e).dispBuf = s.dispBuf := rfl
@[simp] theorem State.sendEvent_dumpBuf (e : Event) : (s.sendEvent e).dumpBuf = s.dumpBuf := rfl
@[simp] theorem State.sendEvent_dev (e : Event) : (s.sendEvent e).dev = s.dev := rfl
@[simp] theorem State.sendEvent_cmdP (e : Event) : (s.sendEvent e).cmdP = s.cmdP := rfl
@[simp] theorem State.sendEvent_cmdC (e : Event) : (s.sendEvent e).cmdC = s.cmdC := rfl
@[simp] theorem State.sendEvent_sched (e : Event) : (s.sendEvent e).sched = s.sched := rfl
@[simp] theorem State.sendEvent_turns (e : Event) : (s.sendEvent e).turns = s.turns := rfl
@[simp] theorem State.sendEvent_draw (e : Event) : (s.sendEvent e).draw = s.draw := rfl
@[simp] theorem State.sendEvent_out (e : Event) : (s.sendEvent e).out = s.out ++ [e] := rfl

@[simp] theorem State.respond_cfg (p : Port) (o : BitVec 8) (st : Status) (a b : Word32) : (s.respond p o st a b).cfg = s.cfg := rfl
@[simp] theorem State.respond_phase (p : Port) (o : BitVec 8) (st : Status) (a b : Word32) : (s.respond p o st a b).phase = s.phase := rfl
@[simp] theorem State.respond_level (p : Port) (o : BitVec 8) (st : Status) (a b : Word32) : (s.respond p o st a b).level = s.level := rfl
@[simp] theorem State.respond_corr (p : Port) (o : BitVec 8) (st : Status) (a b : Word32) : (s.respond p o st a b).corr = s.corr := rfl
@[simp] theorem State.respond_scount (p : Port) (o : BitVec 8) (st : Status) (a b : Word32) : (s.respond p o st a b).scount = s.scount := rfl
@[simp] theorem State.respond_dispCur (p : Port) (o : BitVec 8) (st : Status) (a b : Word32) : (s.respond p o st a b).dispCur = s.dispCur := rfl
@[simp] theorem State.respond_running (p : Port) (o : BitVec 8) (st : Status) (a b : Word32) : (s.respond p o st a b).running = s.running := rfl
@[simp] theorem State.respond_dumpActive (p : Port) (o : BitVec 8) (st : Status) (a b : Word32) : (s.respond p o st a b).dumpActive = s.dumpActive := rfl
@[simp] theorem State.respond_dumpTarget (p : Port) (o : BitVec 8) (st : Status) (a b : Word32) : (s.respond p o st a b).dumpTarget = s.dumpTarget := rfl
@[simp] theorem State.respond_dumpIdx (p : Port) (o : BitVec 8) (st : Status) (a b : Word32) : (s.respond p o st a b).dumpIdx = s.dumpIdx := rfl
@[simp] theorem State.respond_opState (p : Port) (o : BitVec 8) (st : Status) (a b : Word32) : (s.respond p o st a b).opState = s.opState := rfl
@[simp] theorem State.respond_opCmd (p : Port) (o : BitVec 8) (st : Status) (a b : Word32) : (s.respond p o st a b).opCmd = s.opCmd := rfl
@[simp] theorem State.respond_opPolled (p : Port) (o : BitVec 8) (st : Status) (a b : Word32) : (s.respond p o st a b).opPolled = s.opPolled := rfl
@[simp] theorem State.respond_opRead (p : Port) (o : BitVec 8) (st : Status) (a b : Word32) : (s.respond p o st a b).opRead = s.opRead := rfl
@[simp] theorem State.respond_opEvent (p : Port) (o : BitVec 8) (st : Status) (a b : Word32) : (s.respond p o st a b).opEvent = s.opEvent := rfl
@[simp] theorem State.respond_syState (p : Port) (o : BitVec 8) (st : Status) (a b : Word32) : (s.respond p o st a b).syState = s.syState := rfl
@[simp] theorem State.respond_syIdx (p : Port) (o : BitVec 8) (st : Status) (a b : Word32) : (s.respond p o st a b).syIdx = s.syIdx := rfl
@[simp] theorem State.respond_syCnt (p : Port) (o : BitVec 8) (st : Status) (a b : Word32) : (s.respond p o st a b).syCnt = s.syCnt := rfl
@[simp] theorem State.respond_sySum (p : Port) (o : BitVec 8) (st : Status) (a b : Word32) : (s.respond p o st a b).sySum = s.sySum := rfl
@[simp] theorem State.respond_syNull (p : Port) (o : BitVec 8) (st : Status) (a b : Word32) : (s.respond p o st a b).syNull = s.syNull := rfl
@[simp] theorem State.respond_syFrame (p : Port) (o : BitVec 8) (st : Status) (a b : Word32) : (s.respond p o st a b).syFrame = s.syFrame := rfl
@[simp] theorem State.respond_env (p : Port) (o : BitVec 8) (st : Status) (a b : Word32) : (s.respond p o st a b).env = s.env := rfl
@[simp] theorem State.respond_dispBuf (p : Port) (o : BitVec 8) (st : Status) (a b : Word32) : (s.respond p o st a b).dispBuf = s.dispBuf := rfl
@[simp] theorem State.respond_dumpBuf (p : Port) (o : BitVec 8) (st : Status) (a b : Word32) : (s.respond p o st a b).dumpBuf = s.dumpBuf := rfl
@[simp] theorem State.respond_dev (p : Port) (o : BitVec 8) (st : Status) (a b : Word32) : (s.respond p o st a b).dev = s.dev := rfl
@[simp] theorem State.respond_cmdP (p : Port) (o : BitVec 8) (st : Status) (a b : Word32) : (s.respond p o st a b).cmdP = s.cmdP := rfl
@[simp] theorem State.respond_cmdC (p : Port) (o : BitVec 8) (st : Status) (a b : Word32) : (s.respond p o st a b).cmdC = s.cmdC := rfl
@[simp] theorem State.respond_sched (p : Port) (o : BitVec 8) (st : Status) (a b : Word32) : (s.respond p o st a b).sched = s.sched := rfl
@[simp] theorem State.respond_turns (p : Port) (o : BitVec 8) (st : Status) (a b : Word32) : (s.respond p o st a b).turns = s.turns := rfl
@[simp] theorem State.respond_draw (p : Port) (o : BitVec 8) (st : Status) (a b : Word32) : (s.respond p o st a b).draw = s.draw := rfl
@[simp] theorem State.respond_out (p : Port) (o : BitVec 8) (st : Status) (a b : Word32) : (s.respond p o st a b).out = s.out ++ [.rsp p (responseWord o st a b)] := rfl

@[simp] theorem State.endCommand_cfg : (s.endCommand).cfg = s.cfg := rfl
@[simp] theorem State.endCommand_phase : (s.endCommand).phase = s.phase := rfl
@[simp] theorem State.endCommand_level : (s.endCommand).level = s.level := rfl
@[simp] theorem State.endCommand_corr : (s.endCommand).corr = s.corr := rfl
@[simp] theorem State.endCommand_scount : (s.endCommand).scount = s.scount := rfl
@[simp] theorem State.endCommand_dispCur : (s.endCommand).dispCur = s.dispCur := rfl
@[simp] theorem State.endCommand_running : (s.endCommand).running = s.running := rfl
@[simp] theorem State.endCommand_dumpActive : (s.endCommand).dumpActive = s.dumpActive := rfl
@[simp] theorem State.endCommand_dumpTarget : (s.endCommand).dumpTarget = s.dumpTarget := rfl
@[simp] theorem State.endCommand_dumpIdx : (s.endCommand).dumpIdx = s.dumpIdx := rfl
@[simp] theorem State.endCommand_opState : (s.endCommand).opState = .idle := rfl
@[simp] theorem State.endCommand_opCmd : (s.endCommand).opCmd = s.opCmd := rfl
@[simp] theorem State.endCommand_opPolled : (s.endCommand).opPolled = false := rfl
@[simp] theorem State.endCommand_opRead : (s.endCommand).opRead = none := rfl
@[simp] theorem State.endCommand_opEvent : (s.endCommand).opEvent = none := rfl
@[simp] theorem State.endCommand_syState : (s.endCommand).syState = s.syState := rfl
@[simp] theorem State.endCommand_syIdx : (s.endCommand).syIdx = s.syIdx := rfl
@[simp] theorem State.endCommand_syCnt : (s.endCommand).syCnt = s.syCnt := rfl
@[simp] theorem State.endCommand_sySum : (s.endCommand).sySum = s.sySum := rfl
@[simp] theorem State.endCommand_syNull : (s.endCommand).syNull = s.syNull := rfl
@[simp] theorem State.endCommand_syFrame : (s.endCommand).syFrame = s.syFrame := rfl
@[simp] theorem State.endCommand_env : (s.endCommand).env = s.env := rfl
@[simp] theorem State.endCommand_dispBuf : (s.endCommand).dispBuf = s.dispBuf := rfl
@[simp] theorem State.endCommand_dumpBuf : (s.endCommand).dumpBuf = s.dumpBuf := rfl
@[simp] theorem State.endCommand_dev : (s.endCommand).dev = s.dev := rfl
@[simp] theorem State.endCommand_cmdP : (s.endCommand).cmdP = s.cmdP := rfl
@[simp] theorem State.endCommand_cmdC : (s.endCommand).cmdC = s.cmdC := rfl
@[simp] theorem State.endCommand_sched : (s.endCommand).sched = s.sched := rfl
@[simp] theorem State.endCommand_turns : (s.endCommand).turns = s.turns := rfl
@[simp] theorem State.endCommand_draw : (s.endCommand).draw = s.draw := rfl
@[simp] theorem State.endCommand_out : (s.endCommand).out = s.out := rfl

@[simp] theorem State.beginRead_cfg : (s.beginRead).cfg = s.cfg := rfl
@[simp] theorem State.beginRead_phase : (s.beginRead).phase = s.phase := rfl
@[simp] theorem State.beginRead_level : (s.beginRead).level = s.level := rfl
@[simp] theorem State.beginRead_corr : (s.beginRead).corr = s.corr := rfl
@[simp] theorem State.beginRead_scount : (s.beginRead).scount = s.scount := rfl
@[simp] theorem State.beginRead_dispCur : (s.beginRead).dispCur = s.dispCur := rfl
@[simp] theorem State.beginRead_running : (s.beginRead).running = s.running := rfl
@[simp] theorem State.beginRead_dumpActive : (s.beginRead).dumpActive = s.dumpActive := rfl
@[simp] theorem State.beginRead_dumpTarget : (s.beginRead).dumpTarget = s.dumpTarget := rfl
@[simp] theorem State.beginRead_dumpIdx : (s.beginRead).dumpIdx = s.dumpIdx := rfl
@[simp] theorem State.beginRead_opState : (s.beginRead).opState = .entry := rfl
@[simp] theorem State.beginRead_opCmd : (s.beginRead).opCmd = s.opCmd := rfl
@[simp] theorem State.beginRead_opPolled : (s.beginRead).opPolled = false := rfl
@[simp] theorem State.beginRead_opRead : (s.beginRead).opRead = none := rfl
@[simp] theorem State.beginRead_opEvent : (s.beginRead).opEvent = none := rfl
@[simp] theorem State.beginRead_syState : (s.beginRead).syState = s.syState := rfl
@[simp] theorem State.beginRead_syIdx : (s.beginRead).syIdx = s.syIdx := rfl
@[simp] theorem State.beginRead_syCnt : (s.beginRead).syCnt = s.syCnt := rfl
@[simp] theorem State.beginRead_sySum : (s.beginRead).sySum = s.sySum := rfl
@[simp] theorem State.beginRead_syNull : (s.beginRead).syNull = s.syNull := rfl
@[simp] theorem State.beginRead_syFrame : (s.beginRead).syFrame = s.syFrame := rfl
@[simp] theorem State.beginRead_env : (s.beginRead).env = s.env := rfl
@[simp] theorem State.beginRead_dispBuf : (s.beginRead).dispBuf = s.dispBuf := rfl
@[simp] theorem State.beginRead_dumpBuf : (s.beginRead).dumpBuf = s.dumpBuf := rfl
@[simp] theorem State.beginRead_dev : (s.beginRead).dev = s.dev := rfl
@[simp] theorem State.beginRead_cmdP : (s.beginRead).cmdP = s.cmdP := rfl
@[simp] theorem State.beginRead_cmdC : (s.beginRead).cmdC = s.cmdC := rfl
@[simp] theorem State.beginRead_sched : (s.beginRead).sched = s.sched := rfl
@[simp] theorem State.beginRead_turns : (s.beginRead).turns = s.turns := rfl
@[simp] theorem State.beginRead_draw : (s.beginRead).draw = s.draw := rfl
@[simp] theorem State.beginRead_out : (s.beginRead).out = s.out := rfl

@[simp] theorem State.takeCancelled_cfg (o : BitVec 8) : (s.takeCancelled o).cfg = s.cfg := rfl
@[simp] theorem State.takeCancelled_phase (o : BitVec 8) : (s.takeCancelled o).phase = s.phase := rfl
@[simp] theorem State.takeCancelled_level (o : BitVec 8) : (s.takeCancelled o).level = s.level := rfl
@[simp] theorem State.takeCancelled_corr (o : BitVec 8) : (s.takeCancelled o).corr = s.corr := rfl
@[simp] theorem State.takeCancelled_scount (o : BitVec 8) : (s.takeCancelled o).scount = s.scount := rfl
@[simp] theorem State.takeCancelled_dispCur (o : BitVec 8) : (s.takeCancelled o).dispCur = s.dispCur := rfl
@[simp] theorem State.takeCancelled_running (o : BitVec 8) : (s.takeCancelled o).running = s.running := rfl
@[simp] theorem State.takeCancelled_dumpActive (o : BitVec 8) : (s.takeCancelled o).dumpActive = s.dumpActive := rfl
@[simp] theorem State.takeCancelled_dumpTarget (o : BitVec 8) : (s.takeCancelled o).dumpTarget = s.dumpTarget := rfl
@[simp] theorem State.takeCancelled_dumpIdx (o : BitVec 8) : (s.takeCancelled o).dumpIdx = s.dumpIdx := rfl
@[simp] theorem State.takeCancelled_opState (o : BitVec 8) : (s.takeCancelled o).opState = .idle := rfl
@[simp] theorem State.takeCancelled_opCmd (o : BitVec 8) : (s.takeCancelled o).opCmd = s.opCmd := rfl
@[simp] theorem State.takeCancelled_opPolled (o : BitVec 8) : (s.takeCancelled o).opPolled = false := rfl
@[simp] theorem State.takeCancelled_opRead (o : BitVec 8) : (s.takeCancelled o).opRead = none := rfl
@[simp] theorem State.takeCancelled_opEvent (o : BitVec 8) : (s.takeCancelled o).opEvent = none := rfl
@[simp] theorem State.takeCancelled_syState (o : BitVec 8) : (s.takeCancelled o).syState = if o = 0x03#8 then .idle else s.syState := rfl
@[simp] theorem State.takeCancelled_syIdx (o : BitVec 8) : (s.takeCancelled o).syIdx = s.syIdx := rfl
@[simp] theorem State.takeCancelled_syCnt (o : BitVec 8) : (s.takeCancelled o).syCnt = s.syCnt := rfl
@[simp] theorem State.takeCancelled_sySum (o : BitVec 8) : (s.takeCancelled o).sySum = s.sySum := rfl
@[simp] theorem State.takeCancelled_syNull (o : BitVec 8) : (s.takeCancelled o).syNull = s.syNull := rfl
@[simp] theorem State.takeCancelled_syFrame (o : BitVec 8) : (s.takeCancelled o).syFrame = s.syFrame := rfl
@[simp] theorem State.takeCancelled_env (o : BitVec 8) : (s.takeCancelled o).env = s.env := rfl
@[simp] theorem State.takeCancelled_dispBuf (o : BitVec 8) : (s.takeCancelled o).dispBuf = s.dispBuf := rfl
@[simp] theorem State.takeCancelled_dumpBuf (o : BitVec 8) : (s.takeCancelled o).dumpBuf = s.dumpBuf := rfl
@[simp] theorem State.takeCancelled_dev (o : BitVec 8) : (s.takeCancelled o).dev = s.dev := rfl
@[simp] theorem State.takeCancelled_cmdP (o : BitVec 8) : (s.takeCancelled o).cmdP = s.cmdP := rfl
@[simp] theorem State.takeCancelled_cmdC (o : BitVec 8) : (s.takeCancelled o).cmdC = s.cmdC := rfl
@[simp] theorem State.takeCancelled_sched (o : BitVec 8) : (s.takeCancelled o).sched = s.sched := rfl
@[simp] theorem State.takeCancelled_turns (o : BitVec 8) : (s.takeCancelled o).turns = s.turns := rfl
@[simp] theorem State.takeCancelled_draw (o : BitVec 8) : (s.takeCancelled o).draw = s.draw := rfl
@[simp] theorem State.takeCancelled_out (o : BitVec 8) : (s.takeCancelled o).out = s.out ++ [.rsp .P (responseWord o .cancelled 0#32 0#32)] := rfl

@[simp] theorem State.devPop_cfg (n : Nat) : (s.devPop n).cfg = s.cfg := rfl
@[simp] theorem State.devPop_phase (n : Nat) : (s.devPop n).phase = s.phase := rfl
@[simp] theorem State.devPop_level (n : Nat) : (s.devPop n).level = s.level := rfl
@[simp] theorem State.devPop_corr (n : Nat) : (s.devPop n).corr = s.corr := rfl
@[simp] theorem State.devPop_scount (n : Nat) : (s.devPop n).scount = s.scount := rfl
@[simp] theorem State.devPop_dispCur (n : Nat) : (s.devPop n).dispCur = s.dispCur := rfl
@[simp] theorem State.devPop_running (n : Nat) : (s.devPop n).running = s.running := rfl
@[simp] theorem State.devPop_dumpActive (n : Nat) : (s.devPop n).dumpActive = s.dumpActive := rfl
@[simp] theorem State.devPop_dumpTarget (n : Nat) : (s.devPop n).dumpTarget = s.dumpTarget := rfl
@[simp] theorem State.devPop_dumpIdx (n : Nat) : (s.devPop n).dumpIdx = s.dumpIdx := rfl
@[simp] theorem State.devPop_opState (n : Nat) : (s.devPop n).opState = s.opState := rfl
@[simp] theorem State.devPop_opCmd (n : Nat) : (s.devPop n).opCmd = s.opCmd := rfl
@[simp] theorem State.devPop_opPolled (n : Nat) : (s.devPop n).opPolled = s.opPolled := rfl
@[simp] theorem State.devPop_opRead (n : Nat) : (s.devPop n).opRead = some ⟨popCount n s.devAvail s.draw.count, s.dev.take (popCount n s.devAvail s.draw.count)⟩ := rfl
@[simp] theorem State.devPop_opEvent (n : Nat) : (s.devPop n).opEvent = some (.gain s.draw.agc (popCount n s.devAvail s.draw.count)) := rfl
@[simp] theorem State.devPop_syState (n : Nat) : (s.devPop n).syState = s.syState := rfl
@[simp] theorem State.devPop_syIdx (n : Nat) : (s.devPop n).syIdx = s.syIdx := rfl
@[simp] theorem State.devPop_syCnt (n : Nat) : (s.devPop n).syCnt = s.syCnt := rfl
@[simp] theorem State.devPop_sySum (n : Nat) : (s.devPop n).sySum = s.sySum := rfl
@[simp] theorem State.devPop_syNull (n : Nat) : (s.devPop n).syNull = s.syNull := rfl
@[simp] theorem State.devPop_syFrame (n : Nat) : (s.devPop n).syFrame = s.syFrame := rfl
@[simp] theorem State.devPop_env (n : Nat) : (s.devPop n).env = s.env := rfl
@[simp] theorem State.devPop_dispBuf (n : Nat) : (s.devPop n).dispBuf = s.dispBuf := rfl
@[simp] theorem State.devPop_dumpBuf (n : Nat) : (s.devPop n).dumpBuf = s.dumpBuf := rfl
@[simp] theorem State.devPop_dev (n : Nat) : (s.devPop n).dev = s.dev.drop (popCount n s.devAvail s.draw.count) := rfl
@[simp] theorem State.devPop_cmdP (n : Nat) : (s.devPop n).cmdP = s.cmdP := rfl
@[simp] theorem State.devPop_cmdC (n : Nat) : (s.devPop n).cmdC = s.cmdC := rfl
@[simp] theorem State.devPop_sched (n : Nat) : (s.devPop n).sched = s.sched := rfl
@[simp] theorem State.devPop_turns (n : Nat) : (s.devPop n).turns = s.turns := rfl
@[simp] theorem State.devPop_draw (n : Nat) : (s.devPop n).draw = s.draw := rfl
@[simp] theorem State.devPop_out (n : Nat) : (s.devPop n).out = s.out := rfl

@[simp] theorem State.phaseStep_cfg (off : Word32) : (s.phaseStep off).cfg = s.cfg := rfl
@[simp] theorem State.phaseStep_phase (off : Word32) : (s.phaseStep off).phase = BitVec.ofNat 32 (s.nextPhase off) := rfl
@[simp] theorem State.phaseStep_level (off : Word32) : (s.phaseStep off).level = s.level := rfl
@[simp] theorem State.phaseStep_corr (off : Word32) : (s.phaseStep off).corr = off := rfl
@[simp] theorem State.phaseStep_scount (off : Word32) : (s.phaseStep off).scount = s.scount := rfl
@[simp] theorem State.phaseStep_dispCur (off : Word32) : (s.phaseStep off).dispCur = s.dispCur := rfl
@[simp] theorem State.phaseStep_running (off : Word32) : (s.phaseStep off).running = s.running := rfl
@[simp] theorem State.phaseStep_dumpActive (off : Word32) : (s.phaseStep off).dumpActive = s.dumpActive := rfl
@[simp] theorem State.phaseStep_dumpTarget (off : Word32) : (s.phaseStep off).dumpTarget = s.dumpTarget := rfl
@[simp] theorem State.phaseStep_dumpIdx (off : Word32) : (s.phaseStep off).dumpIdx = s.dumpIdx := rfl
@[simp] theorem State.phaseStep_opState (off : Word32) : (s.phaseStep off).opState = s.opState := rfl
@[simp] theorem State.phaseStep_opCmd (off : Word32) : (s.phaseStep off).opCmd = s.opCmd := rfl
@[simp] theorem State.phaseStep_opPolled (off : Word32) : (s.phaseStep off).opPolled = s.opPolled := rfl
@[simp] theorem State.phaseStep_opRead (off : Word32) : (s.phaseStep off).opRead = s.opRead := rfl
@[simp] theorem State.phaseStep_opEvent (off : Word32) : (s.phaseStep off).opEvent = s.opEvent := rfl
@[simp] theorem State.phaseStep_syState (off : Word32) : (s.phaseStep off).syState = s.syState := rfl
@[simp] theorem State.phaseStep_syIdx (off : Word32) : (s.phaseStep off).syIdx = s.syIdx := rfl
@[simp] theorem State.phaseStep_syCnt (off : Word32) : (s.phaseStep off).syCnt = s.syCnt := rfl
@[simp] theorem State.phaseStep_sySum (off : Word32) : (s.phaseStep off).sySum = s.sySum := rfl
@[simp] theorem State.phaseStep_syNull (off : Word32) : (s.phaseStep off).syNull = s.syNull := rfl
@[simp] theorem State.phaseStep_syFrame (off : Word32) : (s.phaseStep off).syFrame = s.syFrame := rfl
@[simp] theorem State.phaseStep_env (off : Word32) : (s.phaseStep off).env = s.env := rfl
@[simp] theorem State.phaseStep_dispBuf (off : Word32) : (s.phaseStep off).dispBuf = s.dispBuf := rfl
@[simp] theorem State.phaseStep_dumpBuf (off : Word32) : (s.phaseStep off).dumpBuf = s.dumpBuf := rfl
@[simp] theorem State.phaseStep_dev (off : Word32) : (s.phaseStep off).dev = s.dev := rfl
@[simp] theorem State.phaseStep_cmdP (off : Word32) : (s.phaseStep off).cmdP = s.cmdP := rfl
@[simp] theorem State.phaseStep_cmdC (off : Word32) : (s.phaseStep off).cmdC = s.cmdC := rfl
@[simp] theorem State.phaseStep_sched (off : Word32) : (s.phaseStep off).sched = s.sched := rfl
@[simp] theorem State.phaseStep_turns (off : Word32) : (s.phaseStep off).turns = s.turns := rfl
@[simp] theorem State.phaseStep_draw (off : Word32) : (s.phaseStep off).draw = s.draw := rfl
@[simp] theorem State.phaseStep_out (off : Word32) : (s.phaseStep off).out = s.out := rfl

@[simp] theorem State.levelStep_cfg (z : Cplx) : (s.levelStep z).cfg = s.cfg := rfl
@[simp] theorem State.levelStep_phase (z : Cplx) : (s.levelStep z).phase = s.phase := rfl
@[simp] theorem State.levelStep_level (z : Cplx) : (s.levelStep z).level = s.cfg.NUM.add (s.cfg.NUM.mul s.cfg.alpha (s.cfg.MAG z)) (s.cfg.NUM.mul (s.cfg.NUM.sub s.cfg.NUM.one s.cfg.alpha) s.level) := rfl
@[simp] theorem State.levelStep_corr (z : Cplx) : (s.levelStep z).corr = s.corr := rfl
@[simp] theorem State.levelStep_scount (z : Cplx) : (s.levelStep z).scount = s.scount := rfl
@[simp] theorem State.levelStep_dispCur (z : Cplx) : (s.levelStep z).dispCur = s.dispCur := rfl
@[simp] theorem State.levelStep_running (z : Cplx) : (s.levelStep z).running = s.running := rfl
@[simp] theorem State.levelStep_dumpActive (z : Cplx) : (s.levelStep z).dumpActive = s.dumpActive := rfl
@[simp] theorem State.levelStep_dumpTarget (z : Cplx) : (s.levelStep z).dumpTarget = s.dumpTarget := rfl
@[simp] theorem State.levelStep_dumpIdx (z : Cplx) : (s.levelStep z).dumpIdx = s.dumpIdx := rfl
@[simp] theorem State.levelStep_opState (z : Cplx) : (s.levelStep z).opState = s.opState := rfl
@[simp] theorem State.levelStep_opCmd (z : Cplx) : (s.levelStep z).opCmd = s.opCmd := rfl
@[simp] theorem State.levelStep_opPolled (z : Cplx) : (s.levelStep z).opPolled = s.opPolled := rfl
@[simp] theorem State.levelStep_opRead (z : Cplx) : (s.levelStep z).opRead = s.opRead := rfl
@[simp] theorem State.levelStep_opEvent (z : Cplx) : (s.levelStep z).opEvent = s.opEvent := rfl
@[simp] theorem State.levelStep_syState (z : Cplx) : (s.levelStep z).syState = s.syState := rfl
@[simp] theorem State.levelStep_syIdx (z : Cplx) : (s.levelStep z).syIdx = s.syIdx := rfl
@[simp] theorem State.levelStep_syCnt (z : Cplx) : (s.levelStep z).syCnt = s.syCnt := rfl
@[simp] theorem State.levelStep_sySum (z : Cplx) : (s.levelStep z).sySum = s.sySum := rfl
@[simp] theorem State.levelStep_syNull (z : Cplx) : (s.levelStep z).syNull = s.syNull := rfl
@[simp] theorem State.levelStep_syFrame (z : Cplx) : (s.levelStep z).syFrame = s.syFrame := rfl
@[simp] theorem State.levelStep_env (z : Cplx) : (s.levelStep z).env = s.env := rfl
@[simp] theorem State.levelStep_dispBuf (z : Cplx) : (s.levelStep z).dispBuf = s.dispBuf := rfl
@[simp] theorem State.levelStep_dumpBuf (z : Cplx) : (s.levelStep z).dumpBuf = s.dumpBuf := rfl
@[simp] theorem State.levelStep_dev (z : Cplx) : (s.levelStep z).dev = s.dev := rfl
@[simp] theorem State.levelStep_cmdP (z : Cplx) : (s.levelStep z).cmdP = s.cmdP := rfl
@[simp] theorem State.levelStep_cmdC (z : Cplx) : (s.levelStep z).cmdC = s.cmdC := rfl
@[simp] theorem State.levelStep_sched (z : Cplx) : (s.levelStep z).sched = s.sched := rfl
@[simp] theorem State.levelStep_turns (z : Cplx) : (s.levelStep z).turns = s.turns := rfl
@[simp] theorem State.levelStep_draw (z : Cplx) : (s.levelStep z).draw = s.draw := rfl
@[simp] theorem State.levelStep_out (z : Cplx) : (s.levelStep z).out = s.out := rfl

@[simp] theorem State.syncStart_cfg (n f : Word32) : (s.syncStart n f).cfg = s.cfg := rfl
@[simp] theorem State.syncStart_phase (n f : Word32) : (s.syncStart n f).phase = s.phase := rfl
@[simp] theorem State.syncStart_level (n f : Word32) : (s.syncStart n f).level = s.level := rfl
@[simp] theorem State.syncStart_corr (n f : Word32) : (s.syncStart n f).corr = s.corr := rfl
@[simp] theorem State.syncStart_scount (n f : Word32) : (s.syncStart n f).scount = s.scount := rfl
@[simp] theorem State.syncStart_dispCur (n f : Word32) : (s.syncStart n f).dispCur = s.dispCur := rfl
@[simp] theorem State.syncStart_running (n f : Word32) : (s.syncStart n f).running = s.running := rfl
@[simp] theorem State.syncStart_dumpActive (n f : Word32) : (s.syncStart n f).dumpActive = s.dumpActive := rfl
@[simp] theorem State.syncStart_dumpTarget (n f : Word32) : (s.syncStart n f).dumpTarget = s.dumpTarget := rfl
@[simp] theorem State.syncStart_dumpIdx (n f : Word32) : (s.syncStart n f).dumpIdx = s.dumpIdx := rfl
@[simp] theorem State.syncStart_opState (n f : Word32) : (s.syncStart n f).opState = s.opState := rfl
@[simp] theorem State.syncStart_opCmd (n f : Word32) : (s.syncStart n f).opCmd = s.opCmd := rfl
@[simp] theorem State.syncStart_opPolled (n f : Word32) : (s.syncStart n f).opPolled = s.opPolled := rfl
@[simp] theorem State.syncStart_opRead (n f : Word32) : (s.syncStart n f).opRead = s.opRead := rfl
@[simp] theorem State.syncStart_opEvent (n f : Word32) : (s.syncStart n f).opEvent = s.opEvent := rfl
@[simp] theorem State.syncStart_syState (n f : Word32) : (s.syncStart n f).syState = .prime := rfl
@[simp] theorem State.syncStart_syIdx (n f : Word32) : (s.syncStart n f).syIdx = 0 := rfl
@[simp] theorem State.syncStart_syCnt (n f : Word32) : (s.syncStart n f).syCnt = 0#33 := rfl
@[simp] theorem State.syncStart_sySum (n f : Word32) : (s.syncStart n f).sySum = NUM.zero := rfl
@[simp] theorem State.syncStart_syNull (n f : Word32) : (s.syncStart n f).syNull = n := rfl
@[simp] theorem State.syncStart_syFrame (n f : Word32) : (s.syncStart n f).syFrame = f := rfl
@[simp] theorem State.syncStart_env (n f : Word32) : (s.syncStart n f).env = s.env := rfl
@[simp] theorem State.syncStart_dispBuf (n f : Word32) : (s.syncStart n f).dispBuf = s.dispBuf := rfl
@[simp] theorem State.syncStart_dumpBuf (n f : Word32) : (s.syncStart n f).dumpBuf = s.dumpBuf := rfl
@[simp] theorem State.syncStart_dev (n f : Word32) : (s.syncStart n f).dev = s.dev := rfl
@[simp] theorem State.syncStart_cmdP (n f : Word32) : (s.syncStart n f).cmdP = s.cmdP := rfl
@[simp] theorem State.syncStart_cmdC (n f : Word32) : (s.syncStart n f).cmdC = s.cmdC := rfl
@[simp] theorem State.syncStart_sched (n f : Word32) : (s.syncStart n f).sched = s.sched := rfl
@[simp] theorem State.syncStart_turns (n f : Word32) : (s.syncStart n f).turns = s.turns := rfl
@[simp] theorem State.syncStart_draw (n f : Word32) : (s.syncStart n f).draw = s.draw := rfl
@[simp] theorem State.syncStart_out (n f : Word32) : (s.syncStart n f).out = s.out := rfl

@[simp] theorem State.syncFinish_cfg (st : Status) : (s.syncFinish st).cfg = s.cfg := rfl
@[simp] theorem State.syncFinish_phase (st : Status) : (s.syncFinish st).phase = s.phase := rfl
@[simp] theorem State.syncFinish_level (st : Status) : (s.syncFinish st).level = s.level := rfl
@[simp] theorem State.syncFinish_corr (st : Status) : (s.syncFinish st).corr = s.corr := rfl
@[simp] theorem State.syncFinish_scount (st : Status) : (s.syncFinish st).scount = s.scount := rfl
@[simp] theorem State.syncFinish_dispCur (st : Status) : (s.syncFinish st).dispCur = s.dispCur := rfl
@[simp] theorem State.syncFinish_running (st : Status) : (s.syncFinish st).running = s.running := rfl
@[simp] theorem State.syncFinish_dumpActive (st : Status) : (s.syncFinish st).dumpActive = s.dumpActive := rfl
@[simp] theorem State.syncFinish_dumpTarget (st : Status) : (s.syncFinish st).dumpTarget = s.dumpTarget := rfl
@[simp] theorem State.syncFinish_dumpIdx (st : Status) : (s.syncFinish st).dumpIdx = s.dumpIdx := rfl
@[simp] theorem State.syncFinish_opState (st : Status) : (s.syncFinish st).opState = .idle := rfl
@[simp] theorem State.syncFinish_opCmd (st : Status) : (s.syncFinish st).opCmd = s.opCmd := rfl
@[simp] theorem State.syncFinish_opPolled (st : Status) : (s.syncFinish st).opPolled = false := rfl
@[simp] theorem State.syncFinish_opRead (st : Status) : (s.syncFinish st).opRead = none := rfl
@[simp] theorem State.syncFinish_opEvent (st : Status) : (s.syncFinish st).opEvent = none := rfl
@[simp] theorem State.syncFinish_syState (st : Status) : (s.syncFinish st).syState = .idle := rfl
@[simp] theorem State.syncFinish_syIdx (st : Status) : (s.syncFinish st).syIdx = s.syIdx := rfl
@[simp] theorem State.syncFinish_syCnt (st : Status) : (s.syncFinish st).syCnt = s.syCnt := rfl
@[simp] theorem State.syncFinish_sySum (st : Status) : (s.syncFinish st).sySum = s.sySum := rfl
@[simp] theorem State.syncFinish_syNull (st : Status) : (s.syncFinish st).syNull = s.syNull := rfl
@[simp] theorem State.syncFinish_syFrame (st : Status) : (s.syncFinish st).syFrame = s.syFrame := rfl
@[simp] theorem State.syncFinish_env (st : Status) : (s.syncFinish st).env = s.env := rfl
@[simp] theorem State.syncFinish_dispBuf (st : Status) : (s.syncFinish st).dispBuf = s.dispBuf := rfl
@[simp] theorem State.syncFinish_dumpBuf (st : Status) : (s.syncFinish st).dumpBuf = s.dumpBuf := rfl
@[simp] theorem State.syncFinish_dev (st : Status) : (s.syncFinish st).dev = s.dev := rfl
@[simp] theorem State.syncFinish_cmdP (st : Status) : (s.syncFinish st).cmdP = s.cmdP := rfl
@[simp] theorem State.syncFinish_cmdC (st : Status) : (s.syncFinish st).cmdC = s.cmdC := rfl
@[simp] theorem State.syncFinish_sched (st : Status) : (s.syncFinish st).sched = s.sched := rfl
@[simp] theorem State.syncFinish_turns (st : Status) : (s.syncFinish st).turns = s.turns := rfl
@[simp] theorem State.syncFinish_draw (st : Status) : (s.syncFinish st).draw = s.draw := rfl
@[simp] theorem State.syncFinish_out (st : Status) : (s.syncFinish st).out = s.out ++ [.rsp .P (responseWord 0x03#8 st 0#32 0#32)] := rfl

@[simp] theorem State.slide_cfg (g : F32) : (s.slide g).cfg = s.cfg := rfl
@[simp] theorem State.slide_phase (g : F32) : (s.slide g).phase = s.phase := rfl
@[simp] theorem State.slide_level (g : F32) : (s.slide g).level = s.level := rfl
@[simp] theorem State.slide_corr (g : F32) : (s.slide g).corr = s.corr := rfl
@[simp] theorem State.slide_scount (g : F32) : (s.slide g).scount = s.scount := rfl
@[simp] theorem State.slide_dispCur (g : F32) : (s.slide g).dispCur = s.dispCur := rfl
@[simp] theorem State.slide_running (g : F32) : (s.slide g).running = s.running := rfl
@[simp] theorem State.slide_dumpActive (g : F32) : (s.slide g).dumpActive = s.dumpActive := rfl
@[simp] theorem State.slide_dumpTarget (g : F32) : (s.slide g).dumpTarget = s.dumpTarget := rfl
@[simp] theorem State.slide_dumpIdx (g : F32) : (s.slide g).dumpIdx = s.dumpIdx := rfl
@[simp] theorem State.slide_opState (g : F32) : (s.slide g).opState = s.opState := rfl
@[simp] theorem State.slide_opCmd (g : F32) : (s.slide g).opCmd = s.opCmd := rfl
@[simp] theorem State.slide_opPolled (g : F32) : (s.slide g).opPolled = s.opPolled := rfl
@[simp] theorem State.slide_opRead (g : F32) : (s.slide g).opRead = s.opRead := rfl
@[simp] theorem State.slide_opEvent (g : F32) : (s.slide g).opEvent = s.opEvent := rfl
@[simp] theorem State.slide_syState (g : F32) : (s.slide g).syState = s.syState := rfl
@[simp] theorem State.slide_syIdx (g : F32) : (s.slide g).syIdx = nextIdx s.syIdx := rfl
@[simp] theorem State.slide_syCnt (g : F32) : (s.slide g).syCnt = s.syCnt := rfl
@[simp] theorem State.slide_sySum (g : F32) : (s.slide g).sySum = s.cfg.NUM.add (s.cfg.NUM.sub s.sySum ((s.env.read s.syIdx.val).getD (Config.freeEnv s.syIdx.val))) g := rfl
@[simp] theorem State.slide_syNull (g : F32) : (s.slide g).syNull = s.syNull := rfl
@[simp] theorem State.slide_syFrame (g : F32) : (s.slide g).syFrame = s.syFrame := rfl
@[simp] theorem State.slide_env (g : F32) : (s.slide g).env = s.env.write s.syIdx.val g := rfl
@[simp] theorem State.slide_dispBuf (g : F32) : (s.slide g).dispBuf = s.dispBuf := rfl
@[simp] theorem State.slide_dumpBuf (g : F32) : (s.slide g).dumpBuf = s.dumpBuf := rfl
@[simp] theorem State.slide_dev (g : F32) : (s.slide g).dev = s.dev := rfl
@[simp] theorem State.slide_cmdP (g : F32) : (s.slide g).cmdP = s.cmdP := rfl
@[simp] theorem State.slide_cmdC (g : F32) : (s.slide g).cmdC = s.cmdC := rfl
@[simp] theorem State.slide_sched (g : F32) : (s.slide g).sched = s.sched := rfl
@[simp] theorem State.slide_turns (g : F32) : (s.slide g).turns = s.turns := rfl
@[simp] theorem State.slide_draw (g : F32) : (s.slide g).draw = s.draw := rfl
@[simp] theorem State.slide_out (g : F32) : (s.slide g).out = s.out := rfl

@[simp] theorem State.passTurn_cfg : (s.passTurn).cfg = s.cfg := rfl
@[simp] theorem State.passTurn_phase : (s.passTurn).phase = s.phase := rfl
@[simp] theorem State.passTurn_level : (s.passTurn).level = s.level := rfl
@[simp] theorem State.passTurn_corr : (s.passTurn).corr = s.corr := rfl
@[simp] theorem State.passTurn_scount : (s.passTurn).scount = s.scount := rfl
@[simp] theorem State.passTurn_dispCur : (s.passTurn).dispCur = s.dispCur := rfl
@[simp] theorem State.passTurn_running : (s.passTurn).running = s.running := rfl
@[simp] theorem State.passTurn_dumpActive : (s.passTurn).dumpActive = s.dumpActive := rfl
@[simp] theorem State.passTurn_dumpTarget : (s.passTurn).dumpTarget = s.dumpTarget := rfl
@[simp] theorem State.passTurn_dumpIdx : (s.passTurn).dumpIdx = s.dumpIdx := rfl
@[simp] theorem State.passTurn_opState : (s.passTurn).opState = s.opState := rfl
@[simp] theorem State.passTurn_opCmd : (s.passTurn).opCmd = s.opCmd := rfl
@[simp] theorem State.passTurn_opPolled : (s.passTurn).opPolled = s.opPolled := rfl
@[simp] theorem State.passTurn_opRead : (s.passTurn).opRead = s.opRead := rfl
@[simp] theorem State.passTurn_opEvent : (s.passTurn).opEvent = s.opEvent := rfl
@[simp] theorem State.passTurn_syState : (s.passTurn).syState = s.syState := rfl
@[simp] theorem State.passTurn_syIdx : (s.passTurn).syIdx = s.syIdx := rfl
@[simp] theorem State.passTurn_syCnt : (s.passTurn).syCnt = s.syCnt := rfl
@[simp] theorem State.passTurn_sySum : (s.passTurn).sySum = s.sySum := rfl
@[simp] theorem State.passTurn_syNull : (s.passTurn).syNull = s.syNull := rfl
@[simp] theorem State.passTurn_syFrame : (s.passTurn).syFrame = s.syFrame := rfl
@[simp] theorem State.passTurn_env : (s.passTurn).env = s.env := rfl
@[simp] theorem State.passTurn_dispBuf : (s.passTurn).dispBuf = s.dispBuf := rfl
@[simp] theorem State.passTurn_dumpBuf : (s.passTurn).dumpBuf = s.dumpBuf := rfl
@[simp] theorem State.passTurn_dev : (s.passTurn).dev = s.dev := rfl
@[simp] theorem State.passTurn_cmdP : (s.passTurn).cmdP = s.cmdP := rfl
@[simp] theorem State.passTurn_cmdC : (s.passTurn).cmdC = s.cmdC := rfl
@[simp] theorem State.passTurn_sched : (s.passTurn).sched = s.sched.tail := rfl
@[simp] theorem State.passTurn_turns : (s.passTurn).turns = s.turns + 1 := rfl
@[simp] theorem State.passTurn_draw : (s.passTurn).draw = s.draw := rfl
@[simp] theorem State.passTurn_out : (s.passTurn).out = s.out := rfl

@[simp] theorem State.devAppend_cfg (xs : List Cplx) : (s.devAppend xs).cfg = s.cfg := rfl
@[simp] theorem State.devAppend_phase (xs : List Cplx) : (s.devAppend xs).phase = s.phase := rfl
@[simp] theorem State.devAppend_level (xs : List Cplx) : (s.devAppend xs).level = s.level := rfl
@[simp] theorem State.devAppend_corr (xs : List Cplx) : (s.devAppend xs).corr = s.corr := rfl
@[simp] theorem State.devAppend_scount (xs : List Cplx) : (s.devAppend xs).scount = s.scount := rfl
@[simp] theorem State.devAppend_dispCur (xs : List Cplx) : (s.devAppend xs).dispCur = s.dispCur := rfl
@[simp] theorem State.devAppend_running (xs : List Cplx) : (s.devAppend xs).running = s.running := rfl
@[simp] theorem State.devAppend_dumpActive (xs : List Cplx) : (s.devAppend xs).dumpActive = s.dumpActive := rfl
@[simp] theorem State.devAppend_dumpTarget (xs : List Cplx) : (s.devAppend xs).dumpTarget = s.dumpTarget := rfl
@[simp] theorem State.devAppend_dumpIdx (xs : List Cplx) : (s.devAppend xs).dumpIdx = s.dumpIdx := rfl
@[simp] theorem State.devAppend_opState (xs : List Cplx) : (s.devAppend xs).opState = s.opState := rfl
@[simp] theorem State.devAppend_opCmd (xs : List Cplx) : (s.devAppend xs).opCmd = s.opCmd := rfl
@[simp] theorem State.devAppend_opPolled (xs : List Cplx) : (s.devAppend xs).opPolled = s.opPolled := rfl
@[simp] theorem State.devAppend_opRead (xs : List Cplx) : (s.devAppend xs).opRead = s.opRead := rfl
@[simp] theorem State.devAppend_opEvent (xs : List Cplx) : (s.devAppend xs).opEvent = s.opEvent := rfl
@[simp] theorem State.devAppend_syState (xs : List Cplx) : (s.devAppend xs).syState = s.syState := rfl
@[simp] theorem State.devAppend_syIdx (xs : List Cplx) : (s.devAppend xs).syIdx = s.syIdx := rfl
@[simp] theorem State.devAppend_syCnt (xs : List Cplx) : (s.devAppend xs).syCnt = s.syCnt := rfl
@[simp] theorem State.devAppend_sySum (xs : List Cplx) : (s.devAppend xs).sySum = s.sySum := rfl
@[simp] theorem State.devAppend_syNull (xs : List Cplx) : (s.devAppend xs).syNull = s.syNull := rfl
@[simp] theorem State.devAppend_syFrame (xs : List Cplx) : (s.devAppend xs).syFrame = s.syFrame := rfl
@[simp] theorem State.devAppend_env (xs : List Cplx) : (s.devAppend xs).env = s.env := rfl
@[simp] theorem State.devAppend_dispBuf (xs : List Cplx) : (s.devAppend xs).dispBuf = s.dispBuf := rfl
@[simp] theorem State.devAppend_dumpBuf (xs : List Cplx) : (s.devAppend xs).dumpBuf = s.dumpBuf := rfl
@[simp] theorem State.devAppend_dev (xs : List Cplx) : (s.devAppend xs).dev = s.dev ++ xs := rfl
@[simp] theorem State.devAppend_cmdP (xs : List Cplx) : (s.devAppend xs).cmdP = s.cmdP := rfl
@[simp] theorem State.devAppend_cmdC (xs : List Cplx) : (s.devAppend xs).cmdC = s.cmdC := rfl
@[simp] theorem State.devAppend_sched (xs : List Cplx) : (s.devAppend xs).sched = s.sched := rfl
@[simp] theorem State.devAppend_turns (xs : List Cplx) : (s.devAppend xs).turns = s.turns := rfl
@[simp] theorem State.devAppend_draw (xs : List Cplx) : (s.devAppend xs).draw = s.draw := rfl
@[simp] theorem State.devAppend_out (xs : List Cplx) : (s.devAppend xs).out = s.out := rfl

@[simp] theorem State.restoreDatapath_cfg : (s.restoreDatapath).cfg = s.cfg := rfl
@[simp] theorem State.restoreDatapath_phase : (s.restoreDatapath).phase = 0#32 := rfl
@[simp] theorem State.restoreDatapath_level : (s.restoreDatapath).level = NUM.zero := rfl
@[simp] theorem State.restoreDatapath_corr : (s.restoreDatapath).corr = 0#32 := rfl
@[simp] theorem State.restoreDatapath_scount : (s.restoreDatapath).scount = 0#32 := rfl
@[simp] theorem State.restoreDatapath_dispCur : (s.restoreDatapath).dispCur = 0#32 := rfl
@[simp] theorem State.restoreDatapath_running : (s.restoreDatapath).running = s.running := rfl
@[simp] theorem State.restoreDatapath_dumpActive : (s.restoreDatapath).dumpActive = s.dumpActive := rfl
@[simp] theorem State.restoreDatapath_dumpTarget : (s.restoreDatapath).dumpTarget = s.dumpTarget := rfl
@[simp] theorem State.restoreDatapath_dumpIdx : (s.restoreDatapath).dumpIdx = s.dumpIdx := rfl
@[simp] theorem State.restoreDatapath_opState : (s.restoreDatapath).opState = s.opState := rfl
@[simp] theorem State.restoreDatapath_opCmd : (s.restoreDatapath).opCmd = s.opCmd := rfl
@[simp] theorem State.restoreDatapath_opPolled : (s.restoreDatapath).opPolled = s.opPolled := rfl
@[simp] theorem State.restoreDatapath_opRead : (s.restoreDatapath).opRead = s.opRead := rfl
@[simp] theorem State.restoreDatapath_opEvent : (s.restoreDatapath).opEvent = s.opEvent := rfl
@[simp] theorem State.restoreDatapath_syState : (s.restoreDatapath).syState = s.syState := rfl
@[simp] theorem State.restoreDatapath_syIdx : (s.restoreDatapath).syIdx = s.syIdx := rfl
@[simp] theorem State.restoreDatapath_syCnt : (s.restoreDatapath).syCnt = s.syCnt := rfl
@[simp] theorem State.restoreDatapath_sySum : (s.restoreDatapath).sySum = s.sySum := rfl
@[simp] theorem State.restoreDatapath_syNull : (s.restoreDatapath).syNull = s.syNull := rfl
@[simp] theorem State.restoreDatapath_syFrame : (s.restoreDatapath).syFrame = s.syFrame := rfl
@[simp] theorem State.restoreDatapath_env : (s.restoreDatapath).env = [] := rfl
@[simp] theorem State.restoreDatapath_dispBuf : (s.restoreDatapath).dispBuf = [] := rfl
@[simp] theorem State.restoreDatapath_dumpBuf : (s.restoreDatapath).dumpBuf = s.dumpBuf := rfl
@[simp] theorem State.restoreDatapath_dev : (s.restoreDatapath).dev = s.dev := rfl
@[simp] theorem State.restoreDatapath_cmdP : (s.restoreDatapath).cmdP = s.cmdP := rfl
@[simp] theorem State.restoreDatapath_cmdC : (s.restoreDatapath).cmdC = s.cmdC := rfl
@[simp] theorem State.restoreDatapath_sched : (s.restoreDatapath).sched = s.sched := rfl
@[simp] theorem State.restoreDatapath_turns : (s.restoreDatapath).turns = s.turns := rfl
@[simp] theorem State.restoreDatapath_draw : (s.restoreDatapath).draw = s.draw := rfl
@[simp] theorem State.restoreDatapath_out : (s.restoreDatapath).out = s.out := rfl

@[simp] theorem State.restoreDump_cfg : (s.restoreDump).cfg = s.cfg := rfl
@[simp] theorem State.restoreDump_phase : (s.restoreDump).phase = s.phase := rfl
@[simp] theorem State.restoreDump_level : (s.restoreDump).level = s.level := rfl
@[simp] theorem State.restoreDump_corr : (s.restoreDump).corr = s.corr := rfl
@[simp] theorem State.restoreDump_scount : (s.restoreDump).scount = s.scount := rfl
@[simp] theorem State.restoreDump_dispCur : (s.restoreDump).dispCur = s.dispCur := rfl
@[simp] theorem State.restoreDump_running : (s.restoreDump).running = s.running := rfl
@[simp] theorem State.restoreDump_dumpActive : (s.restoreDump).dumpActive = false := rfl
@[simp] theorem State.restoreDump_dumpTarget : (s.restoreDump).dumpTarget = 0#32 := rfl
@[simp] theorem State.restoreDump_dumpIdx : (s.restoreDump).dumpIdx = 0 := rfl
@[simp] theorem State.restoreDump_opState : (s.restoreDump).opState = s.opState := rfl
@[simp] theorem State.restoreDump_opCmd : (s.restoreDump).opCmd = s.opCmd := rfl
@[simp] theorem State.restoreDump_opPolled : (s.restoreDump).opPolled = s.opPolled := rfl
@[simp] theorem State.restoreDump_opRead : (s.restoreDump).opRead = s.opRead := rfl
@[simp] theorem State.restoreDump_opEvent : (s.restoreDump).opEvent = s.opEvent := rfl
@[simp] theorem State.restoreDump_syState : (s.restoreDump).syState = s.syState := rfl
@[simp] theorem State.restoreDump_syIdx : (s.restoreDump).syIdx = s.syIdx := rfl
@[simp] theorem State.restoreDump_syCnt : (s.restoreDump).syCnt = s.syCnt := rfl
@[simp] theorem State.restoreDump_sySum : (s.restoreDump).sySum = s.sySum := rfl
@[simp] theorem State.restoreDump_syNull : (s.restoreDump).syNull = s.syNull := rfl
@[simp] theorem State.restoreDump_syFrame : (s.restoreDump).syFrame = s.syFrame := rfl
@[simp] theorem State.restoreDump_env : (s.restoreDump).env = s.env := rfl
@[simp] theorem State.restoreDump_dispBuf : (s.restoreDump).dispBuf = s.dispBuf := rfl
@[simp] theorem State.restoreDump_dumpBuf : (s.restoreDump).dumpBuf = [] := rfl
@[simp] theorem State.restoreDump_dev : (s.restoreDump).dev = s.dev := rfl
@[simp] theorem State.restoreDump_cmdP : (s.restoreDump).cmdP = s.cmdP := rfl
@[simp] theorem State.restoreDump_cmdC : (s.restoreDump).cmdC = s.cmdC := rfl
@[simp] theorem State.restoreDump_sched : (s.restoreDump).sched = s.sched := rfl
@[simp] theorem State.restoreDump_turns : (s.restoreDump).turns = s.turns := rfl
@[simp] theorem State.restoreDump_draw : (s.restoreDump).draw = s.draw := rfl
@[simp] theorem State.restoreDump_out : (s.restoreDump).out = s.out := rfl

@[simp] theorem State.beginReset_cfg : (s.beginReset).cfg = s.cfg := rfl
@[simp] theorem State.beginReset_phase : (s.beginReset).phase = s.phase := rfl
@[simp] theorem State.beginReset_level : (s.beginReset).level = s.level := rfl
@[simp] theorem State.beginReset_corr : (s.beginReset).corr = s.corr := rfl
@[simp] theorem State.beginReset_scount : (s.beginReset).scount = s.scount := rfl
@[simp] theorem State.beginReset_dispCur : (s.beginReset).dispCur = s.dispCur := rfl
@[simp] theorem State.beginReset_running : (s.beginReset).running = s.running := rfl
@[simp] theorem State.beginReset_dumpActive : (s.beginReset).dumpActive = s.dumpActive := rfl
@[simp] theorem State.beginReset_dumpTarget : (s.beginReset).dumpTarget = s.dumpTarget := rfl
@[simp] theorem State.beginReset_dumpIdx : (s.beginReset).dumpIdx = s.dumpIdx := rfl
@[simp] theorem State.beginReset_opState : (s.beginReset).opState = .run := rfl
@[simp] theorem State.beginReset_opCmd : (s.beginReset).opCmd = s.opCmd := rfl
@[simp] theorem State.beginReset_opPolled : (s.beginReset).opPolled = false := rfl
@[simp] theorem State.beginReset_opRead : (s.beginReset).opRead = none := rfl
@[simp] theorem State.beginReset_opEvent : (s.beginReset).opEvent = none := rfl
@[simp] theorem State.beginReset_syState : (s.beginReset).syState = s.syState := rfl
@[simp] theorem State.beginReset_syIdx : (s.beginReset).syIdx = s.syIdx := rfl
@[simp] theorem State.beginReset_syCnt : (s.beginReset).syCnt = s.syCnt := rfl
@[simp] theorem State.beginReset_sySum : (s.beginReset).sySum = s.sySum := rfl
@[simp] theorem State.beginReset_syNull : (s.beginReset).syNull = s.syNull := rfl
@[simp] theorem State.beginReset_syFrame : (s.beginReset).syFrame = s.syFrame := rfl
@[simp] theorem State.beginReset_env : (s.beginReset).env = s.env := rfl
@[simp] theorem State.beginReset_dispBuf : (s.beginReset).dispBuf = s.dispBuf := rfl
@[simp] theorem State.beginReset_dumpBuf : (s.beginReset).dumpBuf = s.dumpBuf := rfl
@[simp] theorem State.beginReset_dev : (s.beginReset).dev = s.dev := rfl
@[simp] theorem State.beginReset_cmdP : (s.beginReset).cmdP = s.cmdP := rfl
@[simp] theorem State.beginReset_cmdC : (s.beginReset).cmdC = s.cmdC := rfl
@[simp] theorem State.beginReset_sched : (s.beginReset).sched = s.sched := rfl
@[simp] theorem State.beginReset_turns : (s.beginReset).turns = s.turns := rfl
@[simp] theorem State.beginReset_draw : (s.beginReset).draw = s.draw := rfl
@[simp] theorem State.beginReset_out : (s.beginReset).out = s.out := rfl

@[simp] theorem State.finishReset_cfg : (s.finishReset).cfg = s.cfg := rfl
@[simp] theorem State.finishReset_phase : (s.finishReset).phase = s.phase := rfl
@[simp] theorem State.finishReset_level : (s.finishReset).level = s.level := rfl
@[simp] theorem State.finishReset_corr : (s.finishReset).corr = s.corr := rfl
@[simp] theorem State.finishReset_scount : (s.finishReset).scount = s.scount := rfl
@[simp] theorem State.finishReset_dispCur : (s.finishReset).dispCur = s.dispCur := rfl
@[simp] theorem State.finishReset_running : (s.finishReset).running = s.running := rfl
@[simp] theorem State.finishReset_dumpActive : (s.finishReset).dumpActive = s.dumpActive := rfl
@[simp] theorem State.finishReset_dumpTarget : (s.finishReset).dumpTarget = s.dumpTarget := rfl
@[simp] theorem State.finishReset_dumpIdx : (s.finishReset).dumpIdx = s.dumpIdx := rfl
@[simp] theorem State.finishReset_opState : (s.finishReset).opState = .idle := rfl
@[simp] theorem State.finishReset_opCmd : (s.finishReset).opCmd = s.opCmd := rfl
@[simp] theorem State.finishReset_opPolled : (s.finishReset).opPolled = false := rfl
@[simp] theorem State.finishReset_opRead : (s.finishReset).opRead = none := rfl
@[simp] theorem State.finishReset_opEvent : (s.finishReset).opEvent = none := rfl
@[simp] theorem State.finishReset_syState : (s.finishReset).syState = .idle := rfl
@[simp] theorem State.finishReset_syIdx : (s.finishReset).syIdx = s.syIdx := rfl
@[simp] theorem State.finishReset_syCnt : (s.finishReset).syCnt = s.syCnt := rfl
@[simp] theorem State.finishReset_sySum : (s.finishReset).sySum = s.sySum := rfl
@[simp] theorem State.finishReset_syNull : (s.finishReset).syNull = s.syNull := rfl
@[simp] theorem State.finishReset_syFrame : (s.finishReset).syFrame = s.syFrame := rfl
@[simp] theorem State.finishReset_env : (s.finishReset).env = s.env := rfl
@[simp] theorem State.finishReset_dispBuf : (s.finishReset).dispBuf = s.dispBuf := rfl
@[simp] theorem State.finishReset_dumpBuf : (s.finishReset).dumpBuf = s.dumpBuf := rfl
@[simp] theorem State.finishReset_dev : (s.finishReset).dev = s.dev := rfl
@[simp] theorem State.finishReset_cmdP : (s.finishReset).cmdP = s.cmdP := rfl
@[simp] theorem State.finishReset_cmdC : (s.finishReset).cmdC = s.cmdC := rfl
@[simp] theorem State.finishReset_sched : (s.finishReset).sched = s.sched := rfl
@[simp] theorem State.finishReset_turns : (s.finishReset).turns = s.turns := rfl
@[simp] theorem State.finishReset_draw : (s.finishReset).draw = s.draw := rfl
@[simp] theorem State.finishReset_out : (s.finishReset).out = s.out ++ [.rsp .P (responseWord 0x04#8 .ok 0#32 0#32)] := rfl

@[simp] theorem State.restore_cfg : (s.restore).cfg = s.cfg := rfl
@[simp] theorem State.restore_phase : (s.restore).phase = 0#32 := rfl
@[simp] theorem State.restore_level : (s.restore).level = NUM.zero := rfl
@[simp] theorem State.restore_corr : (s.restore).corr = 0#32 := rfl
@[simp] theorem State.restore_scount : (s.restore).scount = 0#32 := rfl
@[simp] theorem State.restore_dispCur : (s.restore).dispCur = 0#32 := rfl
@[simp] theorem State.restore_running : (s.restore).running = s.running := rfl
@[simp] theorem State.restore_dumpActive : (s.restore).dumpActive = false := rfl
@[simp] theorem State.restore_dumpTarget : (s.restore).dumpTarget = 0#32 := rfl
@[simp] theorem State.restore_dumpIdx : (s.restore).dumpIdx = 0 := rfl
@[simp] theorem State.restore_opState : (s.restore).opState = .idle := rfl
@[simp] theorem State.restore_opCmd : (s.restore).opCmd = s.opCmd := rfl
@[simp] theorem State.restore_opPolled : (s.restore).opPolled = false := rfl
@[simp] theorem State.restore_opRead : (s.restore).opRead = none := rfl
@[simp] theorem State.restore_opEvent : (s.restore).opEvent = none := rfl
@[simp] theorem State.restore_syState : (s.restore).syState = .idle := rfl
@[simp] theorem State.restore_syIdx : (s.restore).syIdx = s.syIdx := rfl
@[simp] theorem State.restore_syCnt : (s.restore).syCnt = s.syCnt := rfl
@[simp] theorem State.restore_sySum : (s.restore).sySum = s.sySum := rfl
@[simp] theorem State.restore_syNull : (s.restore).syNull = s.syNull := rfl
@[simp] theorem State.restore_syFrame : (s.restore).syFrame = s.syFrame := rfl
@[simp] theorem State.restore_env : (s.restore).env = [] := rfl
@[simp] theorem State.restore_dispBuf : (s.restore).dispBuf = [] := rfl
@[simp] theorem State.restore_dumpBuf : (s.restore).dumpBuf = [] := rfl
@[simp] theorem State.restore_dev : (s.restore).dev = s.dev := rfl
@[simp] theorem State.restore_cmdP : (s.restore).cmdP = s.cmdP := rfl
@[simp] theorem State.restore_cmdC : (s.restore).cmdC = s.cmdC := rfl
@[simp] theorem State.restore_sched : (s.restore).sched = s.sched := rfl
@[simp] theorem State.restore_turns : (s.restore).turns = s.turns := rfl
@[simp] theorem State.restore_draw : (s.restore).draw = s.draw := rfl
@[simp] theorem State.restore_out : (s.restore).out = s.out := rfl

/-- `flushDump` writes only dumpIdx, out. -/
@[simp] theorem State.flushDump_frame :
    (s.flushDump).cfg = s.cfg ∧
    (s.flushDump).phase = s.phase ∧
    (s.flushDump).level = s.level ∧
    (s.flushDump).corr = s.corr ∧
    (s.flushDump).scount = s.scount ∧
    (s.flushDump).dispCur = s.dispCur ∧
    (s.flushDump).running = s.running ∧
    (s.flushDump).dumpActive = s.dumpActive ∧
    (s.flushDump).dumpTarget = s.dumpTarget ∧
    (s.flushDump).opState = s.opState ∧
    (s.flushDump).opCmd = s.opCmd ∧
    (s.flushDump).opPolled = s.opPolled ∧
    (s.flushDump).opRead = s.opRead ∧
    (s.flushDump).opEvent = s.opEvent ∧
    (s.flushDump).syState = s.syState ∧
    (s.flushDump).syIdx = s.syIdx ∧
    (s.flushDump).syCnt = s.syCnt ∧
    (s.flushDump).sySum = s.sySum ∧
    (s.flushDump).syNull = s.syNull ∧
    (s.flushDump).syFrame = s.syFrame ∧
    (s.flushDump).env = s.env ∧
    (s.flushDump).dispBuf = s.dispBuf ∧
    (s.flushDump).dumpBuf = s.dumpBuf ∧
    (s.flushDump).dev = s.dev ∧
    (s.flushDump).cmdP = s.cmdP ∧
    (s.flushDump).cmdC = s.cmdC ∧
    (s.flushDump).sched = s.sched ∧
    (s.flushDump).turns = s.turns ∧
    (s.flushDump).draw = s.draw := by
  unfold State.flushDump; split <;> simp

/-- `dumpStep` writes only dumpIdx, dumpBuf, out. -/
@[simp] theorem State.dumpStep_frame (raw : Cplx) :
    (s.dumpStep raw).cfg = s.cfg ∧
    (s.dumpStep raw).phase = s.phase ∧
    (s.dumpStep raw).level = s.level ∧
    (s.dumpStep raw).corr = s.corr ∧
    (s.dumpStep raw).scount = s.scount ∧
    (s.dumpStep raw).dispCur = s.dispCur ∧
    (s.dumpStep raw).running = s.running ∧
    (s.dumpStep raw).dumpActive = s.dumpActive ∧
    (s.dumpStep raw).dumpTarget = s.dumpTarget ∧
    (s.dumpStep raw).opState = s.opState ∧
    (s.dumpStep raw).opCmd = s.opCmd ∧
    (s.dumpStep raw).opPolled = s.opPolled ∧
    (s.dumpStep raw).opRead = s.opRead ∧
    (s.dumpStep raw).opEvent = s.opEvent ∧
    (s.dumpStep raw).syState = s.syState ∧
    (s.dumpStep raw).syIdx = s.syIdx ∧
    (s.dumpStep raw).syCnt = s.syCnt ∧
    (s.dumpStep raw).sySum = s.sySum ∧
    (s.dumpStep raw).syNull = s.syNull ∧
    (s.dumpStep raw).syFrame = s.syFrame ∧
    (s.dumpStep raw).env = s.env ∧
    (s.dumpStep raw).dispBuf = s.dispBuf ∧
    (s.dumpStep raw).dev = s.dev ∧
    (s.dumpStep raw).cmdP = s.cmdP ∧
    (s.dumpStep raw).cmdC = s.cmdC ∧
    (s.dumpStep raw).sched = s.sched ∧
    (s.dumpStep raw).turns = s.turns ∧
    (s.dumpStep raw).draw = s.draw := by
  unfold State.dumpStep; split <;> [skip; simp]; dsimp only; split <;> simp

/-- `displayStep` writes only dispCur, dispBuf. -/
@[simp] theorem State.displayStep_frame (raw : Cplx) :
    (s.displayStep raw).cfg = s.cfg ∧
    (s.displayStep raw).phase = s.phase ∧
    (s.displayStep raw).level = s.level ∧
    (s.displayStep raw).corr = s.corr ∧
    (s.displayStep raw).scount = s.scount ∧
    (s.displayStep raw).running = s.running ∧
    (s.displayStep raw).dumpActive = s.dumpActive ∧
    (s.displayStep raw).dumpTarget = s.dumpTarget ∧
    (s.displayStep raw).dumpIdx = s.dumpIdx ∧
    (s.displayStep raw).opState = s.opState ∧
    (s.displayStep raw).opCmd = s.opCmd ∧
    (s.displayStep raw).opPolled = s.opPolled ∧
    (s.displayStep raw).opRead = s.opRead ∧
    (s.displayStep raw).opEvent = s.opEvent ∧
    (s.displayStep raw).syState = s.syState ∧
    (s.displayStep raw).syIdx = s.syIdx ∧
    (s.displayStep raw).syCnt = s.syCnt ∧
    (s.displayStep raw).sySum = s.sySum ∧
    (s.displayStep raw).syNull = s.syNull ∧
    (s.displayStep raw).syFrame = s.syFrame ∧
    (s.displayStep raw).env = s.env ∧
    (s.displayStep raw).dumpBuf = s.dumpBuf ∧
    (s.displayStep raw).dev = s.dev ∧
    (s.displayStep raw).cmdP = s.cmdP ∧
    (s.displayStep raw).cmdC = s.cmdC ∧
    (s.displayStep raw).sched = s.sched ∧
    (s.displayStep raw).turns = s.turns ∧
    (s.displayStep raw).draw = s.draw ∧
    (s.displayStep raw).out = s.out := by
  unfold State.displayStep; split <;> simp

/-- `notify` writes only out. -/
@[simp] theorem State.notify_frame :
    (s.notify).cfg = s.cfg ∧
    (s.notify).phase = s.phase ∧
    (s.notify).level = s.level ∧
    (s.notify).corr = s.corr ∧
    (s.notify).scount = s.scount ∧
    (s.notify).dispCur = s.dispCur ∧
    (s.notify).running = s.running ∧
    (s.notify).dumpActive = s.dumpActive ∧
    (s.notify).dumpTarget = s.dumpTarget ∧
    (s.notify).dumpIdx = s.dumpIdx ∧
    (s.notify).opState = s.opState ∧
    (s.notify).opCmd = s.opCmd ∧
    (s.notify).opPolled = s.opPolled ∧
    (s.notify).opRead = s.opRead ∧
    (s.notify).opEvent = s.opEvent ∧
    (s.notify).syState = s.syState ∧
    (s.notify).syIdx = s.syIdx ∧
    (s.notify).syCnt = s.syCnt ∧
    (s.notify).sySum = s.sySum ∧
    (s.notify).syNull = s.syNull ∧
    (s.notify).syFrame = s.syFrame ∧
    (s.notify).env = s.env ∧
    (s.notify).dispBuf = s.dispBuf ∧
    (s.notify).dumpBuf = s.dumpBuf ∧
    (s.notify).dev = s.dev ∧
    (s.notify).cmdP = s.cmdP ∧
    (s.notify).cmdC = s.cmdC ∧
    (s.notify).sched = s.sched ∧
    (s.notify).turns = s.turns ∧
    (s.notify).draw = s.draw := by
  unfold State.notify; dsimp only; split <;> simp

/-- `periodStep` writes only scount, dispCur, out. -/
@[simp] theorem State.periodStep_frame :
    (s.periodStep).cfg = s.cfg ∧
    (s.periodStep).phase = s.phase ∧
    (s.periodStep).level = s.level ∧
    (s.periodStep).corr = s.corr ∧
    (s.periodStep).running = s.running ∧
    (s.periodStep).dumpActive = s.dumpActive ∧
    (s.periodStep).dumpTarget = s.dumpTarget ∧
    (s.periodStep).dumpIdx = s.dumpIdx ∧
    (s.periodStep).opState = s.opState ∧
    (s.periodStep).opCmd = s.opCmd ∧
    (s.periodStep).opPolled = s.opPolled ∧
    (s.periodStep).opRead = s.opRead ∧
    (s.periodStep).opEvent = s.opEvent ∧
    (s.periodStep).syState = s.syState ∧
    (s.periodStep).syIdx = s.syIdx ∧
    (s.periodStep).syCnt = s.syCnt ∧
    (s.periodStep).sySum = s.sySum ∧
    (s.periodStep).syNull = s.syNull ∧
    (s.periodStep).syFrame = s.syFrame ∧
    (s.periodStep).env = s.env ∧
    (s.periodStep).dispBuf = s.dispBuf ∧
    (s.periodStep).dumpBuf = s.dumpBuf ∧
    (s.periodStep).dev = s.dev ∧
    (s.periodStep).cmdP = s.cmdP ∧
    (s.periodStep).cmdC = s.cmdC ∧
    (s.periodStep).sched = s.sched ∧
    (s.periodStep).turns = s.turns ∧
    (s.periodStep).draw = s.draw := by
  unfold State.periodStep; split <;> simp

/-- `beforeMix` writes only phase, corr, dumpIdx, dumpBuf, dispCur, dispBuf, out. -/
@[simp] theorem State.beforeMix_frame (raw : Cplx) (off : Word32) :
    (s.beforeMix raw off).cfg = s.cfg ∧
    (s.beforeMix raw off).level = s.level ∧
    (s.beforeMix raw off).scount = s.scount ∧
    (s.beforeMix raw off).running = s.running ∧
    (s.beforeMix raw off).dumpActive = s.dumpActive ∧
    (s.beforeMix raw off).dumpTarget = s.dumpTarget ∧
    (s.beforeMix raw off).opState = s.opState ∧
    (s.beforeMix raw off).opCmd = s.opCmd ∧
    (s.beforeMix raw off).opPolled = s.opPolled ∧
    (s.beforeMix raw off).opRead = s.opRead ∧
    (s.beforeMix raw off).opEvent = s.opEvent ∧
    (s.beforeMix raw off).syState = s.syState ∧
    (s.beforeMix raw off).syIdx = s.syIdx ∧
    (s.beforeMix raw off).syCnt = s.syCnt ∧
    (s.beforeMix raw off).sySum = s.sySum ∧
    (s.beforeMix raw off).syNull = s.syNull ∧
    (s.beforeMix raw off).syFrame = s.syFrame ∧
    (s.beforeMix raw off).env = s.env ∧
    (s.beforeMix raw off).dev = s.dev ∧
    (s.beforeMix raw off).cmdP = s.cmdP ∧
    (s.beforeMix raw off).cmdC = s.cmdC ∧
    (s.beforeMix raw off).sched = s.sched ∧
    (s.beforeMix raw off).turns = s.turns ∧
    (s.beforeMix raw off).draw = s.draw := by
  simp [State.beforeMix]

/-- `afterSample` writes only phase, corr, level, scount, dumpIdx, dumpBuf, dispCur, dispBuf, out. -/
@[simp] theorem State.afterSample_frame (raw : Cplx) (off : Word32) :
    (s.afterSample raw off).cfg = s.cfg ∧
    (s.afterSample raw off).running = s.running ∧
    (s.afterSample raw off).dumpActive = s.dumpActive ∧
    (s.afterSample raw off).dumpTarget = s.dumpTarget ∧
    (s.afterSample raw off).opState = s.opState ∧
    (s.afterSample raw off).opCmd = s.opCmd ∧
    (s.afterSample raw off).opPolled = s.opPolled ∧
    (s.afterSample raw off).opRead = s.opRead ∧
    (s.afterSample raw off).opEvent = s.opEvent ∧
    (s.afterSample raw off).syState = s.syState ∧
    (s.afterSample raw off).syIdx = s.syIdx ∧
    (s.afterSample raw off).syCnt = s.syCnt ∧
    (s.afterSample raw off).sySum = s.sySum ∧
    (s.afterSample raw off).syNull = s.syNull ∧
    (s.afterSample raw off).syFrame = s.syFrame ∧
    (s.afterSample raw off).env = s.env ∧
    (s.afterSample raw off).dev = s.dev ∧
    (s.afterSample raw off).cmdP = s.cmdP ∧
    (s.afterSample raw off).cmdC = s.cmdC ∧
    (s.afterSample raw off).sched = s.sched ∧
    (s.afterSample raw off).turns = s.turns ∧
    (s.afterSample raw off).draw = s.draw := by
  simp [State.afterSample]

end Sys2Proof.Machine
end

