-- ==== Sys2Proof/Laws/Ops.lean ====
section
/-! SUPPORT. What each shared operation can do, said once: the fields its frame lemma leaves open. -/

namespace Sys2Proof.Machine

/-! ### The configuration -/

theorem Cfg.period_pos (c : Cfg) : 1 ≤ c.period :=
  (Nat.one_le_div_iff c.notifyDiv_pos).2 c.notifyDiv_le

theorem Cfg.period_le (c : Cfg) : c.period ≤ 2147483647 :=
  Nat.le_trans (Nat.div_le_self _ _) c.inputRate_le

/-! ### The bytes of a word -/

@[simp] theorem littleEndian_length {n : Nat} (w : BitVec n) : (littleEndian w).length = n / 8 := by simp [littleEndian]

/-- Byte `k` of a word is its bits `8k+7..8k`. -/
theorem littleEndian_get {n k : Nat} (w : BitVec n) (h : k < n / 8) : (littleEndian w)[k]? = some (w.extractLsb' (8 * k) 8) := by
  simp [littleEndian, h]

theorem sampleWord_getLsbD (c : Cfg) (z : Cplx) (j : Nat) :
    (sampleWord c z).getLsbD j = if j < 32 then z.re.getLsbD j else z.im.getLsbD (j - 32) := by
  have h : (sampleWord c z).getLsbD j = (z.im ++ z.re : BitVec (32 + 32)).getLsbD j := rfl
  rw [h, BitVec.getLsbD_append]

/-- The bytes of a complex sample are those of `re`, then those of `im`. -/
theorem sampleBytes_eq (c : Cfg) (z : Cplx) : sampleBytes c z = scalarBytes c z.re ++ scalarBytes c z.im := by
  refine List.ext_getElem? fun k => ?_
  simp only [sampleBytes, scalarBytes, wordBytes]
  rcases Nat.lt_or_ge k 8 with h | h
  · rw [littleEndian_get _ h]
    rcases Nat.lt_or_ge k 4 with h4 | h4
    · rw [List.getElem?_append_left (by simpa using h4), littleEndian_get _ h4]
      congr 1
      refine BitVec.eq_of_getLsbD_eq fun i hi => ?_
      rw [BitVec.getLsbD_extractLsb', BitVec.getLsbD_extractLsb', sampleWord_getLsbD, if_pos (by omega), Cfg.NUM_bits]
    · rw [List.getElem?_append_right (by simpa using h4), littleEndian_length, littleEndian_get _ (by omega)]
      congr 1
      refine BitVec.eq_of_getLsbD_eq fun i hi => ?_
      rw [BitVec.getLsbD_extractLsb', BitVec.getLsbD_extractLsb', sampleWord_getLsbD, if_neg (by omega), Cfg.NUM_bits,
        show 8 * (k - 32 / 8) + i = 8 * k + i - 32 by omega]
  · rw [List.getElem?_eq_none (by simpa using h), List.getElem?_eq_none (by simp; omega)]

/-! ### The phase -/

theorem emod_lt (a : Int) {n : Nat} (h : 1 ≤ n) : NUM.emod a n < n := by
  have h1 := Int.emod_nonneg a (b := (n : Int)) (by omega)
  have h2 := Int.emod_lt_of_pos a (b := (n : Int)) (by omega)
  unfold NUM.emod
  omega

theorem emod_cast (a : Int) {n : Nat} (h : 1 ≤ n) : (NUM.emod a n : Int) = a % (n : Int) := by
  have h1 := Int.emod_nonneg a (b := (n : Int)) (by omega)
  unfold NUM.emod
  omega

theorem State.nextPhase_lt (s : State) (off : Word32) : s.nextPhase off < s.cfg.inputRate :=
  emod_lt _ s.cfg.inputRate_pos

/-- The new phase fits its register. -/
@[simp] theorem State.phaseStep_toNat (s : State) (off : Word32) :
    (s.phaseStep off).phase.toNat = s.nextPhase off := by
  have h := s.nextPhase_lt off
  have h' := s.cfg.inputRate_le
  rw [State.phaseStep_phase, BitVec.toNat_ofNat, Nat.mod_eq_of_lt (by omega)]

/-- A phase in range reads the same signed and unsigned. -/
theorem toInt_of_lt_rate {w : Word32} {c : Cfg} (h : w.toNat < c.inputRate) : w.toInt = (w.toNat : Int) := by
  have := c.inputRate_le
  rw [BitVec.toInt_eq_toNat_cond, if_pos (by omega)]

/-! ### The device read -/

theorem popCount_le (n avail draw : Nat) : popCount n avail draw ≤ n ∧ popCount n avail draw ≤ avail := by
  unfold popCount
  split <;> omega

theorem popCount_one {avail : Nat} (h : 1 ≤ avail) (draw : Nat) : popCount 1 avail draw = 1 := by
  unfold popCount
  rw [if_pos rfl]
  omega

theorem State.devPop_rest_length (s : State) (n : Nat) :
    (s.dev.take (popCount n s.devAvail s.draw.count)).length = popCount n s.devAvail s.draw.count := by
  have := (popCount_le n s.devAvail s.draw.count).2
  rw [List.length_take]
  exact Nat.min_eq_left this

/-! ### The dump path -/

@[simp] theorem State.flushDump_dumpIdx (s : State) : s.flushDump.dumpIdx = 0 := rfl

theorem State.flushDump_out (s : State) :
    s.flushDump.out = s.out ++
      (if s.dumpActive = true ∧ 0 < s.dumpIdx then
        [.dump s.dumpTarget (s.dumpBuf.firstN Config.freeFrame s.dumpIdx)] else []) := by
  unfold State.flushDump
  by_cases h : s.dumpActive = true ∧ 0 < s.dumpIdx <;> simp [h]

theorem State.dumpStep_inactive (s : State) (raw : Cplx) (h : s.dumpActive = false) : s.dumpStep raw = s := by
  simp [State.dumpStep, h]

theorem State.dumpStep_dumpBuf (s : State) (raw : Cplx) :
    (s.dumpStep raw).dumpBuf =
      if s.dumpActive then s.dumpBuf.write s.dumpIdx (dumpFrame s.cfg raw) else s.dumpBuf := by
  unfold State.dumpStep
  split
  · dsimp only
    split <;> simp
  · rfl

theorem State.dumpStep_dumpIdx (s : State) (raw : Cplx) :
    (s.dumpStep raw).dumpIdx =
      if s.dumpActive then (if s.dumpIdx + 1 = s.cfg.dumpBlockFrames then 0 else s.dumpIdx + 1) else s.dumpIdx := by
  unfold State.dumpStep
  split
  · dsimp only
    split <;> simp
  · rfl

theorem State.dumpStep_out (s : State) (raw : Cplx) :
    (s.dumpStep raw).out = s.out ++
      (if s.dumpActive = true ∧ s.dumpIdx + 1 = s.cfg.dumpBlockFrames then
        [.dump s.dumpTarget
          ((s.dumpBuf.write s.dumpIdx (dumpFrame s.cfg raw)).firstN Config.freeFrame s.cfg.dumpBlockFrames)]
      else []) := by
  unfold State.dumpStep
  by_cases ha : s.dumpActive = true <;> by_cases hb : s.dumpIdx + 1 = s.cfg.dumpBlockFrames <;>
    simp [ha, hb, State.flushDump_out]
  rw [← hb]
  simp

/-! ### The display window -/

theorem State.displayStep_dispCur (s : State) (raw : Cplx) :
    (s.displayStep raw).dispCur =
      if s.dispCur.toNat < s.cfg.displayWindow then BitVec.ofNat 32 (s.dispCur.toNat + 1) else s.dispCur := by
  unfold State.displayStep
  split <;> rfl

theorem State.displayStep_dispBuf (s : State) (raw : Cplx) :
    (s.displayStep raw).dispBuf =
      if s.dispCur.toNat < s.cfg.displayWindow then s.dispBuf.write s.dispCur.toNat raw else s.dispBuf := by
  unfold State.displayStep
  split <;> rfl

/-! ### The period -/

theorem State.notify_out (s : State) :
    s.notify.out = s.out ++ .note s.corr s.level ::
      (if s.cfg.specAttached then [.spec (s.dispBuf.firstN Config.freeDisp s.dispCur.toNat)] else []) := by
  unfold State.notify
  dsimp only
  split <;> simp

theorem State.periodStep_scount (s : State) :
    s.periodStep.scount =
      if s.cfg.period ≤ s.scount.toNat + 1 then 0#32 else BitVec.ofNat 32 (s.scount.toNat + 1) := by
  unfold State.periodStep
  split <;> rfl

theorem State.periodStep_dispCur (s : State) :
    s.periodStep.dispCur = if s.cfg.period ≤ s.scount.toNat + 1 then 0#32 else s.dispCur := by
  unfold State.periodStep
  split <;> rfl

theorem State.periodStep_out (s : State) :
    s.periodStep.out = if s.cfg.period ≤ s.scount.toNat + 1 then s.notify.out else s.out := by
  unfold State.periodStep
  split <;> rfl

/-! ### One sample -/

/-- What `ProcessSample` leaves in the fields its frame lemma does not cover. -/
theorem State.afterSample_phase (s : State) (raw : Cplx) (off : Word32) :
    (s.afterSample raw off).phase.toNat = s.nextPhase off ∧ (s.afterSample raw off).corr = off := by
  have h : (s.afterSample raw off).phase = (s.phaseStep off).phase := by
    simp [State.afterSample, State.beforeMix, State.nextPhase]
  rw [h, State.phaseStep_toNat]
  exact ⟨rfl, by simp [State.afterSample, State.beforeMix]⟩

theorem State.afterSample_dumpBuf (s : State) (raw : Cplx) (off : Word32) :
    (s.afterSample raw off).dumpBuf = (s.dumpStep raw).dumpBuf := by
  simp [State.afterSample, State.beforeMix]

theorem State.afterSample_dumpIdx (s : State) (raw : Cplx) (off : Word32) :
    (s.afterSample raw off).dumpIdx = (s.dumpStep raw).dumpIdx := by
  simp [State.afterSample, State.beforeMix]

theorem State.afterSample_dispBuf (s : State) (raw : Cplx) (off : Word32) :
    (s.afterSample raw off).dispBuf =
      if s.dispCur.toNat < s.cfg.displayWindow then s.dispBuf.write s.dispCur.toNat raw else s.dispBuf := by
  simp [State.afterSample, State.beforeMix, State.displayStep_dispBuf]

theorem State.afterSample_scount (s : State) (raw : Cplx) (off : Word32) :
    (s.afterSample raw off).scount =
      if s.cfg.period ≤ s.scount.toNat + 1 then 0#32 else BitVec.ofNat 32 (s.scount.toNat + 1) := by
  simp [State.afterSample, State.beforeMix, State.periodStep_scount]

theorem State.afterSample_dispCur (s : State) (raw : Cplx) (off : Word32) :
    (s.afterSample raw off).dispCur =
      if s.cfg.period ≤ s.scount.toNat + 1 then 0#32
      else if s.dispCur.toNat < s.cfg.displayWindow then BitVec.ofNat 32 (s.dispCur.toNat + 1) else s.dispCur := by
  simp [State.afterSample, State.beforeMix, State.periodStep_dispCur, State.displayStep_dispCur]

/-- The corrected sample is the raw one times the table entry at the new phase. -/
theorem State.corrected_eq (s : State) (raw : Cplx) (off : Word32) :
    s.corrected raw off = s.cfg.NUM.cmul raw (Osc.entry s.cfg.inputRate (s.nextPhase off)) := by
  have h : (s.beforeMix raw off).phase.toNat = s.nextPhase off := by
    rw [State.beforeMix, State.phaseStep_toNat]
    simp [State.nextPhase]
  unfold State.corrected State.mix
  rw [h]
  simp

theorem State.afterSample_level (s : State) (raw : Cplx) (off : Word32) :
    (s.afterSample raw off).level =
      NUM.add (NUM.mul s.cfg.alpha (s.cfg.MAG (s.corrected raw off)))
        (NUM.mul (NUM.sub NUM.one s.cfg.alpha) s.level) := by
  simp [State.afterSample, State.beforeMix]

/-! ### The looks of the availability wait -/

theorem State.entryLook_cases (s : State) (o : BitVec 8) :
    (s.running = true ∧ s.entryLook o = { s with opState := .wait, opPolled := false }) ∨
    (s.running = false ∧ s.entryLook o = s.takeCancelled o) := by
  unfold State.entryLook
  cases h : s.running <;> simp

theorem State.postLook_cases (s : State) (o : BitVec 8) :
    (s.running = true ∧ s.postLook o = { s with opState := .run, opRead := none }) ∨
    (s.running = false ∧ s.postLook o = s.takeCancelled o) := by
  unfold State.postLook
  cases h : s.running <;> simp

theorem State.waitLook_cases (s : State) (o : BitVec 8) (th : Nat) :
    (s.opPolled = false ∧ th ≤ s.devAvail ∧ s.waitLook o th = { s with opState := .post }) ∨
    (s.opPolled = false ∧ s.devAvail < th ∧ s.waitLook o th = { s with opPolled := true }) ∨
    (s.opPolled = true ∧ s.running = true ∧ s.waitLook o th = { s with opPolled := false }) ∨
    (s.opPolled = true ∧ s.running = false ∧ s.waitLook o th = s.takeCancelled o) := by
  unfold State.waitLook State.enough
  cases hp : s.opPolled <;> cases hr : s.running <;> by_cases ht : th ≤ s.devAvail <;> simp [ht] <;> omega

end Sys2Proof.Machine
end

