-- ==== Sys2Proof/Laws/Invariant.lean ====
section
/-! SUPPORT. The shared operations and the invariant of Safety.lean: the invariant in two halves, and what keeps each. -/

namespace Sys2Proof.Laws

open Sys2Proof.Machine Sys2Proof.Safety

/-- The half of the invariant about the datapath, the dump state and their buffers. -/
structure DataInv (s : State) : Prop where
  phase_lt : s.phase.toNat < s.cfg.inputRate
  scount_lt : s.scount.toNat < s.cfg.period
  dispCur_le : s.dispCur.toNat ≤ s.cfg.displayWindow
  dispCur_le_scount : s.dispCur.toNat ≤ s.scount.toNat
  dumpIdx_lt : s.dumpIdx < s.cfg.dumpBlockFrames
  dump_off : s.dumpActive = false → s.dumpIdx = 0 ∧ s.dumpTarget = 0#32
  dispBuf_wf : s.dispBuf.wf = true
  dumpBuf_wf : s.dumpBuf.wf = true
  dispBuf_size : ∀ k, (s.dispBuf.read k).isSome → k < s.cfg.displayWindow
  dumpBuf_size : ∀ k, (s.dumpBuf.read k).isSome → k < s.cfg.dumpBlockFrames
  dispBuf_written : ∀ k, k < s.dispCur.toNat → (s.dispBuf.read k).isSome
  dumpBuf_written : ∀ k, k < s.dumpIdx → (s.dumpBuf.read k).isSome

/-- The half of the invariant about the sequencing of `P` and the synchroniser. -/
structure SeqInv (s : State) : Prop where
  env_wf : s.env.wf = true
  env_size : ∀ k, (s.env.read k).isSome → k < 50
  env_written : envSound s
  counter : counterSound s
  idle_sync : s.opState = .idle → s.syState = .idle
  flight : s.opState ≠ .idle → flightSound s
  opRead_run : s.opState ≠ .run → s.opRead = none
  opEvent_run : s.opState ≠ .run → s.opEvent = none
  opPolled_wait : s.opState ≠ .wait → s.opPolled = false

theorem inv_iff (s : State) : Inv s ↔ DataInv s ∧ SeqInv s :=
  ⟨fun h => ⟨⟨h.phase_lt, h.scount_lt, h.dispCur_le, h.dispCur_le_scount, h.dumpIdx_lt, h.dump_off, h.dispBuf_wf,
      h.dumpBuf_wf, h.dispBuf_size, h.dumpBuf_size, h.dispBuf_written, h.dumpBuf_written⟩,
    ⟨h.env_wf, h.env_size, h.env_written, h.counter, h.idle_sync, h.flight, h.opRead_run,
      h.opEvent_run, h.opPolled_wait⟩⟩,
   fun ⟨h, g⟩ => ⟨h.phase_lt, h.scount_lt, h.dispCur_le, h.dispCur_le_scount, h.dumpIdx_lt, h.dump_off, g.env_wf,
    h.dispBuf_wf, h.dumpBuf_wf, g.env_size, h.dispBuf_size, h.dumpBuf_size, g.env_written, h.dispBuf_written,
    h.dumpBuf_written, g.counter, g.idle_sync, g.flight, g.opRead_run, g.opEvent_run,
    g.opPolled_wait⟩⟩

/-- The data half speaks of nine fields only. -/
theorem DataInv.congr {s t : State} (h : DataInv s)
    (e : t.cfg = s.cfg ∧ t.phase = s.phase ∧ t.scount = s.scount ∧ t.dispCur = s.dispCur ∧ t.dumpIdx = s.dumpIdx ∧
      t.dumpActive = s.dumpActive ∧ t.dumpTarget = s.dumpTarget ∧ t.dispBuf = s.dispBuf ∧ t.dumpBuf = s.dumpBuf) :
    DataInv t := by
  obtain ⟨e1, e2, e3, e4, e5, e6, e7, e8, e9⟩ := e
  constructor <;> simp only [e1, e2, e3, e4, e5, e6, e7, e8, e9]
  exacts [h.1, h.2, h.3, h.4, h.5, h.6, h.7, h.8, h.9, h.10, h.11, h.12]

theorem size_write {α : Type} {m : Space α} {n k : Nat} {v : α} (h : ∀ k, (m.read k).isSome → k < n) (hk : k < n) :
    ∀ j, ((m.write k v).read j).isSome → j < n := by
  intro j hj
  rw [Space.read_write] at hj
  split at hj
  · omega
  · exact h j hj

/-- One sample keeps the data half. -/
theorem afterSample_data {s : State} (h : DataInv s) (raw : Cplx) (off : Word32) : DataInv (s.afterSample raw off) := by
  have hp := Cfg.period_le s.cfg
  have hpp := Cfg.period_pos s.cfg
  have hb := s.cfg.dumpBlockFrames_pos
  have hs : (BitVec.ofNat 32 (s.scount.toNat+1)).toNat = s.scount.toNat + 1 := by
    rw [BitVec.toNat_ofNat, Nat.mod_eq_of_lt]; have := h.scount_lt; omega
  have hd : (BitVec.ofNat 32 (s.dispCur.toNat+1)).toNat = s.dispCur.toNat + 1 := by
    rw [BitVec.toNat_ofNat, Nat.mod_eq_of_lt]; have := h.scount_lt; have := h.dispCur_le_scount; omega
  have hi := h.dumpIdx_lt
  have h3 := h.dispCur_le
  have h4 := h.dispCur_le_scount
  have h2 := h.scount_lt
  constructor
  · rw [(s.afterSample_phase raw off).1]; simpa using s.nextPhase_lt off
  · rw [s.afterSample_scount]; split
    · simp; omega
    · simp only [hs]; simp; omega
  · rw [s.afterSample_dispCur]; split
    · simp
    · split
      · rw [hd]; simp; omega
      · simpa using h3
  · rw [s.afterSample_dispCur, s.afterSample_scount]; split
    · simp
    · rw [hs]; split
      · rw [hd]; omega
      · omega
  · rw [s.afterSample_dumpIdx, s.dumpStep_dumpIdx]; simp only [State.afterSample_frame]; split
    · split <;> omega
    · exact hi
  · intro ha
    have ha' : s.dumpActive = false := by simpa using ha
    rw [s.afterSample_dumpIdx, s.dumpStep_dumpIdx]; simp [ha']; exact h.dump_off ha'
  · rw [s.afterSample_dispBuf]; split
    · exact Space.wf_write h.dispBuf_wf _ _
    · exact h.dispBuf_wf
  · rw [s.afterSample_dumpBuf, s.dumpStep_dumpBuf]; split
    · exact Space.wf_write h.dumpBuf_wf _ _
    · exact h.dumpBuf_wf
  · rw [s.afterSample_dispBuf]; simp only [State.afterSample_frame]; split
    · rename_i hlt; exact size_write h.dispBuf_size hlt
    · exact h.dispBuf_size
  · rw [s.afterSample_dumpBuf, s.dumpStep_dumpBuf]; simp only [State.afterSample_frame]; split
    · exact size_write h.dumpBuf_size hi
    · exact h.dumpBuf_size
  · rw [s.afterSample_dispCur, s.afterSample_dispBuf]; intro k hk
    split at hk
    · simp at hk
    · split at hk
      · rw [hd] at hk
        rename_i hlt
        rw [if_pos hlt, Space.read_write]
        split
        · rfl
        · exact h.dispBuf_written k (by omega)
      · rename_i hlt; rw [if_neg hlt]; exact h.dispBuf_written k hk
  · rw [s.afterSample_dumpIdx, s.afterSample_dumpBuf, s.dumpStep_dumpIdx, s.dumpStep_dumpBuf]; intro k hk
    split at hk
    · rename_i ha
      rw [if_pos ha, Space.read_write]
      split
      · rfl
      · split at hk
        · omega
        · exact h.dumpBuf_written k (by omega)
    · rename_i ha; rw [if_neg ha]; exact h.dumpBuf_written k hk

/-- What the invariant says of the command in flight, by the command: a read. -/
theorem flight_read {s : State} (hf : flightSound s) {i : Instr} (hdec : decode .P s.opCmd = .ok i)
    (hr : i.isRead = true) : (s.syState = .idle ↔ i.opc ≠ 0x03#8) ∧ readFlight i s := by
  obtain ⟨j, hj, hsy, h⟩ := hf
  rw [hdec] at hj
  cases hj
  rcases h with h | ⟨rfl, -⟩
  · exact ⟨hsy, h⟩
  · simp [Instr.isRead] at hr

/-- What the invariant says of the command in flight, by the command: a RESET between its two steps. -/
theorem flight_reset {s : State} (hf : flightSound s) (hdec : decode .P s.opCmd = .ok .reset) :
    s.syState = .idle ∧ s.opState = .run ∧ s.opRead = none ∧ s.opEvent = none := by
  obtain ⟨j, hj, hsy, h⟩ := hf
  rw [hdec] at hj
  cases hj
  rcases h with ⟨h, -⟩ | ⟨-, h⟩
  · simp [Instr.isRead] at h
  · exact ⟨hsy.2 (by simp [Instr.opc]), h⟩

/-- A cancellation keeps the invariant, where the opcode is that of the command in flight. -/
theorem cancelled_inv {s : State} (hd : DataInv s) (hs : SeqInv s) (hf : flightSound s) (o : BitVec 8)
    (ho : ∀ i, decode .P s.opCmd = .ok i → o = i.opc) :
    DataInv (s.takeCancelled o) ∧ SeqInv (s.takeCancelled o) := by
  obtain ⟨i, hdec, hsy, -⟩ := hf
  have hidle : (s.takeCancelled o).syState = .idle := by
    simp only [State.takeCancelled_syState]
    split
    · rfl
    · rename_i hne
      exact hsy.2 (ho i hdec ▸ hne)
  refine ⟨hd.congr (by simp), ?_⟩
  constructor
  · simpa using hs.env_wf
  · simpa using hs.env_size
  · unfold envSound
    rw [hidle]
    trivial
  · unfold counterSound
    rw [hidle]
    trivial
  · exact fun _ => hidle
  · simp
  · simp
  · simp
  · simp

/-- Before RUN a change of `OP_STATE` and `opPolled` alone keeps the sequencing half, where the new pair fits. -/
theorem look_seq {s : State} (hs : SeqInv s) (hf : flightSound s) {j : Instr} (hdec : decode .P s.opCmd = .ok j)
    (hjr : j.isRead = true) (hr : s.opRead = none) (he : s.opEvent = none) {o : OpState} {b : Bool} (ho : o ≠ .idle) (hb : o ≠ .wait → b = false)
    (hav : o = .post ∨ o = .run → threshold j s ≤ s.devAvail) :
    SeqInv { s with opState := o, opPolled := b } := by
  obtain ⟨hsy, -, -, hrd⟩ := flight_read hf hdec hjr
  refine ⟨hs.env_wf, hs.env_size, hs.env_written, hs.counter, fun h => absurd h ho, fun _ => ?_, fun _ => hr,
    fun _ => he, hb⟩
  refine ⟨j, hdec, hsy, .inl ⟨hjr, fun hbp => hav ?_, hrd⟩⟩
  rcases hbp with h | ⟨h, -⟩
  · exact .inl h
  · exact .inr h

/-- A flush keeps the data half, whatever target is installed after it. -/
theorem flush_on_data {s : State} (h : DataInv s) (x : Word32) :
    DataInv { s.flushDump with dumpActive := true, dumpTarget := x } := by
  have hb := s.cfg.dumpBlockFrames_pos
  constructor
  · simpa using h.phase_lt
  · simpa using h.scount_lt
  · simpa using h.dispCur_le
  · simpa using h.dispCur_le_scount
  · simp
    omega
  · simp
  · simpa using h.dispBuf_wf
  · simpa using h.dumpBuf_wf
  · simpa using h.dispBuf_size
  · simpa using h.dumpBuf_size
  · simpa using h.dispBuf_written
  · simp

theorem flush_off_data {s : State} (h : DataInv s) :
    DataInv { s.flushDump with dumpActive := false, dumpTarget := 0#32 } := by
  have g := flush_on_data h 0#32
  exact ⟨g.1, g.2, g.3, g.4, g.5, fun _ => ⟨by simp, rfl⟩, g.7, g.8, g.9, g.10, g.11, g.12⟩

/-- The sequencing half speaks of these fields only; the FIFO may have grown. -/
theorem SeqInv.congr {s t : State} (h : SeqInv s)
    (e : t.env = s.env ∧ t.syState = s.syState ∧ t.syCnt = s.syCnt ∧ t.syNull = s.syNull ∧ t.syFrame = s.syFrame ∧
      t.opState = s.opState ∧ t.opRead = s.opRead ∧ t.opEvent = s.opEvent ∧ t.opPolled = s.opPolled ∧
      (t.opCmd = s.opCmd ∨ s.opState = .idle) ∧ s.devAvail ≤ t.devAvail ∧ t.cfg = s.cfg) : SeqInv t := by
  obtain ⟨e1, e2, e3, e4, e5, e6, e7, ee, e8, e9, e10, e11⟩ := e
  refine ⟨by rw [e1]; exact h.1, by rw [e1]; exact h.2, ?_, ?_, by rw [e6, e2]; exact h.5, ?_,
    by rw [e6, e7]; exact h.7, by rw [e6, ee]; exact h.8, by rw [e6, e8]; exact h.9⟩
  · have := h.env_written
    simp only [envSound, e1, e2, e3] at *
    exact this
  · have := h.counter
    simp only [counterSound, e2, e3, e4, e5] at *
    exact this
  · rw [e6]
    intro hb
    obtain ⟨i, h1, h3, hfl⟩ := h.flight hb
    refine ⟨i, ?_, by rw [e2]; exact h3, ?_⟩
    · rcases e9 with e9 | e9
      · rw [e9]
        exact h1
      · exact absurd e9 hb
    rcases hfl with ⟨h2, h4, h5⟩ | ⟨h2, h4, h5, h6⟩
    · refine .inl ⟨h2, ?_, by rw [e7]; exact h5⟩
      intro hbp
      have hth : threshold i t = threshold i s := by
        unfold threshold
        rw [e11]
      rw [hth]
      refine Nat.le_trans (h4 ?_) e10
      simpa [beforePop, e6, e7] using hbp
    · exact .inr ⟨h2, by rw [e6]; exact h4, by rw [e7]; exact h5, by rw [ee]; exact h6⟩

theorem restoreDatapath_data {s : State} (h : DataInv s) : DataInv s.restoreDatapath := by
  have h1 := s.cfg.inputRate_pos
  have h2 := Cfg.period_pos s.cfg
  refine ⟨?_, ?_, ?_, ?_, h.dumpIdx_lt, h.dump_off, ?_, h.dumpBuf_wf, ?_, h.dumpBuf_size, ?_, h.dumpBuf_written⟩ <;>
    simp <;> omega

theorem restoreDump_data {s : State} (h : DataInv s) : DataInv s.restoreDump := by
  have h3 := s.cfg.dumpBlockFrames_pos
  refine ⟨h.phase_lt, h.scount_lt, h.dispCur_le, h.dispCur_le_scount, ?_, ?_, h.dispBuf_wf, ?_, h.dispBuf_size, ?_,
    h.dispBuf_written, ?_⟩ <;> simp
  omega

theorem restore_data (s : State) : DataInv s.restore := by
  have h1 := s.cfg.inputRate_pos
  have h2 := Cfg.period_pos s.cfg
  have h3 := s.cfg.dumpBlockFrames_pos
  constructor <;> simp <;> omega

end Sys2Proof.Laws
end

