-- ==== Sys2Proof/Laws/Osc.lean ====
section
/-! SUPPORT. The evaluation of the oscillator table against the real cosine and sine (20_memory.md R51, R52): the series, the
fixed-point evaluation of it, and the rounding of its result. -/

namespace Sys2Proof.Osc

open Finset

/-! ### The series that `horner` evaluates -/

/-- Term `m` of `1 - x²/((j+1)(j+2)) + x⁴/((j+1)(j+2)(j+3)(j+4)) - …`. -/
noncomputable def seriesTerm (x : ℝ) (j m : ℕ) : ℝ := (-1) ^ m * x ^ (2 * m) * (j.factorial / (j + 2 * m).factorial)

/-- Its sum: cos x for `j = 0`, sin x / x for `j = 1`. -/
noncomputable def series (x : ℝ) (j : ℕ) : ℝ := ∑' m, seriesTerm x j m

theorem abs_seriesTerm_le (x : ℝ) (j m : ℕ) : |seriesTerm x j m| ≤ (x ^ 2) ^ m := by
  have hf : (j.factorial : ℝ) / (j + 2 * m).factorial ≤ 1 := by
    rw [div_le_one (by positivity)]
    exact_mod_cast Nat.factorial_le (Nat.le_add_right _ _)
  have hf0 : (0 : ℝ) ≤ (j.factorial : ℝ) / (j + 2 * m).factorial := by positivity
  unfold seriesTerm
  rw [abs_mul, abs_mul, abs_pow, abs_neg, abs_one, one_pow, one_mul, abs_pow, abs_of_nonneg hf0, pow_mul, sq_abs]
  exact mul_le_of_le_one_right (by positivity) hf

theorem summable_series {x : ℝ} (h : x ^ 2 ≤ 16 / 25) (j : ℕ) : Summable (seriesTerm x j) :=
  .of_abs (.of_nonneg_of_le (fun _ => abs_nonneg _) (abs_seriesTerm_le x j)
    (summable_geometric_of_lt_one (by positivity) (by linarith)))

theorem abs_series_le {x : ℝ} (h : x ^ 2 ≤ 16 / 25) (j : ℕ) : |series x j| ≤ 3 := by
  have hg := summable_geometric_of_lt_one (r := x ^ 2) (by positivity) (by linarith)
  have h0 : ‖∑' m, seriesTerm x j m‖ ≤ ∑' m, ‖seriesTerm x j m‖ := norm_tsum_le_tsum_norm (summable_series h j).norm
  have h2 : ∑' m, ‖seriesTerm x j m‖ ≤ ∑' m, (x ^ 2) ^ m :=
    Summable.tsum_le_tsum (abs_seriesTerm_le x j) (summable_series h j).norm hg
  have h1 : |series x j| ≤ ∑' m, (x ^ 2) ^ m := h0.trans h2
  rw [tsum_geometric_of_lt_one (by positivity) (by linarith)] at h1
  refine le_trans h1 ?_
  rw [inv_le_comm₀ (by linarith) (by norm_num)]
  linarith

/-- The recursion that `horner` follows. -/
theorem series_succ {x : ℝ} (h : x ^ 2 ≤ 16 / 25) (j : ℕ) :
    series x j = 1 - x ^ 2 * series x (j + 2) / ((j + 1) * (j + 2)) := by
  have hterm : ∀ m, seriesTerm x j (m + 1) = -(x ^ 2 / ((j + 1) * (j + 2))) * seriesTerm x (j + 2) m := by
    intro m
    have hj : ((j + 2).factorial : ℝ) = (j + 2) * ((j + 1) * j.factorial) := by
      rw [Nat.factorial_succ, Nat.factorial_succ]
      push_cast
      ring
    have he : j + 2 * (m + 1) = j + 2 + 2 * m := by ring
    unfold seriesTerm
    rw [he, hj]
    have h1 : ((j : ℝ) + 1) ≠ 0 := by positivity
    have h2 : ((j : ℝ) + 2) ≠ 0 := by positivity
    have h3 : ((j + 2 + 2 * m).factorial : ℝ) ≠ 0 := by positivity
    field_simp
    ring
  unfold series
  rw [(summable_series h j).tsum_eq_zero_add]
  simp only [hterm, tsum_mul_left]
  have h0 : seriesTerm x j 0 = 1 := by
    simp [seriesTerm, div_self (show (j.factorial : ℝ) ≠ 0 by positivity)]
  rw [h0]
  ring

theorem series_zero (x : ℝ) : series x 0 = Real.cos x := by
  unfold series
  rw [← (Real.hasSum_cos x).tsum_eq]
  congr 1
  funext m
  simp [seriesTerm]
  ring

theorem mul_series_one (x : ℝ) : x * series x 1 = Real.sin x := by
  unfold series
  rw [← (Real.hasSum_sin x).tsum_eq, ← tsum_mul_left]
  congr 1
  funext m
  simp only [seriesTerm, Nat.factorial_one, Nat.cast_one, show 1 + 2 * m = 2 * m + 1 by ring]
  ring

/-! ### The fixed-point evaluation -/

theorem horner_le (x2 f j : ℕ) : horner x2 f j ≤ fixOne := by
  cases f with
  | zero => exact le_rfl
  | succ f => exact Nat.sub_le _ _

/-- A floored quotient is within one of the quotient. -/
theorem natDiv_bounds (a b : ℕ) (hb : 0 < b) : ((a / b : ℕ) : ℝ) ≤ a / b ∧ (a : ℝ) / b - 1 ≤ ((a / b : ℕ) : ℝ) := by
  have hb' : (0 : ℝ) < b := by exact_mod_cast hb
  constructor
  · exact Nat.cast_div_le
  · have h := Nat.div_add_mod a b
    have h2 := Nat.mod_lt a hb
    have h3 : (a : ℝ) ≤ b * ((a / b : ℕ) : ℝ) + b := by
      exact_mod_cast (by omega : a ≤ b * (a / b) + b)
    rw [sub_le_iff_le_add, div_le_iff₀ hb']
    linarith

/-- `horner` against the series: eight units of the last place, and the tail that the fuel cuts off. -/
theorem horner_error {x : ℝ} (h : x ^ 2 ≤ 16 / 25) {x2 : ℕ} (hlo : x ^ 2 - 1 / fixOne ≤ (x2 : ℝ) / fixOne)
    (hhi : (x2 : ℝ) / fixOne ≤ x ^ 2) (f j : ℕ) :
    |(horner x2 f j : ℝ) / fixOne - series x j| ≤ 8 / fixOne + 4 * (j.factorial / (j + 2 * f).factorial) := by
  have hE : (0 : ℝ) < (fixOne : ℝ) := by norm_num [fixOne]
  induction f generalizing j with
  | zero =>
    have h3 := abs_le.1 (abs_series_le h j)
    have hj : (j.factorial : ℝ) / (j + 2 * 0).factorial = 1 := div_self (by positivity)
    have h8 : (0 : ℝ) ≤ 8 / fixOne := by positivity
    rw [hj, horner, div_self hE.ne', abs_le]
    constructor <;> linarith
  | succ f ih =>
    have ih := ih (j + 2)
    set g := horner x2 f (j + 2) with hg
    set c := (j + 1) * (j + 2) with hc
    have hcpos : 0 < c := by positivity
    have hc2 : (2 : ℝ) ≤ c := by
      have : 2 ≤ c := by
        rw [hc]
        nlinarith
      exact_mod_cast this
    have hgle : (g : ℝ) ≤ fixOne := by exact_mod_cast horner_le x2 f (j + 2)
    have b1 := natDiv_bounds (x2 * g) fixOne (by norm_num [fixOne])
    have b2 := natDiv_bounds (x2 * g / fixOne) c hcpos
    set p := x2 * g / fixOne with hp
    have hx2 : (x2 : ℝ) ≤ 16 / 25 * fixOne := by
      have := (div_le_iff₀ hE).1 (hhi.trans h)
      linarith
    have hpE : (p : ℝ) ≤ fixOne := by
      refine b1.1.trans ?_
      rw [div_le_iff₀ hE]
      push_cast
      have h0 : (0 : ℝ) ≤ g := by positivity
      nlinarith
    have hle : p / c ≤ fixOne := by
      have h1 : p ≤ fixOne := by exact_mod_cast hpE
      exact (Nat.div_le_self _ _).trans h1
    have hval : (horner x2 (f + 1) j : ℝ) = fixOne - ((p / c : ℕ) : ℝ) := by
      rw [horner, ← hg, ← hp, ← hc, Nat.cast_sub hle]
    have hs := series_succ h j
    have hcr : ((j : ℝ) + 1) * (j + 2) = c := by
      rw [hc]
      push_cast
      ring
    rw [hcr] at hs
    -- the three errors: of the square, of the tail below, of the two floors
    set S := series x (j + 2) with hS
    set u : ℝ := (x2 : ℝ) / fixOne with hu
    set G : ℝ := (g : ℝ) / fixOne with hG
    have hS3 := abs_le.1 (abs_series_le h (j + 2))
    rw [← hS] at hS3
    have hu0 : 0 ≤ u := by positivity
    have hpq : |((p / c : ℕ) : ℝ) / fixOne - u * G / c| ≤ (1 / c + 1) / fixOne := by
      have e : u * G / c = (((x2 * g : ℕ) : ℝ) / fixOne) / c / fixOne := by
        rw [hu, hG]
        push_cast
        field_simp
      have hc0 : (0 : ℝ) < c := by linarith
      rw [e, ← sub_div, abs_div, abs_of_pos hE, div_le_div_iff_of_pos_right hE, abs_le]
      have t1 : (p : ℝ) / c ≤ ((x2 * g : ℕ) : ℝ) / fixOne / c := by
        rw [div_le_div_iff_of_pos_right hc0]
        exact b1.1
      have t2 : ((x2 * g : ℕ) : ℝ) / fixOne / c ≤ (p : ℝ) / c + 1 / c := by
        rw [← add_div, div_le_div_iff_of_pos_right hc0]
        linarith [b1.2]
      have t3 : (0 : ℝ) ≤ 1 / c := by positivity
      constructor <;> linarith [b2.1, b2.2]
    have hmain : |u * G / c - x ^ 2 * S / c| ≤ (16 / 25 * |G - S| + 3 / fixOne) / c := by
      have hc0 : (0 : ℝ) < c := by linarith
      have e : u * G / c - x ^ 2 * S / c = (u * (G - S) + (u - x ^ 2) * S) / c := by ring
      rw [e, abs_div, abs_of_pos hc0, div_le_div_iff_of_pos_right hc0]
      refine (abs_add_le _ _).trans ?_
      rw [abs_mul, abs_mul, abs_of_nonneg hu0]
      have a1 : u * |G - S| ≤ 16 / 25 * |G - S| :=
        mul_le_mul_of_nonneg_right (hhi.trans h) (abs_nonneg _)
      have a2 : |u - x ^ 2| ≤ 1 / fixOne := by
        rw [abs_le]
        constructor <;> linarith [show (0 : ℝ) ≤ 1 / fixOne by positivity]
      have a3 : |S| ≤ 3 := abs_le.2 hS3
      have a4 : |u - x ^ 2| * |S| ≤ 1 / fixOne * 3 :=
        mul_le_mul a2 a3 (abs_nonneg _) (by positivity)
      have a5 : (1 : ℝ) / fixOne * 3 = 3 / fixOne := by ring
      linarith
    have htail : (4 : ℝ) * (j.factorial / (j + 2 * (f + 1)).factorial) =
        4 * ((j + 2).factorial / (j + 2 + 2 * f).factorial) / c := by
      have hj : ((j + 2).factorial : ℝ) = c * j.factorial := by
        rw [Nat.factorial_succ, Nat.factorial_succ, hc]
        push_cast
        ring
      rw [show j + 2 * (f + 1) = j + 2 + 2 * f by ring, hj]
      have : (c : ℝ) ≠ 0 := by linarith
      field_simp
    have hfin : |(horner x2 (f + 1) j : ℝ) / fixOne - series x j| ≤
        (1 / c + 1) / fixOne + (16 / 25 * |G - S| + 3 / fixOne) / c := by
      have e : (horner x2 (f + 1) j : ℝ) / fixOne - series x j =
          -(((p / c : ℕ) : ℝ) / fixOne - u * G / c) + -(u * G / c - x ^ 2 * S / c) := by
        rw [hval, hs, sub_div, div_self hE.ne']
        ring
      rw [e]
      refine (abs_add_le _ _).trans ?_
      rw [abs_neg, abs_neg]
      exact add_le_add hpq hmain
    refine hfin.trans ?_
    rw [htail]
    set T : ℝ := 4 * ((j + 2).factorial / (j + 2 + 2 * f).factorial) with hT
    have hT0 : 0 ≤ T := by positivity
    have hc0 : (0 : ℝ) < c := by linarith
    have hinv : (1 : ℝ) / c ≤ 1 / 2 := one_div_le_one_div_of_le (by norm_num) hc2
    have hinv0 : (0 : ℝ) ≤ 1 / c := by positivity
    have hEi : (0 : ℝ) ≤ 1 / fixOne := by positivity
    have key : (1 / (c : ℝ) + 1) / fixOne + (16 / 25 * |G - S| + 3 / fixOne) / c ≤
        (1 / (c : ℝ) + 1) / fixOne + (16 / 25 * (8 / fixOne + T) + 3 / fixOne) / c := by
      have : (16 / 25 * |G - S| + 3 / (fixOne : ℝ)) / c ≤ (16 / 25 * (8 / fixOne + T) + 3 / fixOne) / c := by
        rw [div_le_div_iff_of_pos_right hc0]
        linarith
      linarith
    refine key.trans ?_
    have e1 : (1 / (c : ℝ) + 1) / fixOne + (16 / 25 * (8 / fixOne + T) + 3 / fixOne) / c =
        1 / fixOne * (1 + (1 + 16 / 25 * 8 + 3) * (1 / c)) + 16 / 25 * (T / c) := by
      field_simp
      ring
    have e2 : (8 : ℝ) / fixOne = 1 / fixOne * 8 := by ring
    have hTc : 0 ≤ T / c := by positivity
    rw [e1, e2]
    have : 1 / (fixOne : ℝ) * (1 + (1 + 16 / 25 * 8 + 3) * (1 / c)) ≤ 1 / fixOne * 8 :=
      mul_le_mul_of_nonneg_left (by linarith) hEi
    linarith

/-! ### Cosine and sine in fixed point -/

theorem fixOne_pos : (0 : ℝ) < (fixOne : ℝ) := by norm_num [fixOne]

/-- The floored square of an angle. -/
theorem square_bounds (x : ℕ) :
    ((x : ℝ) / fixOne) ^ 2 - 1 / fixOne ≤ ((x * x / fixOne : ℕ) : ℝ) / fixOne ∧
    ((x * x / fixOne : ℕ) : ℝ) / fixOne ≤ ((x : ℝ) / fixOne) ^ 2 := by
  have hE := fixOne_pos
  have h := natDiv_bounds (x * x) fixOne (by norm_num [fixOne])
  have e : ((x : ℝ) / fixOne) ^ 2 = ((x * x : ℕ) : ℝ) / fixOne / fixOne := by
    push_cast
    field_simp
  rw [e, ← sub_div, div_le_div_iff_of_pos_right hE, div_le_div_iff_of_pos_right hE]
  exact ⟨h.2, h.1⟩

/-- The tail that 26 factors cut off is below the last place. -/
theorem tail_le (j : ℕ) (hj : j ≤ 1) : (4 : ℝ) * (j.factorial / (j + 2 * 26).factorial) ≤ 1 / fixOne := by
  have h : j = 0 ∨ j = 1 := by omega
  rcases h with rfl | rfl <;> norm_num [fixOne, Nat.factorial]

theorem cosFix_error (x : ℕ) (h : (x : ℝ) / fixOne ≤ 4 / 5) :
    |(cosFix x : ℝ) / fixOne - Real.cos ((x : ℝ) / fixOne)| ≤ 9 / fixOne := by
  have h0 : (0 : ℝ) ≤ (x : ℝ) / fixOne := by positivity
  have hsq : ((x : ℝ) / fixOne) ^ 2 ≤ 16 / 25 := by nlinarith
  have hb := square_bounds x
  have hh := horner_error hsq hb.1 hb.2 26 0
  have ht := tail_le 0 (by decide)
  rw [series_zero] at hh
  have e : (9 : ℝ) / fixOne = 8 / fixOne + 1 / fixOne := by ring
  rw [e]
  exact hh.trans (by linarith)

theorem sinFix_error (x : ℕ) (h : (x : ℝ) / fixOne ≤ 4 / 5) :
    |(sinFix x : ℝ) / fixOne - Real.sin ((x : ℝ) / fixOne)| ≤ 10 / fixOne := by
  have hE := fixOne_pos
  set X : ℝ := (x : ℝ) / fixOne with hX
  have h0 : 0 ≤ X := by positivity
  have hsq : X ^ 2 ≤ 16 / 25 := by nlinarith
  have hb := square_bounds x
  have hh := horner_error hsq hb.1 hb.2 26 1
  have ht := tail_le 1 (by decide)
  set g := horner (x * x / fixOne) 26 1 with hg
  have hd := natDiv_bounds (x * g) fixOne (by norm_num [fixOne])
  have e1 : ((x * g : ℕ) : ℝ) / fixOne = X * (g / fixOne) * fixOne := by
    rw [hX]
    push_cast
    field_simp
  rw [e1, show ((x * g / fixOne : ℕ) : ℝ) = (sinFix x : ℝ) from rfl] at hd
  have hs : (sinFix x : ℝ) / fixOne - X * (g / fixOne) ≤ 0 ∧ -(1 / fixOne) ≤ (sinFix x : ℝ) / fixOne - X * (g / fixOne) := by
    have e2 : (sinFix x : ℝ) / fixOne - X * (g / fixOne) = ((sinFix x : ℝ) - X * (g / fixOne) * fixOne) / fixOne := by
      field_simp
    rw [e2]
    constructor
    · exact div_nonpos_of_nonpos_of_nonneg (by linarith [hd.1]) hE.le
    · rw [← neg_div, div_le_div_iff_of_pos_right hE]
      linarith [hd.2]
  have hm : |X * (g / fixOne) - Real.sin X| ≤ 9 / fixOne := by
    rw [← mul_series_one, ← mul_sub, abs_mul, abs_of_nonneg h0]
    have h9 : |(g : ℝ) / fixOne - series X 1| ≤ 9 / fixOne := by
      have e : (9 : ℝ) / fixOne = 8 / fixOne + 1 / fixOne := by ring
      rw [e]
      exact hh.trans (by linarith)
    have h9' : (0 : ℝ) ≤ 9 / fixOne := by positivity
    nlinarith [abs_nonneg ((g : ℝ) / fixOne - series X 1)]
  have hm' := abs_le.1 hm
  have e3 : (10 : ℝ) / fixOne = 9 / fixOne + 1 / fixOne := by ring
  have hp : (0 : ℝ) ≤ 1 / fixOne := by positivity
  rw [e3, abs_le]
  constructor <;> linarith [hs.1, hs.2, hm'.1, hm'.2]

/-! ### The angle -/

/-- The stored quarter turn. -/
theorem halfPi_error : |(halfPi : ℝ) / fixOne - Real.pi / 2| ≤ 1 / 2 ^ 64 := by
  have h1 := Real.pi_gt_d20
  have h2 := Real.pi_lt_d20
  rw [abs_le]
  constructor <;> norm_num [halfPi, fixOne] at * <;> linarith

/-- The angle `(pi/2) * (r / rate)` as `quarter` computes it. -/
theorem angle_error (rate r : ℕ) (hr : 0 < rate) :
    |((halfPi * r / rate : ℕ) : ℝ) / fixOne - Real.pi / 2 * (r / rate)| ≤ 1 / 2 ^ 64 * (r / rate) + 1 / fixOne := by
  have hE := fixOne_pos
  have hrr : (0 : ℝ) < rate := by exact_mod_cast hr
  have hq : (0 : ℝ) ≤ (r : ℝ) / rate := by positivity
  have hd := natDiv_bounds (halfPi * r) rate hr
  have hp := abs_le.1 halfPi_error
  have e : ((halfPi * r : ℕ) : ℝ) / rate = (halfPi : ℝ) / fixOne * (r / rate) * fixOne := by
    push_cast
    field_simp
  rw [e] at hd
  have hs : ((halfPi * r / rate : ℕ) : ℝ) / fixOne ≤ (halfPi : ℝ) / fixOne * (r / rate) ∧
      (halfPi : ℝ) / fixOne * (r / rate) - 1 / fixOne ≤ ((halfPi * r / rate : ℕ) : ℝ) / fixOne := by
    constructor
    · rw [div_le_iff₀ hE]
      exact hd.1
    · rw [le_div_iff₀ hE, sub_mul, div_mul_cancel₀ _ hE.ne']
      exact hd.2
  have hp0 : (0 : ℝ) ≤ 1 / fixOne := by positivity
  rw [abs_le]
  constructor <;> nlinarith [hs.1, hs.2, hp.1, hp.2, mul_le_mul_of_nonneg_right hp.1 hq, mul_le_mul_of_nonneg_right hp.2 hq]

/-! ### The rounding of the result, and the quarter turn -/

/-- The binary32 value `f` is `t` to within half a unit of its last place (a relative `2^-24`) and a relative `2^-60`. -/
def Near (f : F32) (t : ℝ) : Prop := |(NUM.intUnits f : ℝ) / 2 ^ 149 - t| ≤ (1 / 2 ^ 24 + 1 / 2 ^ 60) * |t|

/-- The decided rounding of a fixed-point number near `t`. -/
theorem roundFix_near {v : ℕ} {t : ℝ} (h0 : 1 / 2 ^ 32 ≤ t) (h1 : t ≤ 1)
    (hv : |(v : ℝ) / fixOne - t| ≤ 1 / 2 ^ 63 * t) {f : F32}
    (hf : roundFix v = some f) : Near f t := by
  have hfe : f = NUM.round false 43 (v - margin) := by
    unfold roundFix at hf
    dsimp only at hf
    split at hf
    · exact (Option.some.inj hf).symm
    · cases hf
  have hE : (fixOne : ℝ) = 2 ^ 192 := by norm_num [fixOne]
  rw [hE] at hv
  have hv := abs_le.1 hv
  have hp : (0 : ℝ) < 2 ^ 192 := by positivity
  have hve : (v : ℝ) = (v : ℝ) / 2 ^ 192 * 2 ^ 192 := by field_simp
  have hvlo : (2 ^ 159 : ℝ) ≤ v := by
    rw [hve]
    nlinarith [hv.1]
  have hvhi : (v : ℝ) ≤ 2 ^ 193 := by
    rw [hve]
    nlinarith [hv.2]
  have hvlo' : 2 ^ 159 ≤ v := by exact_mod_cast hvlo
  have hvhi' : v ≤ 2 ^ 193 := by exact_mod_cast hvhi
  have hm : margin ≤ v := le_trans (by norm_num [margin]) hvlo'
  obtain ⟨w, hw, b1, b2⟩ := NUM.intUnits_round (sh := 43) (m := v - margin)
    (by norm_num [margin] at *; omega) (by norm_num [margin] at *; omega)
  have hlr : ((v - margin : ℕ) : ℝ) = v - 2 ^ 16 := by
    rw [Nat.cast_sub hm]
    norm_num [margin]
  have c1 : (2 ^ 24 : ℝ) * (w * 2 ^ 43) ≤ 2 ^ 24 * (v - 2 ^ 16) + (v - 2 ^ 16) := by
    rw [← hlr]
    exact_mod_cast b1
  have c2 : (2 ^ 24 : ℝ) * (v - 2 ^ 16) ≤ 2 ^ 24 * (w * 2 ^ 43) + (v - 2 ^ 16) := by
    rw [← hlr]
    exact_mod_cast b2
  have hval : (NUM.intUnits f : ℝ) / 2 ^ 149 = (w * 2 ^ 43 : ℝ) / 2 ^ 192 := by
    rw [hfe, hw]
    push_cast
    field_simp
  set V : ℝ := (v : ℝ) / 2 ^ 192 with hV
  set W : ℝ := (w * 2 ^ 43 : ℝ) / 2 ^ 192 with hW
  have hWe : (w * 2 ^ 43 : ℝ) = W * 2 ^ 192 := by rw [hW]; field_simp
  rw [hWe, hve] at c1 c2
  rw [Near, hval, abs_of_nonneg (show (0 : ℝ) ≤ t by linarith [show (0 : ℝ) ≤ 1 / 2 ^ 32 by positivity]), abs_le]
  have d1 : (2 ^ 24 : ℝ) * W ≤ (2 ^ 24 + 1) * (V - 1 / 2 ^ 176) := by
    have : (2 ^ 24 : ℝ) * W * 2 ^ 192 ≤ (2 ^ 24 + 1) * (V - 1 / 2 ^ 176) * 2 ^ 192 := by
      norm_num at c1 ⊢
      linarith
    exact le_of_mul_le_mul_right this hp
  have d2 : (2 ^ 24 - 1 : ℝ) * (V - 1 / 2 ^ 176) ≤ 2 ^ 24 * W := by
    have : (2 ^ 24 - 1 : ℝ) * (V - 1 / 2 ^ 176) * 2 ^ 192 ≤ 2 ^ 24 * W * 2 ^ 192 := by
      norm_num at c2 ⊢
      linarith
    exact le_of_mul_le_mul_right this hp
  obtain ⟨v1, v2⟩ := hv
  clear c1 c2 hWe hve hval hW hV
  clear_value V W
  constructor
  · norm_num at v1 d2 h0 ⊢
    linarith
  · norm_num at v2 d1 h0 ⊢
    linarith

/-- The angle is within the range of the series. -/
theorem angle_bounds {rate r : ℕ} (hr : 0 < r) (h : 2 * r ≤ rate) (hn : rate ≤ 2147483647) :
    (1 : ℝ) / 2 ^ 31 ≤ r / rate ∧ (r : ℝ) / rate ≤ 1 / 2 ∧
    |((halfPi * r / rate : ℕ) : ℝ) / fixOne - Real.pi / 2 * (r / rate)| ≤ 1 / 2 ^ 64 * (r / rate) + 1 / fixOne ∧
    ((halfPi * r / rate : ℕ) : ℝ) / fixOne ≤ 4 / 5 := by
  have hrate : (0 : ℝ) < rate := by exact_mod_cast (by omega : 0 < rate)
  have q1 : (1 : ℝ) / 2 ^ 31 ≤ r / rate := by
    rw [div_le_div_iff₀ (by positivity) hrate]
    have h1 : (1 : ℝ) ≤ r := by exact_mod_cast hr
    have h2 : (rate : ℝ) ≤ 2147483647 := by exact_mod_cast hn
    norm_num
    linarith
  have q2 : (r : ℝ) / rate ≤ 1 / 2 := by
    rw [div_le_div_iff₀ hrate (by norm_num)]
    have h1 : (2 * r : ℝ) ≤ rate := by exact_mod_cast h
    linarith
  have ha := angle_error rate r (by omega)
  refine ⟨q1, q2, ha, ?_⟩
  have ha := (abs_le.1 ha).2
  have hpi := Real.pi_lt_d2
  have hE : (1 : ℝ) / fixOne ≤ 1 / 2 ^ 64 := one_div_le_one_div_of_le (by positivity) (by norm_num [fixOne])
  have e64 : (1 : ℝ) / 2 ^ 64 ≤ 1 / 1000 := by norm_num
  nlinarith

theorem cosFix_near {rate r : ℕ} (hr : 0 < r) (h : 2 * r ≤ rate) (hn : rate ≤ 2147483647) {f : F32}
    (hf : roundFix (cosFix (halfPi * r / rate)) = some f) : Near f (Real.cos (Real.pi / 2 * (r / rate))) := by
  obtain ⟨q1, q2, ha, h45⟩ := angle_bounds hr h hn
  have hc := cosFix_error _ h45
  have hlip := Real.abs_cos_sub_cos_le (((halfPi * r / rate : ℕ) : ℝ) / fixOne) (Real.pi / 2 * (r / rate))
  have hpi := Real.pi_lt_d2
  have hpi0 := Real.pi_pos
  have hlow : (1 : ℝ) / 2 ≤ Real.cos (Real.pi / 2 * (r / rate)) := by
    have h1 := Real.one_sub_sq_div_two_le_cos (x := Real.pi / 2 * (r / rate))
    have h2 : Real.pi / 2 * ((r : ℝ) / rate) ≤ 0.8 := by nlinarith
    have h3 : 0 ≤ Real.pi / 2 * ((r : ℝ) / rate) := by positivity
    nlinarith
  refine roundFix_near (by norm_num at *; linarith) (Real.cos_le_one _) ?_ hf
  have h1 := abs_sub_le ((cosFix (halfPi * r / rate) : ℝ) / fixOne) (Real.cos (((halfPi * r / rate : ℕ) : ℝ) / fixOne))
    (Real.cos (Real.pi / 2 * (r / rate)))
  refine h1.trans ((add_le_add hc (hlip.trans ha)).trans ?_)
  rw [show (fixOne : ℝ) = 2 ^ 192 by norm_num [fixOne]]
  norm_num at q1 q2 hlow ⊢
  linarith

theorem sinFix_near {rate r : ℕ} (hr : 0 < r) (h : 2 * r ≤ rate) (hn : rate ≤ 2147483647) {f : F32}
    (hf : roundFix (sinFix (halfPi * r / rate)) = some f) : Near f (Real.sin (Real.pi / 2 * (r / rate))) := by
  obtain ⟨q1, q2, ha, h45⟩ := angle_bounds hr h hn
  have hc := sinFix_error _ h45
  have hlip := Real.abs_sin_sub_sin_le (((halfPi * r / rate : ℕ) : ℝ) / fixOne) (Real.pi / 2 * (r / rate))
  have hpi0 := Real.pi_pos
  have hlow : (r : ℝ) / rate ≤ Real.sin (Real.pi / 2 * (r / rate)) := by
    have h1 := Real.mul_le_sin (x := Real.pi / 2 * (r / rate)) (by positivity) (by nlinarith)
    have e : 2 / Real.pi * (Real.pi / 2 * ((r : ℝ) / rate)) = r / rate := by field_simp
    rwa [e] at h1
  refine roundFix_near (le_trans (by norm_num at *; linarith) hlow) (Real.sin_le_one _) ?_ hf
  have h1 := abs_sub_le ((sinFix (halfPi * r / rate) : ℝ) / fixOne) (Real.sin (((halfPi * r / rate : ℕ) : ℝ) / fixOne))
    (Real.sin (Real.pi / 2 * (r / rate)))
  refine h1.trans ((add_le_add hc (hlip.trans ha)).trans ?_)
  rw [show (fixOne : ℝ) = 2 ^ 192 by norm_num [fixOne]]
  norm_num at q1 q2 hlow ⊢
  linarith

/-- The decided components of a quarter turn are its cosine and sine. -/
theorem quarter_near {rate r : ℕ} (hr : r < rate) (hn : rate ≤ 2147483647) {c s : F32} (h : quarter rate r = (some c, some s)) :
    Near c (Real.cos (Real.pi / 2 * (r / rate))) ∧ Near s (Real.sin (Real.pi / 2 * (r / rate))) := by
  unfold quarter at h
  split at h
  case isTrue h0 =>
    obtain ⟨rfl, rfl⟩ := h
    subst h0
    constructor <;> norm_num [Near, show NUM.intUnits NUM.one = 2 ^ 149 by decide, show NUM.intUnits NUM.zero = 0 by decide]
  case isFalse h0 =>
    split at h
    case isTrue h2 =>
      obtain ⟨hc, hs⟩ := Prod.mk.inj h
      exact ⟨cosFix_near (by omega) h2 hn hc, sinFix_near (by omega) h2 hn hs⟩
    case isFalse h2 =>
      obtain ⟨hc, hs⟩ := Prod.mk.inj h
      have hrate : (rate : ℝ) ≠ 0 := by exact_mod_cast (by omega : rate ≠ 0)
      have e : Real.pi / 2 * (r / rate) = Real.pi / 2 - Real.pi / 2 * ((rate - r : ℕ) / rate) := by
        rw [Nat.cast_sub hr.le]
        field_simp
        ring
      rw [e, Real.cos_pi_div_two_sub, Real.sin_pi_div_two_sub]
      exact ⟨sinFix_near (by omega) (by omega) hn hc, cosFix_near (by omega) (by omega) hn hs⟩

theorem intUnits_negate (v : F32) : NUM.intUnits (negate v) = -NUM.intUnits v := by
  unfold negate
  split
  case isTrue h => subst h; decide
  case isFalse h =>
    have hm : NUM.magBits (NUM.neg v) = NUM.magBits v := by
      have e : (NUM.neg v).setWidth 31 = v.setWidth 31 := by
        rw [NUM.neg, BitVec.setWidth_xor, show (0x80000000#32).setWidth 31 = 0#31 by decide, BitVec.xor_zero]
      have e := congrArg BitVec.toNat e
      rwa [BitVec.toNat_setWidth, BitVec.toNat_setWidth] at e
    have hs : NUM.neg? (NUM.neg v) = !NUM.neg? v := by
      rw [NUM.neg?, NUM.neg, BitVec.msb_xor, show (0x80000000#32).msb = true by decide, Bool.xor_true]
      rfl
    unfold NUM.intUnits NUM.units
    rw [hm, hs]
    cases NUM.neg? v <;> simp

theorem Near.negate {f : F32} {t : ℝ} (h : Near f t) : Near (Osc.negate f) (-t) := by
  unfold Near at *
  rw [intUnits_negate, abs_neg, ← abs_neg]
  convert h using 2
  push_cast
  ring

end Sys2Proof.Osc
end

