-- ==== Sys2Proof/Laws/PerInstr.lean ====
section
/-! SUPPORT. Per command: its word selects its own row of the opcode map and no other (30_encoding.md R94). -/

namespace Sys2Proof.Laws.OwnRow

/-- The word of `i` selects a row of the opcode map exactly when that row has the opcode of `i`. -/
def Statement (i : Instr) : Prop :=
  ∀ r, r ∈ opcodeTable → (r.selects (encode i) = true ↔ opcField r.pattern = i.opc)

/-- A command word with given operands selects the rows whose zero-bit conditions its operands meet. -/
theorem of_commandWord {i : Instr} {b a : Word32} {o : BitVec 8} (he : encode i = commandWord b a o) (ho : i.opc = o)
    (hz : o = 0x01#8 ∧ b = 0#32 ∨ o = 0x02#8 ∨ o = 0x03#8 ∨ o = 0x04#8 ∧ a = 0#32 ∧ b = 0#32 ∨
      o = 0x08#8 ∧ a = 0#32 ∧ b = 0#32 ∨ o = 0x10#8 ∧ a.extractLsb' 1 31 = 0#31 ∧ b = 0#32 ∨ o = 0x11#8 ∧ b = 0#32 ∨
      o = 0x12#8 ∧ a = 0#32 ∧ b = 0#32) : Statement i := by
  intro r hr
  obtain ⟨h1, h2, h3, h4⟩ := fieldWord_fields b a 0#24 o
  rw [he, commandWord_eq_fieldWord, ho]
  rw [opcodeTable_fields] at hr
  simp only [List.mem_cons, List.not_mem_nil, or_false] at hr
  have hone : ∀ v : Word32, v &&& 0xFFFFFFFF#32 = v := fun _ => BitVec.and_allOnes
  rcases hr with rfl | rfl | rfl | rfl | rfl | rfl | rfl | rfl <;>
    rw [selects_fieldWord, h1, h2, h3, h4] <;> simp only [(fieldWord_fields _ _ _ _).1, hone, and_runMask] <;>
    rcases hz with ⟨rfl, hz⟩ | rfl | rfl | ⟨rfl, hz⟩ | ⟨rfl, hz⟩ | ⟨rfl, hz⟩ | ⟨rfl, hz⟩ | ⟨rfl, hz⟩ <;> simp_all

theorem getsample (off : Word32) : Statement (.getsample off) := of_commandWord rfl rfl (by simp)

theorem getsamples (count off : Word32) : Statement (.getsamples count off) := of_commandWord rfl rfl (by simp)

theorem sync (nullLen frameLen : Word32) : Statement (.sync nullLen frameLen) := of_commandWord rfl rfl (by simp)

theorem reset : Statement .reset := of_commandWord rfl rfl (by simp)

theorem getlevel (port : Port) : Statement (.getlevel port) := of_commandWord rfl rfl (by simp)

theorem setrun (run : Bool) : Statement (.setrun run) := of_commandWord rfl rfl (by cases run <;> decide)

theorem dumpon (target : Word32) : Statement (.dumpon target) := of_commandWord rfl rfl (by simp)

theorem dumpoff : Statement .dumpoff := of_commandWord rfl rfl (by simp)

end Sys2Proof.Laws.OwnRow
end

