-- ==== Sys2Proof/Laws/Reads.lean ====
section
/-! SUPPORT. What the three reads share, said once: their looks before RUN, and the turns of the two ports. -/

namespace Sys2Proof.Laws

open Sys2Proof.Machine Sys2Proof.Safety

/-- Before RUN the three reads differ only in their opcode and their threshold (40_sample_reader.md R122). -/
theorem exec_read_looks {i : Instr} {s : State} (hr : i.isRead = true) :
    (s.opState = .entry → exec i s = .next (s.entryLook i.opc)) ∧
    (s.opState = .wait → exec i s = .next (s.waitLook i.opc (threshold i s))) ∧
    (s.opState = .post → exec i s = .next (s.postLook i.opc)) := by
  cases i <;> simp [Instr.isRead] at hr <;> refine ⟨?_, ?_, ?_⟩ <;> intro h <;>
    simp [exec, execGetsample, execGetsamples, execSync, h, Instr.opc, threshold, unsignedOperand]

/-- The step of RESET in RUN is its second, and every other its first (40_sample_reader.md R140). -/
theorem exec_reset_cases (s : State) :
    (s.opState = .run ∧ exec .reset s = .next s.restoreDump.finishReset) ∨
    (s.opState ≠ .run ∧ exec .reset s = .next s.restoreDatapath.beginReset) := by
  cases h : s.opState <;> simp [exec, execReset, h]

/-- The dump append has its element where `DUMP_IDX` is in range while dumping (20_memory.md R50). -/
theorem dumpSlot_present {s : State} (h : s.dumpActive = true → s.dumpIdx < s.cfg.dumpBlockFrames) :
    s.dumpSlotMissing = false := by
  unfold State.dumpSlotMissing
  cases ha : s.dumpActive with
  | false => rfl
  | true => simpa using h ha

/-- Log entry 19: a read whose dump append has no element to write faults by name. No state with the invariant meets it. -/
theorem exec_dumpSlot_missing {i : Instr} {s : State} {m : Nat} {raw : Cplx} {rest : List Cplx} (hr : i.isRead = true)
    (ho : s.opState = .run) (hm : s.opRead = some ⟨m, raw :: rest⟩) (he : s.opEvent = none) (ha : s.dumpActive = true)
    (hd : s.cfg.dumpBlockFrames ≤ s.dumpIdx) : exec i s = .fault (.noSuchElement .dumpBuf s.dumpIdx) := by
  have h : s.dumpSlotMissing = true := by simp [State.dumpSlotMissing, ha, hd]
  cases i <;> simp [Instr.isRead] at hr <;> simp [exec, execGetsample, execGetsamples, execSync, ho, hm, he, h]

/-- What the fetch of a turn can be: the state itself is moved on, a command is run, or the sequencing is refused. -/
theorem fetchTurn_proc_cases (answer : PopAnswer) (s : State) :
    (s.opState = .idle ∧ fetchTurn (.proc answer) s = acceptP { s with draw := answer }) ∨
    (s.opState ≠ .idle ∧ fetchTurn (.proc answer) s = resumeP { s with draw := answer }) := by
  by_cases h : s.opState = .idle
  · exact .inl ⟨h, by simp [fetchTurn, h]⟩
  · exact .inr ⟨h, by simp [fetchTurn, h]⟩

end Sys2Proof.Laws
end

