-- ==== Sys2Proof/Tests/Slice0.lean ====
section
/-! SUPPORT. Small tests. Expected values are the spec's own (30_encoding.md R98; 95_test_vectors.md, section named at each
group) or worked by hand from its rules; the witnesses show that the hypotheses of the statements can be met. -/

set_option Elab.async false

namespace Sys2Proof.Tests

open Sys2Proof.Machine Sys2Proof.Safety

/-- `CFG_T` of 40_sample_reader.md. -/
def cfgT : Cfg where
  inputRate := 4
  alpha := 0x3E800000#32
  lowWater := 2
  notifyDiv := 1
  displayWindow := 2
  specAttached := true
  dumpBlockFrames := 2
  devBits := 8
  num := .binary32
  mag := .l1
  window := 50
  thDip := 0x3F0CCCCD#32
  thRec := 0x3F400000#32
  inputRate_pos := by decide
  inputRate_le := by decide
  alpha_pos := by decide
  alpha_lt_one := by decide
  lowWater_pos := by decide
  lowWater_le := by decide
  notifyDiv_pos := by decide
  notifyDiv_le := by decide
  dumpBlockFrames_pos := by decide
  devBits_pos := by decide
  devBits_le := by decide
  window_eq := rfl
  thDip_eq := rfl
  thRec_eq := rfl

/-- A block in `CFG_T` after reset, with `RUNNING` 1. -/
def base : State := { State.resetWith cfgT with running := true }

/-- What a test looks at in the next state, if there is one. -/
def after {α : Type} (f : State → α) : Host.Outcome State Fault Refusal → Option α
  | .next t => some (f t)
  | .fault _ => none
  | .refused _ => none

/-- The samples `(1, 0)`, `(0, 2)` and `(-1, 0)`. -/
def sOne : Cplx := ⟨0x3F800000#32, 0x00000000#32⟩
def sTwoJ : Cplx := ⟨0x00000000#32, 0x40000000#32⟩
def sMinus : Cplx := ⟨0xBF800000#32, 0x00000000#32⟩

/-! ### Decoding (95_test_vectors.md 2.1): words written out from the encoding -/

theorem test_decode_getsample : decode .P 0x000000008000000000000001#96 = .ok (.getsample 0x80000000#32) := by decide

theorem test_decode_getsample_illegal :
    decode .P 0x000000010000000000000001#96 = .illegal .operandBits ∧
    decode .C 0x000000000000000000000001#96 = .illegal .wrongPort := by decide

theorem test_decode_getsamples :
    decode .P 0x00000005FFFFFFFF00000002#96 = .ok (.getsamples 5#32 0xFFFFFFFF#32) := by decide

theorem test_decode_sync : decode .P 0x000001F40000003C00000003#96 = .ok (.sync 60#32 500#32) := by decide

theorem test_decode_reset :
    decode .P 0x000000000000000000000004#96 = .ok .reset ∧
    decode .P 0x000000000000000100000004#96 = .illegal .operandBits ∧
    decode .C 0x000000000000000000000004#96 = .illegal .wrongPort := by decide

theorem test_decode_getlevel :
    decode .P 0x000000000000000000000008#96 = .ok (.getlevel .P) ∧
    decode .C 0x000000000000000000000008#96 = .ok (.getlevel .C) := by decide

theorem test_decode_setrun :
    decode .C 0x000000000000000100000010#96 = .ok Instr.start ∧
    decode .C 0x000000000000000000000010#96 = .ok Instr.stop ∧
    decode .P 0x000000000000000100000010#96 = .illegal .wrongPort := by decide

theorem test_decode_dumpon : decode .C 0x000000000000000700000011#96 = .ok (.dumpon 7#32) := by decide

theorem test_decode_dumpoff :
    decode .C 0x000000000000000000000012#96 = .ok .dumpoff ∧
    decode .C 0x000000010000000000000012#96 = .illegal .operandBits := by decide

theorem test_decode_reserved :
    decode .P 0x000000000000000000000000#96 = .illegal .reservedOpcode ∧
    decode .C 0x000000000000000000000005#96 = .illegal .reservedOpcode ∧
    decode .P 0x0000000000000000000000FF#96 = .illegal .reservedOpcode ∧
    decode .C 0x000000000000000080000008#96 = .illegal .reservedBits := by decide

theorem test_table_words :
    decodeTableWord 96 0x000000030000000100000002 = some (.getsamples 3#32 1#32) ∧
    decodeTableWord 96 0x12 = some .dumpoff ∧ decodeTableWord 96 0x08 = some (.getlevel .P) := by decide

/-- The first step after reset with a word waiting runs that word's command. -/
theorem test_first_step :
    step (State.reset.withFetchWord 96 0x04) = exec .reset { State.reset with opCmd := 0x04#96, turns := 1 } := rfl

/-! ### WellFormed: a term on a wrong port for each of its checks -/

theorem test_wf_refuses_getsample : Instr.wellFormed .C (.getsample 0#32) = false := by decide
theorem test_wf_refuses_getsamples : Instr.wellFormed .C (.getsamples 0#32 0#32) = false := by decide
theorem test_wf_refuses_sync : Instr.wellFormed .C (.sync 0#32 0#32) = false := by decide
theorem test_wf_refuses_reset : Instr.wellFormed .C .reset = false := by decide
theorem test_wf_refuses_getlevel : Instr.wellFormed .C (.getlevel .P) = false := by decide
theorem test_wf_refuses_setrun : Instr.wellFormed .P (.setrun true) = false := by decide
theorem test_wf_refuses_dumpon : Instr.wellFormed .P (.dumpon 0#32) = false := by decide
theorem test_wf_refuses_dumpoff : Instr.wellFormed .P .dumpoff = false := by decide

/-! ### Words on the ports (2.2, 2.7) -/

theorem test_response_words :
    responseWord 0x01#8 .ok 0x00000000#32 0xBF800000#32 = 0xBF8000000000000000000100#96 ∧
    responseWord 0x02#8 .cancelled 0#32 0#32 = 0x000000000000000000000201#96 ∧
    responseWord 0x03#8 .noEndOfDipFound 0#32 0#32 = 0x000000000000000000000304#96 ∧
    responseWord 0x05#8 .illegal 0#32 0#32 = 0x00000000000000000000050F#96 := by decide

theorem test_dump_frame_bytes :
    dumpFileBytes [⟨64#16, 0xFFE0#16⟩] = [0x40#8, 0x00#8, 0xE0#8, 0xFF#8] := by decide

theorem test_sample_bytes :
    sampleBytes cfgT ⟨0x3F800000#32, 0xBF3504F3#32⟩ =
      [0x00#8, 0x00#8, 0x80#8, 0x3F#8, 0xF3#8, 0x04#8, 0x35#8, 0xBF#8] := by decide

theorem test_command_bytes :
    commandBytes 0x00000000FFFFFFFD00000001#96 =
      [0x01#8, 0x00#8, 0x00#8, 0x00#8, 0xFD#8, 0xFF#8, 0xFF#8, 0xFF#8, 0x00#8, 0x00#8, 0x00#8, 0x00#8] := by decide

/-! ### Arithmetic (2.3 to 2.7, 2.13) -/

theorem test_emod :
    NUM.emod (2 - (-2147483648)) 4 = 2 ∧ NUM.emod (0 - (-2147483648)) 2048000 = 1179648 ∧
    NUM.emod (2047999 - 2147483647) 2048000 = 868352 := by decide

theorem test_cmul_zero_sign :
    cfgT.NUM.cmul sTwoJ ⟨0xBF800000#32, 0x00000000#32⟩ = ⟨0x80000000#32, 0xC0000000#32⟩ := by decide +kernel

theorem test_cmul_last_bit :
    cfgT.NUM.cmul ⟨0x40400000#32, 0x40800000#32⟩ ⟨0xBF3504F3#32, 0x3F3504F3#32⟩ = ⟨0xC09E6454#32, 0xBF3504F4#32⟩ := by
  decide +kernel

theorem test_osc_eighth : Osc.entry 8 3 = ⟨0xBF3504F3#32, 0x3F3504F3#32⟩ := by decide +kernel

theorem test_osc_twelfth : Osc.entry 12 5 = ⟨0xBF5DB3D7#32, 0x3F000000#32⟩ := by decide +kernel

theorem test_magnitudes :
    cfgT.NUM.magL1 ⟨0xC0400000#32, 0xBF800000#32⟩ = 0x40800000#32 ∧
    cfgT.NUM.magMaxMin ⟨0xC0400000#32, 0xBF800000#32⟩ = 0x40600000#32 := by decide +kernel

theorem test_level_default_alpha :
    (({ State.reset with level := 0x37A7C575#32 } : State).levelStep sOne).level = 0x37FBA7DD#32 := by decide +kernel

theorem test_one_minus_alpha : NUM.sub NUM.one Cfg.default.alpha = 0x3F7FFF58#32 := by decide +kernel

/-- 0.999, -0.999, 255.9921875, 256 and -300 with `DEV_BITS = 8`. -/
theorem test_dump_scaling :
    NUM.toI16 (NUM.mul 0x3F7FBE77#32 (dumpScale cfgT)) = 127#16 ∧
    NUM.toI16 (NUM.mul 0xBF7FBE77#32 (dumpScale cfgT)) = BitVec.ofInt 16 (-127) ∧
    NUM.toI16 (NUM.mul 0x437FFE00#32 (dumpScale cfgT)) = 32767#16 ∧
    NUM.toI16 (NUM.mul 0x43800000#32 (dumpScale cfgT)) = 32767#16 ∧
    NUM.toI16 (NUM.mul 0xC3960000#32 (dumpScale cfgT)) = BitVec.ofInt 16 (-32768) := by decide +kernel

/-- `LEVEL = 1`: at `SY_SUM` 27.5 and 37.5 the comparisons are at equality. -/
theorem test_thresholds_at_equality :
    ({ base with level := 0x3F800000#32, sySum := 0x41DC0000#32 } : State).aboveDip = false ∧
    ({ base with level := 0x3F800000#32, sySum := 0x41E00000#32 } : State).aboveDip = true ∧
    ({ base with level := 0x3F800000#32, sySum := 0x42160000#32 } : State).aboveRec = false ∧
    ({ base with level := 0x3F800000#32, sySum := 0x42180000#32 } : State).aboveRec = true := by decide +kernel

theorem test_period : cfgT.period = 4 ∧ Cfg.default.period = 409600 := by decide

/-! ### One step of each command (2.9 to 2.14) -/

/-- GETSAMPLE 1 with `(1, 0)` popped: vector (a) of 2.9. -/
def gsRun : State := { base with opState := .run, opRead := some ⟨1, [sOne]⟩ }

theorem test_getsample :
    after (fun t => (t.phase, t.level, t.corr, t.dispBuf.read 0, t.out)) (exec (.getsample 1#32) gsRun) =
      some (3#32, 0x3E800000#32, 1#32, some sOne, [.rsp .P 0xBF8000000000000000000100#96]) := by decide +kernel

/-- The fourth sample of a batch: NOTE and SPEC are sent, and its SOUT comes next, vector (f) of 2.9. -/
def gssRun : State :=
  { base with
    opState := .run, opRead := some ⟨5, [sOne, ⟨0#32, 0#32⟩]⟩, level := 0x3F440000#32, scount := 3#32, dispCur := 2#32
    dispBuf := [(0, sOne), (1, sTwoJ)] }

theorem test_getsamples_period :
    after (fun t => (t.scount, t.dispCur, t.out, t.opEvent)) (exec (.getsamples 5#32 0#32) gssRun) =
      some (0#32, 0#32, [.note 0#32 0x3F530000#32, .spec [sOne, sTwoJ]], some (.sout sOne)) := by decide +kernel

theorem test_pending_event_goes_first :
    after (fun t => (t.opEvent, t.out, t.opRead)) (exec (.getsamples 5#32 0#32) { gssRun with opEvent := some (.sout sOne) }) =
      some (none, [.sout sOne], gssRun.opRead) := by decide +kernel

/-- A batch read that returned nothing: vector (d) of 2.9. -/
theorem test_getsamples_none :
    after (fun t => (t.opState, t.out))
      (exec (.getsamples 3#32 1#32) { base with opState := .run, opRead := some ⟨0, []⟩ }) =
      some (.idle, [.rsp .P 0x000000000000000000000200#96]) := by decide

/-- The 50th priming sample ends the phase (42_time_syncer.md R184). -/
def primeLast : State :=
  { base with
    opState := .run, opRead := some ⟨1, [sOne]⟩, syState := .prime, syCnt := 49#33, sySum := 0x42440000#32 }

theorem test_sync_prime_end :
    after (fun t => (t.syState, t.syCnt, t.sySum, t.env.read 49)) (exec (.sync 0#32 0#32) primeLast) =
      some (.dip, 0#33, 0x42480000#32, some 0x3F800000#32) := by decide +kernel

/-- The sample that exhausts the counter decides, whatever the average: S5 of 2.14. -/
def dipLast : State :=
  { base with
    opState := .run, opRead := some ⟨1, [sOne]⟩, syState := .dip, level := 0x3F800000#32, sySum := 0x42480000#32
    env := [(0, 0x3F800000#32)] }

theorem test_sync_no_dip :
    after (fun t => (t.syState, t.syIdx, t.syCnt, t.sySum, t.out)) (exec (.sync 60#32 0#32) dipLast) =
      some (.idle, 1, 1#33, 0x42480000#32, [.rsp .P 0x000000000000000000000303#96]) := by decide +kernel

/-- A block that is dumping, with one frame buffered. -/
def dumping : State :=
  { base with dumpActive := true, dumpTarget := 7#32, dumpIdx := 1, dumpBuf := [(0, ⟨64#16, 0#16⟩)] }

/-- Between its two steps RESET has written `LEVEL` and not the dump state (20_memory.md R74). -/
theorem test_reset_level_first :
    after (fun t => (t.opState, t.dumpActive, t.dumpIdx, t.level, t.out))
      (exec .reset { dumping with level := 0x3F440000#32 }) = some (.run, true, 1, 0#32, []) := by decide

theorem test_reset_discards_residue :
    after (fun t => (t.dumpActive, t.dumpIdx, t.running, t.opState, t.out)) (exec .reset { dumping with opState := .run }) =
      some (false, 0, true, .idle, [.rsp .P 0x000000000000000000000400#96]) := by decide

theorem test_getlevel :
    after State.out (exec (.getlevel .C) { base with level := 0x3F300000#32 }) =
      some [.rsp .C 0x000000003F30000000000800#96] := by decide

theorem test_setrun : after (fun t => (t.running, t.out)) (exec (.setrun false) base) =
    some (false, [.rsp .C 0x000000000000000000001000#96]) := by decide

theorem test_dumpon_replaces : after (fun t => (t.dumpTarget, t.dumpIdx, t.out)) (exec (.dumpon 9#32) dumping) =
    some (9#32, 0, [.dump 7#32 [⟨64#16, 0#16⟩], .rsp .C 0x000000000000000000001100#96]) := by decide

theorem test_dumpoff_flushes : after (fun t => (t.dumpActive, t.dumpTarget, t.out)) (exec .dumpoff dumping) =
    some (false, 0#32, [.dump 7#32 [⟨64#16, 0#16⟩], .rsp .C 0x000000000000000000001200#96]) := by decide

theorem test_dumpoff_inactive : after State.out (exec .dumpoff base) =
    some [.rsp .C 0x000000000000000000001200#96] := by decide

/-! ### Witnesses: states that meet the hypotheses of the statements -/

theorem witness_DecodeInvertsEncode : (Instr.getsample 0x80000000#32).wellFormed .P = true ∧
    (Instr.dumpon 0xFFFFFFFF#32).wellFormed .C = true ∧ (Instr.getlevel .C).wellFormed .C = true := by decide

theorem witness_EncodeInvertsDecode : decode .P 0xFFFFFFFF0000000000000002#96 = .ok (.getsamples 0xFFFFFFFF#32 0#32) := by
  decide

theorem witness_IllegalWordSelectsNoRow :
    decode .C 0x000000000000000000000001#96 = .illegal .wrongPort ∧
    (∃ r, r ∈ opcodeTable ∧ r.legalOn .P = true ∧ r.selects 0x000000000000000000000001#96 = true) := by decide

theorem witness_AcceptedReadEntersEntry : base.opState = .idle := rfl

/-- A GETSAMPLE in its wait with one sample there, and with exactly `LOW_WATER`. -/
def held : State := { base with opState := .wait, opCmd := encode (.getsample 1#32), dev := [sOne] }
def served : State := { held with dev := [sOne, sTwoJ] }

theorem witness_ReadPassesAvailabilityWait :
    ({ base with opState := .entry } : State).running = true ∧
    threshold (.getsample 1#32) served = served.dev.length ∧ served.opPolled = false ∧ served.opState = .wait ∧
    threshold (.getsample 1#32) held = held.dev.length + 1 ∧ held.opPolled = false ∧ held.opState = .wait ∧
    threshold (.getsamples 0#32 0#32) base = 0 ∧ threshold (.sync 0#32 0#32) base = 2 ∧
    ({ held with opPolled := true } : State).running = true ∧ ({ base with opState := .post } : State).running = true := by
  decide

theorem witness_CancelledReadWritesNothingElse :
    (Instr.sync 0#32 0#32).isRead = true ∧
    ({ base with opState := .entry, running := false } : State).running = false ∧
    ({ held with opPolled := true, running := false } : State).opState = .wait ∧
    ({ base with opState := .post, running := false } : State).opState = .post := by decide

theorem witness_ReadCancelledAtEntry :
    ({ base with running := false, cmdP := [encode (.sync 1#32 2#32)], dev := [sOne] } : State).opState = .idle := rfl

theorem witness_HeldReadStaysHeld :
    decode .P held.opCmd = .ok (.getsample 1#32) ∧ (Instr.getsample 1#32).isRead = true ∧ held.opState = .wait ∧
    held.opPolled = false ∧ held.running = true ∧ held.dev.length < threshold (.getsample 1#32) held := by decide

/-- A schedule in which the device, `C` and `P` take turns, from a read that waits with `RUNNING` 0. -/
def fairSched (n : Nat) : Turn := if n % 3 = 0 then .dev [sOne] else if n % 3 = 1 then .ctrl else .proc ⟨0, 0#32⟩

theorem witness_WaitingReadCancelsUnderFairness :
    (∃ s : State, decode .P s.opCmd = .ok (.getsample 1#32) ∧ s.opState = .wait ∧ s.running = false ∧
      s.cmdC = [encode .dumpoff] ∧ ∀ w ∈ s.cmdC, decode .C w ≠ .ok (.setrun true)) ∧
    (∀ n, fairSched n ≠ .hwReset) ∧ FairToP fairSched := by
  refine ⟨⟨{ held with running := false, cmdC := [encode .dumpoff] }, by decide, rfl, rfl, rfl, fun w hw => ?_⟩,
    fun n => ?_, fun n => ?_⟩
  · rw [List.mem_singleton.1 hw]
    decide
  · unfold fairSched
    split
    · simp
    · split <;> simp
  · exact ⟨3 * n + 2, ⟨0, 0#32⟩, by omega, by simp [fairSched, show (3 * n + 2) % 3 = 2 by omega]⟩

theorem witness_WaitingReadCancelsWithinOnePoll :
    ∃ s : State, decode .P s.opCmd = .ok (.getsample 1#32) ∧ s.opState = .wait ∧ s.running = false :=
  ⟨{ held with running := false }, by decide⟩

theorem witness_PopCountWithinBounds :
    popCount 1 1 0 = 1 ∧ popCount 0 5 7 = 0 ∧ popCount 3 3 3 = 3 ∧ popCount 3 2 7 = 2 ∧ popCount 3 3 0 = 0 := by decide

theorem witness_DeviceReadTakesOldest :
    ({ served with opState := .run } : State).opRead = none ∧ ({ served with opState := .run } : State).opEvent = none ∧
    ({ served with opState := .run, opEvent := some (.gain 0#32 1) } : State).opEvent = some (.gain 0#32 1) ∧
    (0#32 : Word32).toNat = 0 := by decide

/-- Samples below, at, and one short of the limits of the window, the period and the dump buffer. -/
theorem witness_RawSampleAppendedWhileDumping :
    base.dumpActive = false ∧ dumping.dumpActive = true ∧ dumping.dumpIdx + 1 = dumping.cfg.dumpBlockFrames ∧
    ({ dumping with dumpIdx := 0 } : State).dumpIdx + 1 < dumping.cfg.dumpBlockFrames := by decide

theorem witness_WindowAndPeriodCountSamples :
    (gssRun.dispCur.toNat ≤ gssRun.scount.toNat ∧ gssRun.scount.toNat < gssRun.cfg.period ∧
      gssRun.cfg.displayWindow = gssRun.dispCur.toNat ∧ gssRun.cfg.period = gssRun.scount.toNat + 1) ∧
    (base.dispCur.toNat ≤ base.scount.toNat ∧ base.dispCur.toNat < base.cfg.displayWindow ∧
      base.scount.toNat + 1 < base.cfg.period) := by decide

theorem witness_SampleEventsInOrder :
    gssRun.dispCur.toNat ≤ gssRun.scount.toNat ∧ gssRun.scount.toNat < gssRun.cfg.period := by decide

theorem witness_SampleLeavesOtherState : ∃ t, t = base.afterSample sOne 1#32 := ⟨_, rfl⟩

theorem witness_ToI16TruncatesAndSaturates :
    NUM.isFinite 0xC7000000#32 = true ∧ (NUM.toI16 0xC7000000#32).toInt = -32768 ∧
    NUM.isFinite 0x7F7FFFFF#32 = true ∧ (NUM.toI16 0x7F7FFFFF#32).toInt = 32767 := by decide +kernel

theorem witness_QuarterCycleEntriesExact :
    1 ≤ 1 ∧ (2 ∣ 2) ∧ (4 ∣ 4) ∧ 5 < 12 ∧ (Osc.quarter 12 (4 * 5 % 12)).1.isSome = true ∧
    (Osc.quarter 12 (4 * 5 % 12)).2.isSome = true ∧ (Osc.quarter 12 (4 * 6 % 12)).1.isSome = true := by decide +kernel

/-- Averages above, at and below both thresholds of `LEVEL = 1`, which are finite (42_time_syncer.md R186). -/
theorem witness_ThresholdComparisonsStrict :
    (∃ dip, dip = NUM.mul (NUM.ofDec 55 100) 0x3F800000#32 ∧ NUM.isFinite dip = true ∧
      NUM.intUnits dip < NUM.intUnits (NUM.div 0x41E00000#32 (NUM.ofInt 50)) ∧
      NUM.intUnits (NUM.div 0x41DC0000#32 (NUM.ofInt 50)) = NUM.intUnits dip ∧
      NUM.intUnits (NUM.div 0x41D00000#32 (NUM.ofInt 50)) < NUM.intUnits dip) ∧
    ∃ rec, rec = NUM.mul (NUM.ofDec 75 100) 0x3F800000#32 ∧ NUM.isFinite rec = true ∧
      NUM.intUnits rec < NUM.intUnits (NUM.div 0x42180000#32 (NUM.ofInt 50)) ∧
      NUM.intUnits (NUM.div 0x42160000#32 (NUM.ofInt 50)) = NUM.intUnits rec ∧
      NUM.intUnits (NUM.div 0x42100000#32 (NUM.ofInt 50)) < NUM.intUnits rec :=
  ⟨⟨_, rfl, by decide +kernel⟩, ⟨_, rfl, by decide +kernel⟩⟩

theorem witness_SumRoundedToNearest :
    NUM.isFinite 0x3F800000#32 = true ∧ NUM.isFinite 0x33000000#32 = true ∧
    NUM.isFinite (NUM.add 0x3F800000#32 0x33000000#32) = true := by decide +kernel

theorem witness_ProductRoundedToNearest :
    NUM.isFinite 0x3FFFFFFF#32 = true ∧ NUM.isFinite (NUM.mul 0x3FFFFFFF#32 0x3FFFFFFF#32) = true := by decide +kernel

theorem witness_GetsampleAnswersCorrectedSample :
    gsRun.opState = .run ∧ gsRun.opRead = some ⟨1, [sOne]⟩ ∧ gsRun.opEvent = none ∧ gsRun.dumpActive = false ∧
    ({ gsRun with dumpActive := true, dumpIdx := 1 } : State).dumpIdx < gsRun.cfg.dumpBlockFrames := by decide

theorem witness_GetsamplesProcessesNextSample :
    gssRun.opState = .run ∧ gssRun.opRead = some ⟨5, [sOne, ⟨0#32, 0#32⟩]⟩ ∧ gssRun.opEvent = none ∧
    gssRun.dumpActive = false := by decide

theorem witness_GetsamplesAnswersActualCount :
    ({ base with opState := .run, opRead := some ⟨3, []⟩ } : State).opRead = some ⟨3, []⟩ ∧ base.opEvent = none := by decide

theorem witness_PortWordsAreLittleEndian :
    ∃ (n : Nat) (w : BitVec n), 8 ∣ n ∧ littleEndian w = [0xFD#8, 0xFF#8, 0x01#8] := ⟨24, 0x01FFFD#24, by decide⟩

theorem test_dump_slot_missing :
    exec (.getsample 1#32) { gsRun with dumpActive := true, dumpIdx := 2 } = .fault (.noSuchElement .dumpBuf 2) := rfl

theorem witness_GetsampleRunsToItsAnswer :
    ∃ s : State, s.opState = .idle ∧ s.running = true ∧ s.cmdP = [encode (.getsample 1#32)] ∧ s.dev = [sOne, sTwoJ] ∧
      s.cfg.lowWater ≤ s.dev.length ∧ (s.dumpActive = true → s.dumpIdx < s.cfg.dumpBlockFrames) :=
  ⟨{ base with cmdP := [encode (.getsample 1#32)], dev := [sOne, sTwoJ] }, by decide⟩

theorem witness_GetsamplesRunsToItsAnswer :
    ∃ s : State, s.opState = .idle ∧ s.running = true ∧ s.cmdP = [encode (.getsamples 2#32 1#32)] ∧
      (2#32 : Word32).toNat ≤ s.dev.length ∧ (s.dumpActive = true → s.dumpIdx < s.cfg.dumpBlockFrames) ∧
      1 = popCount (2#32 : Word32).toNat s.dev.length 1 :=
  ⟨{ base with cmdP := [encode (.getsamples 2#32 1#32)], dev := [sOne, sTwoJ] }, by decide⟩

theorem witness_PhaseFollowsCumulativeOffset : base.phase.toNat < base.cfg.inputRate := by decide

theorem witness_NotificationEveryPeriod : base.scount = 0#32 := rfl

theorem witness_SyncStartsFresh : base.opState = .idle := rfl

theorem witness_SyncPrimesWindow :
    primeLast.opState = .run ∧ primeLast.opRead = some ⟨1, [sOne]⟩ ∧ primeLast.opEvent = none ∧ primeLast.syState = .prime ∧
    primeLast.syCnt.toNat = 49 ∧ primeLast.dumpActive = false ∧
    ({ primeLast with syCnt := 0#33 } : State).syCnt.toNat < 49 := by decide

theorem witness_SyncDipSearchSample :
    dipLast.opState = .run ∧ dipLast.opRead = some ⟨1, [sOne]⟩ ∧ dipLast.opEvent = none ∧ dipLast.syState = .dip ∧
    dipLast.dumpActive = false ∧
    dipLast.syFrame.toNat < dipLast.syCnt.toNat + 1 ∧
    ({ dipLast with syFrame := 1#32 } : State).syCnt.toNat + 1 = ({ dipLast with syFrame := 1#32 } : State).syFrame.toNat := by
  decide

/-- The last sample of a recovery search, and the one before it. -/
def recLast : State := { dipLast with syState := .recover, syCnt := 50#33 }

theorem witness_SyncRecoverySearchSample :
    recLast.opState = .run ∧ recLast.opRead = some ⟨1, [sOne]⟩ ∧ recLast.opEvent = none ∧ recLast.syState = .recover ∧
    recLast.dumpActive = false ∧ recLast.syNull.toNat + 50 < recLast.syCnt.toNat + 1 ∧
    ({ recLast with syCnt := 49#33 } : State).syCnt.toNat + 1 = recLast.syNull.toNat + 50 := by decide

/-- Between two reads of a SYNC, at a window sum where the tests of both searches go each way. -/
def between (y : SyState) (sum : F32) : State :=
  { base with opState := .run, opRead := some ⟨1, []⟩, syState := y, level := 0x3F800000#32, sySum := sum }

theorem witness_SyncLoopTests :
    (between .prime 0#32).opRead = some ⟨0 + 1, []⟩ ∧ (between .prime 0#32).opEvent = none ∧
    (between .dip 0x41E00000#32).aboveDip = true ∧
    (between .dip 0x41DC0000#32).aboveDip = false ∧ (between .recover 0x42160000#32).aboveRec = false ∧
    (between .recover 0x42180000#32).aboveRec = true := by decide +kernel

/-- A reset block with a command, turns and samples waiting is sound. -/
theorem inv_base (xs : List Cplx) (c p : List Word96) (ts : List Turn) :
    Inv { base with dev := xs, cmdC := c, cmdP := p, sched := ts } := by
  constructor <;> simp [base, State.resetWith, envSound, counterSound] <;> decide

theorem witness_SyncEndsWithVerdictAndCount :
    ∃ s : State, Inv s ∧ s.opState = .idle ∧ s.running = true ∧ s.cmdP = [encode (.sync 0#32 0#32)] ∧
      s.cfg.lowWater + ((0#32 : Word32).toNat + (0#32 : Word32).toNat + 102) ≤ s.dev.length :=
  ⟨_, inv_base (List.replicate 104 sOne) [] [encode (.sync 0#32 0#32)] [], by decide⟩

theorem witness_StepRunsAcceptedCommand :
    ∃ s : State, s.sched = [.proc ⟨0, 0#32⟩] ∧ s.opState = .idle ∧ s.cmdP = [encode .reset] ∧
      decode .P (encode .reset) = .ok .reset :=
  ⟨{ base with sched := [.proc ⟨0, 0#32⟩], cmdP := [encode .reset] }, by decide⟩

theorem witness_StepResumesLatchedRead :
    ∃ s : State, s.sched = [.proc ⟨0, 0#32⟩] ∧ s.opState ≠ .idle ∧ decode .P s.opCmd = .ok (.getsample 1#32) :=
  ⟨{ held with sched := [.proc ⟨0, 0#32⟩] }, by decide⟩

/-- The latched command may also be a RESET between its two steps. -/
theorem witness_StepResumesReset :
    ∃ s : State, s.sched = [.proc ⟨0, 0#32⟩] ∧ s.opState ≠ .idle ∧ decode .P s.opCmd = .ok .reset :=
  ⟨{ base with opState := .run, opCmd := encode .reset, sched := [.proc ⟨0, 0#32⟩] }, by decide⟩

theorem witness_ResetRestoresRegisters :
    ({ dumping with cmdP := [encode .reset] } : State).opState = .idle ∧
    ({ dumping with opState := .run } : State).opState = .run ∧ ({ dumping with opState := .wait } : State).opState ≠ .run := by
  decide

/-- A device turn, a turn that pops, and a turn of `P` that does not (a read in its wait). -/
theorem witness_FifoKeepsArrivalOrder :
    ({ base with sched := [.dev [sOne, sTwoJ]] } : State).nextTurn = .dev [sOne, sTwoJ] ∧
    (∃ s t : State, s.nextTurn = .proc ⟨0, 0#32⟩ ∧ s.opState = .run ∧ s.opRead = none ∧ s.opEvent = none ∧
      decode .P s.opCmd = .ok (.getsample 1#32) ∧ step s = .next t ∧ t.dev = s.dev.drop 1) ∧
    ∃ s t : State, s.nextTurn = .proc ⟨0, 0#32⟩ ∧ s.opState = .wait ∧ step s = .next t ∧ t.dev = s.dev :=
  ⟨rfl, ⟨{ served with opState := .run, sched := [.proc ⟨0, 0#32⟩] }, _, rfl, rfl, rfl, rfl, by decide, rfl, rfl⟩,
   ⟨{ held with sched := [.proc ⟨0, 0#32⟩] }, _, rfl, rfl, rfl, rfl⟩⟩

theorem witness_StepRunsControlCommand :
    ∃ s : State, s.sched = [.ctrl] ∧ s.cmdC = [encode .dumpoff] ∧ decode .C (encode .dumpoff) = .ok .dumpoff :=
  ⟨{ base with sched := [.ctrl], cmdC := [encode .dumpoff] }, by decide⟩

theorem witness_IllegalWordAnswered :
    (∃ s : State, s.sched = [.proc ⟨0, 0#32⟩] ∧ s.opState = .idle ∧ s.cmdP = [0#96] ∧
      decode .P 0#96 = .illegal .reservedOpcode) ∧
    (∃ s : State, s.sched = [.ctrl] ∧ s.cmdC = [1#96] ∧ decode .C 1#96 = .illegal .wrongPort) :=
  ⟨⟨{ base with sched := [.proc ⟨0, 0#32⟩], cmdP := [0#96] }, by decide⟩,
   ⟨{ base with sched := [.ctrl], cmdC := [1#96] }, by decide⟩⟩

theorem witness_HardwareResetRestoresEverything : ∃ s : State, s.sched = [.hwReset] :=
  ⟨{ dumping with sched := [.hwReset] }, rfl⟩

/-- A SETRUN 0 on the control port: a sound state whose step is a control turn and changes `RUNNING`. -/
theorem witness_step_statements :
    ∃ s t : State, Inv s ∧ step s = .next t ∧ s.nextTurn = .ctrl ∧ t.running ≠ s.running :=
  ⟨_, _, inv_base [] [encode (.setrun false)] [] [.ctrl], rfl, rfl, by decide⟩

end Sys2Proof.Tests
end

/-! ## The per-sample pipeline: phase and level (40_sample_reader.md R132, R134) -/

namespace Sys2Proof.Proofs.SampleReader

open Sys2Proof.Machine

/-! ### The phase update -/

/-- `signedOperand` is the two's complement value of its word (30_encoding.md R92). -/
theorem nextPhase_cast (s : State) (off : Word32) :
    (s.nextPhase off : Int) = (s.phase.toInt - off.toInt) % (s.cfg.inputRate : Int) :=
  emod_cast (s.phase.toInt - off.toInt) s.cfg.inputRate_pos

/-- A rate fits in 31 bits, so the phase just written reads the same signed and unsigned. -/
theorem afterSample_phase_toInt (s : State) (raw : Cplx) (off : Word32) :
    (s.afterSample raw off).phase.toInt = (s.nextPhase off : Int) := by
  have hphase : (s.afterSample raw off).phase.toNat = s.nextPhase off := (s.afterSample_phase raw off).1
  have hlt : (s.afterSample raw off).phase.toNat < s.cfg.inputRate := hphase ▸ s.nextPhase_lt off
  rw [toInt_of_lt_rate hlt, hphase]

/-- Settles O20: the phase written is `nextPhase`, a Euclidean remainder by the rate. -/
theorem phaseMovesBackByOffset : Obligations.PhaseMovesBackByOffset := by
  intro s raw off
  have hlt : s.nextPhase off < s.cfg.inputRate := s.nextPhase_lt off
  rw [afterSample_phase_toInt]
  refine ⟨nextPhase_cast s off, ?nonneg, ?below, (s.afterSample_phase raw off).2⟩
  case nonneg => exact Int.natCast_nonneg _
  case below => exact Int.ofNat_lt.2 hlt

/-! ### The two magnitudes and the level update -/

/-- The factor of `MAG_MAXMIN` (00_scope.md R13) is exact: one half is a binary32 value. -/
theorem ofDec_half : NUM.ofDec 1 2 = 0x3F000000#32 := by decide +kernel

theorem MAG_of_l1 {c : Cfg} (h : c.mag = .l1) (z : Cplx) :
    c.MAG z = NUM.add (NUM.abs z.re) (NUM.abs z.im) := by
  simp [Cfg.MAG, h, NumRecord.magL1]

theorem MAG_of_maxMin {c : Cfg} (h : c.mag = .maxMin) (z : Cplx) :
    c.MAG z =
      if NUM.ge (NUM.abs z.re) (NUM.abs z.im) = true then
        NUM.add (NUM.abs z.re) (NUM.mul 0x3F000000#32 (NUM.abs z.im))
      else NUM.add (NUM.abs z.im) (NUM.mul 0x3F000000#32 (NUM.abs z.re)) := by
  simp [Cfg.MAG, h, NumRecord.magMaxMin, ofDec_half]

/-- Settles O22: the level update of `ProcessSample`, and each configured magnitude by its own equation; which
component `MAG_MAXMIN` calls the larger follows `NUM.ge`, as the model does (log entry 16). -/
theorem levelIsSmoothedMagnitude : Obligations.LevelIsSmoothedMagnitude := by
  intro s raw off
  refine ⟨s.afterSample_level raw off, fun z hmag => MAG_of_l1 hmag z, fun z mx mn hmag hpair => ?maxMin⟩
  rw [MAG_of_maxMin hmag]
  split at hpair
  case isTrue hge =>
    obtain ⟨rfl, rfl⟩ := Prod.mk.inj hpair
    exact if_pos hge
  case isFalse hge =>
    obtain ⟨rfl, rfl⟩ := Prod.mk.inj hpair
    exact if_neg hge

end Sys2Proof.Proofs.SampleReader

/-! ## The start of a SYNC (42_time_syncer.md R181) -/

namespace Sys2Proof.Proofs.TimeSyncer

open Sys2Proof.Machine

/-- The dispatch arm of SYNC. -/
theorem exec_sync (n f : Word32) (s : State) : exec (.sync n f) s = execSync n f s := rfl

/-- The step of SYNC in IDLE: the working registers are set before the first read begins. -/
theorem execSync_of_idle (n f : Word32) {s : State} (hidle : s.opState = .idle) :
    execSync n f s = .next (s.syncStart n f).beginRead := by
  simp only [execSync, hidle]

/-- The cleared sum is the word of +0, whatever the configuration (00_scope.md R12). -/
theorem syncStart_eq (s : State) (n f : Word32) :
    s.syncStart n f =
      { s with syNull := n, syFrame := f, sySum := 0#32, syIdx := 0, syCnt := 0#33, syState := .prime } := by
  simp only [State.syncStart, Cfg.NUM_zero, NUM.zero]

/-- Settles O40: in IDLE the step is `syncStart` and then `beginRead`, and these two write the fields of R181 and
the sequencing of the read, no other. -/
theorem syncStartsFresh : Obligations.SyncStartsFresh := by
  intro n f s hidle
  rw [exec_sync, execSync_of_idle n f hidle, syncStart_eq, State.beginRead]

end Sys2Proof.Proofs.TimeSyncer

/-! ## Cancellation and illegal words (60_exceptions.md R211, R214) -/

namespace Sys2Proof.Proofs.Exceptions

open Sys2Proof.Machine Sys2Proof.Laws

/-! ### The looks at `RUNNING` that see 0 -/

theorem entryLook_of_stopped {s : State} (hstop : s.running = false) (o : BitVec 8) :
    s.entryLook o = s.takeCancelled o := by
  simp [State.entryLook, hstop]

/-- The look at `RUNNING` of a poll iteration; the look before it has found too few samples (40_sample_reader.md R122). -/
theorem waitLook_of_polled_stopped {s : State} (hpolled : s.opPolled = true) (hstop : s.running = false) (o : BitVec 8)
    (th : Nat) : s.waitLook o th = s.takeCancelled o := by
  simp [State.waitLook, hpolled, hstop]

theorem postLook_of_stopped {s : State} (hstop : s.running = false) (o : BitVec 8) :
    s.postLook o = s.takeCancelled o := by
  simp [State.postLook, hstop]

/-- The three places where a read raises `Cancelled` (60_exceptions.md R211). -/
theorem exec_read_of_stopped {i : Instr} {s : State} (hread : i.isRead = true) (hstop : s.running = false)
    (hlook : s.opState = .entry ∨ (s.opState = .wait ∧ s.opPolled = true) ∨ s.opState = .post) :
    exec i s = .next (s.takeCancelled i.opc) := by
  obtain ⟨entry, wait, post⟩ := exec_read_looks (s := s) hread
  rcases hlook with hentry | ⟨hwait, hpolled⟩ | hpost
  · rw [entry hentry, entryLook_of_stopped hstop]
  · rw [wait hwait, waitLook_of_polled_stopped hpolled hstop]
  · rw [post hpost, postLook_of_stopped hstop]

/-- Every field that `raise Cancelled` writes; the record update is its frame. -/
theorem takeCancelled_eq (s : State) (o : BitVec 8) :
    s.takeCancelled o = { s with
      opState := .idle, opPolled := false, opRead := none, opEvent := none
      syState := if o = 0x03#8 then .idle else s.syState
      out := s.out ++ [.rsp .P (responseWord o .cancelled 0#32 0#32)] } := rfl

/-- Settles O14: at each of the three places the step is `takeCancelled` with the opcode of the read. -/
theorem cancelledReadWritesNothingElse : Obligations.CancelledReadWritesNothingElse := by
  intro i s hread hstop hlook
  rw [exec_read_of_stopped hread hstop hlook, takeCancelled_eq]

/-! ### The fetch of a turn, and a word the decoder refuses -/

/-- A listed turn is the next one, and it is taken off the list and counted (20_memory.md R74). -/
theorem fetch_of_sched {s : State} {t : Turn} {ts : List Turn} (hsched : s.sched = t :: ts) :
    fetch s = fetchTurn t { s with sched := ts, turns := s.turns + 1 } := by
  simp only [fetch, State.nextTurn, State.passTurn, hsched, List.tail_cons]

theorem fetch_proc_of_idle {s : State} {d : PopAnswer} {ts : List Turn} (hsched : s.sched = .proc d :: ts)
    (hidle : s.opState = .idle) : fetch s = acceptP { s with sched := ts, turns := s.turns + 1, draw := d } := by
  simp only [fetch_of_sched hsched, fetchTurn, hidle, if_true]

theorem fetch_ctrl {s : State} {ts : List Turn} (hsched : s.sched = .ctrl :: ts) :
    fetch s = acceptC { s with sched := ts, turns := s.turns + 1 } := by
  simp only [fetch_of_sched hsched, fetchTurn]

/-- The answer to an illegal word is a response and nothing else (30_encoding.md R96). -/
theorem answerIllegal_eq (s : State) (port : Port) (w : Word96) :
    s.answerIllegal port w =
      { s with out := s.out ++ [.rsp port (responseWord (w.extractLsb' 0 8) .illegal 0#32 0#32)] } := rfl

theorem acceptP_of_illegal {s : State} {w : Word96} {rest : List Word96} {why : IllegalWord}
    (hcmd : s.cmdP = w :: rest) (hdec : decode .P w = .illegal why) :
    acceptP s = .done { s with
      cmdP := rest, out := s.out ++ [.rsp .P (responseWord (w.extractLsb' 0 8) .illegal 0#32 0#32)] } := by
  simp only [acceptP, hcmd, hdec, answerIllegal_eq]

theorem acceptC_of_illegal {s : State} {w : Word96} {rest : List Word96} {why : IllegalWord}
    (hcmd : s.cmdC = w :: rest) (hdec : decode .C w = .illegal why) :
    acceptC s = .done { s with
      cmdC := rest, out := s.out ++ [.rsp .C (responseWord (w.extractLsb' 0 8) .illegal 0#32 0#32)] } := by
  simp only [acceptC, hcmd, hdec, answerIllegal_eq]

theorem step_of_fetch_done {s t : State} (hfetch : fetch s = .done t) : step s = .next t := by
  simp only [step, hfetch]

/-- Settles O50: on either port the turn's fetch is complete with the answer; it never looks at `RUNNING`. -/
theorem illegalWordAnswered : Obligations.IllegalWordAnswered := by
  intro s d turns w rest why
  refine ⟨fun hsched hidle hcmd hdec => step_of_fetch_done ?onP, fun hsched hcmd hdec => step_of_fetch_done ?onC⟩
  case onP => exact (fetch_proc_of_idle hsched hidle).trans (acceptP_of_illegal hcmd hdec)
  case onC => exact (fetch_ctrl hsched).trans (acceptC_of_illegal hcmd hdec)

end Sys2Proof.Proofs.Exceptions

/-! ## Command words and port words (30_encoding.md R90 to R98; 20_memory.md R57, R58) -/

namespace Sys2Proof.Proofs.Encoding

open Sys2Proof.Machine Sys2Proof.Laws

/-! ### The fields of the word of a command -/

@[simp] theorem opcField_commandWord (b a : Word32) (o : BitVec 8) : opcField (commandWord b a o) = o :=
  (fieldWord_fields b a 0#24 o).1

@[simp] theorem rsvField_commandWord (b a : Word32) (o : BitVec 8) : rsvField (commandWord b a o) = 0#24 :=
  (fieldWord_fields b a 0#24 o).2.1

@[simp] theorem aField_commandWord (b a : Word32) (o : BitVec 8) : aField (commandWord b a o) = a :=
  (fieldWord_fields b a 0#24 o).2.2.1

@[simp] theorem bField_commandWord (b a : Word32) (o : BitVec 8) : bField (commandWord b a o) = b :=
  (fieldWord_fields b a 0#24 o).2.2.2

/-- A word with a zero reserved field is built from its other three fields. -/
theorem commandWord_of_rsvField {w : Word96} (hrsv : rsvField w = 0#24) :
    commandWord (bField w) (aField w) (opcField w) = w := by
  rw [commandWord_eq_fieldWord, ← hrsv, fieldWord_eta]

/-- The operand word of SETRUN is its bit 0, where the bits above it are zero. -/
theorem setWidth_ofBool_of_runBits {a : Word32} (h : a.extractLsb' 1 31 = 0#31) :
    BitVec.setWidth 32 (BitVec.ofBool (a.getLsbD 0)) = a := by
  refine BitVec.eq_of_getLsbD_eq fun i hi => ?_
  cases i with
  | zero => simp
  | succ k =>
    have hbit := congrArg (fun v => BitVec.getLsbD v k) h
    simp only [BitVec.getLsbD_extractLsb', show k < 31 by omega, decide_true, Bool.true_and, Nat.add_comm 1 k,
      BitVec.getLsbD_zero] at hbit
    rw [hbit]
    simp

theorem runBits_setWidth_ofBool (run : Bool) :
    (BitVec.setWidth 32 (BitVec.ofBool run)).extractLsb' 1 31 = 0#31 := by
  cases run <;> decide

/-- Settles O2: the fields of the word are the operands and the opcode, and the row of that opcode accepts them. -/
theorem decodeInvertsEncode : Obligations.DecodeInvertsEncode := by
  intro p i hlegal
  cases i with
  | setrun run =>
    have hport : p = .C := by simpa [Instr.wellFormed] using hlegal
    simp [encode, decode, decodeRow, hport, runBits_setWidth_ofBool]
  | getlevel q =>
    have hport : p = q := by simpa [Instr.wellFormed] using hlegal
    simp [encode, decode, decodeRow, hport]
  | getsample | getsamples | sync | reset | dumpon | dumpoff =>
    have hport := by simpa [Instr.wellFormed] using hlegal
    simp [encode, decode, decodeRow, hport]

/-- Settles O3: each row of the decoder fixes every field of the word it accepts. -/
theorem encodeInvertsDecode : Obligations.EncodeInvertsDecode := by
  intro p w i hdec
  obtain ⟨hrsv, hrow⟩ := decode_ok_cases hdec
  have hw := commandWord_of_rsvField hrsv
  rcases hrow with ⟨ho, hp, hb, rfl⟩ | ⟨ho, hp, rfl⟩ | ⟨ho, hp, rfl⟩ | ⟨ho, hp, ha, hb, rfl⟩ | ⟨ho, ha, hb, rfl⟩ |
    ⟨ho, hp, ha, hb, rfl⟩ | ⟨ho, hp, hb, rfl⟩ | ⟨ho, hp, ha, hb, rfl⟩
  case inr.inr.inr.inr.inr.inl =>
    rw [ho, hb] at hw
    refine ⟨?_, by simp [Instr.wellFormed, hp]⟩
    rw [encode, setWidth_ofBool_of_runBits ha, hw]
  all_goals
    simp only [ho] at hw
    simp_all [encode, Instr.wellFormed]

/-! ### The rows of the opcode map -/

/-- The words that some row legal on the port selects, by their fields (30_encoding.md R94, R95). -/
def AcceptedFields (p : Port) (w : Word96) : Prop :=
  rsvField w = 0#24 ∧
  ((opcField w = 0x01#8 ∧ p = .P ∧ bField w = 0#32) ∨ (opcField w = 0x02#8 ∧ p = .P) ∨ (opcField w = 0x03#8 ∧ p = .P) ∨
   (opcField w = 0x04#8 ∧ p = .P ∧ aField w = 0#32 ∧ bField w = 0#32) ∨
   (opcField w = 0x08#8 ∧ aField w = 0#32 ∧ bField w = 0#32) ∨
   (opcField w = 0x10#8 ∧ p = .C ∧ (aField w).extractLsb' 1 31 = 0#31 ∧ bField w = 0#32) ∨
   (opcField w = 0x11#8 ∧ p = .C ∧ bField w = 0#32) ∨ (opcField w = 0x12#8 ∧ p = .C ∧ aField w = 0#32 ∧ bField w = 0#32))

theorem decode_ok_iff (p : Port) (w : Word96) : (∃ i, decode p w = .ok i) ↔ AcceptedFields p w := by
  constructor
  · rintro ⟨i, hdec⟩
    obtain ⟨hrsv, hrow⟩ := decode_ok_cases hdec
    exact ⟨hrsv, hrow.imp (fun ⟨ho, hp, hb, _⟩ => ⟨ho, hp, hb⟩) <| .imp (fun ⟨ho, hp, _⟩ => ⟨ho, hp⟩) <|
      .imp (fun ⟨ho, hp, _⟩ => ⟨ho, hp⟩) <| .imp (fun ⟨ho, hp, ha, hb, _⟩ => ⟨ho, hp, ha, hb⟩) <|
      .imp (fun ⟨ho, ha, hb, _⟩ => ⟨ho, ha, hb⟩) <| .imp (fun ⟨ho, hp, ha, hb, _⟩ => ⟨ho, hp, ha, hb⟩) <|
      .imp (fun ⟨ho, hp, hb, _⟩ => ⟨ho, hp, hb⟩) fun ⟨ho, hp, ha, hb, _⟩ => ⟨ho, hp, ha, hb⟩⟩
  · rintro ⟨hrsv, hrow⟩
    rcases hrow with ⟨ho, hp, hb⟩ | ⟨ho, hp⟩ | ⟨ho, hp⟩ | ⟨ho, hp, ha, hb⟩ | ⟨ho, ha, hb⟩ | ⟨ho, hp, ha, hb⟩ | ⟨ho, hp, hb⟩ |
      ⟨ho, hp, ha, hb⟩ <;> simp [decode, decodeRow, *]

theorem and_allOnes32 (v : Word32) : v &&& 0xFFFFFFFF#32 = v := BitVec.and_allOnes

/-- On each port the rows that are not legal drop out; what is left is the list of `AcceptedFields`, regrouped. -/
theorem selected_iff (p : Port) (w : Word96) :
    (∃ r, r ∈ opcodeTable ∧ r.legalOn p = true ∧ r.selects w = true) ↔ AcceptedFields p w := by
  rw [opcodeTable_fields]
  cases p <;>
    simp [or_and_right, exists_or, OpcodeRow.legalOn, selects_fieldWord, and_allOnes32, and_runMask, AcceptedFields] <;>
    tauto

/-- The decoder accepts a word or names the reason it does not (30_encoding.md R98). -/
theorem decode_illegal_iff (p : Port) (w : Word96) : (∃ why, decode p w = .illegal why) ↔ ¬ ∃ i, decode p w = .ok i := by
  cases decode p w <;> simp

/-- Settles O4: decoder and opcode map accept the same words. -/
theorem illegalWordSelectsNoRow : Obligations.IllegalWordSelectsNoRow := by
  intro p w
  rw [decode_illegal_iff, decode_ok_iff, selected_iff]

/-! ### The worked examples and the response word -/

/-- Settles O1: the decoder evaluated on the seven words of 30_encoding.md R98. -/
theorem workedExampleWordsDecode : Obligations.WorkedExampleWordsDecode := by
  refine ⟨by decide, by decide, by decide, by decide, ⟨.operandBits, ?_⟩, ⟨.wrongPort, ?_⟩, ⟨.reservedBits, ?_⟩⟩ <;> decide

/-- A part of a concatenation above its low operand is that part of the high operand. -/
theorem extract_above {n m start len : Nat} {hi : BitVec n} {lo : BitVec m} {v : BitVec len} (h : m ≤ start)
    (hhi : hi.extractLsb' (start - m) len = v) : (hi ++ lo).extractLsb' start len = v :=
  (BitVec.extractLsb'_append_eq_of_le h).trans hhi

/-- Settles O5: each field is the low part of what stands above the fields before it; the status codes are R93's. -/
theorem responseWordFields : Obligations.ResponseWordFields := by
  intro o st p0 p1
  refine ⟨?status, ?zero4, ?opcode, ?zero16, ?p0, ?p1, rfl, rfl, rfl, rfl, rfl, rfl⟩
  case status => exact BitVec.extractLsb'_append_eq_right
  case zero4 => exact extract_above (by decide) BitVec.extractLsb'_append_eq_right
  case opcode => exact extract_above (by decide) <| extract_above (by decide) BitVec.extractLsb'_append_eq_right
  case zero16 =>
    exact extract_above (by decide) <| extract_above (by decide) <| extract_above (by decide)
      BitVec.extractLsb'_append_eq_right
  case p0 =>
    exact extract_above (by decide) <| extract_above (by decide) <| extract_above (by decide) <|
      extract_above (by decide) BitVec.extractLsb'_append_eq_right
  case p1 =>
    exact extract_above (by decide) <| extract_above (by decide) <| extract_above (by decide) <|
      extract_above (by decide) BitVec.extractLsb'_append_eq_left

/-! ### The bytes of a port word -/

/-- The bytes `from .. from + k - 1` of a word, read with the first least significant, are that part of its value. -/
theorem foldr_bytes {n : Nat} (w : BitVec n) (k start : Nat) :
    ((List.range' start k).map fun j => w.extractLsb' (8 * j) 8).foldr (fun b rest => b.toNat + 256 * rest) 0 =
      w.toNat / 2 ^ (8 * start) % 2 ^ (8 * k) := by
  induction k generalizing start with
  | zero => simp [Nat.mod_one]
  | succ k ih =>
    have hnext : w.toNat / 2 ^ (8 * (start + 1)) = w.toNat / 2 ^ (8 * start) / 2 ^ 8 := by
      rw [Nat.div_div_eq_div_mul, ← pow_add]
      rfl
    have hsplit : 2 ^ (8 * (k + 1)) = 2 ^ 8 * 2 ^ (8 * k) := by rw [← pow_add, Nat.mul_succ, Nat.add_comm]
    rw [List.range'_succ, List.map_cons, List.foldr_cons, ih, hnext, hsplit, Nat.mod_mul, BitVec.extractLsb'_toNat,
      Nat.shiftRight_eq_div_pow]
    rfl

theorem littleEndian_value {n : Nat} (w : BitVec n) (hbytes : 8 ∣ n) :
    (littleEndian w).foldr (fun b rest => b.toNat + 256 * rest) 0 = w.toNat := by
  rw [littleEndian, List.range_eq_range', foldr_bytes, Nat.mul_div_cancel' hbytes, Nat.mul_zero, Nat.pow_zero, Nat.div_one,
    Nat.mod_eq_of_lt w.isLt]

/-- The four bytes of a 32-bit word. -/
theorem littleEndian_word32 (w : Word32) :
    littleEndian w = [w.extractLsb' 0 8, w.extractLsb' 8 8, w.extractLsb' 16 8, w.extractLsb' 24 8] := rfl

/-- A part of a dump frame's word that lies in `I`. -/
theorem frameWord_extract_i (f : Frame) {start len : Nat} (h : start + len ≤ 16) :
    (frameWord f).extractLsb' start len = f.i.extractLsb' start len :=
  BitVec.extractLsb'_append_eq_of_add_le h

/-- A part of a dump frame's word that lies in `Q`. -/
theorem frameWord_extract_q (f : Frame) {start len : Nat} (h : 16 ≤ start) :
    (frameWord f).extractLsb' start len = f.q.extractLsb' (start - 16) len :=
  BitVec.extractLsb'_append_eq_of_le h

theorem wordBytes_frameWord (f : Frame) :
    wordBytes (frameWord f) =
      [f.i.extractLsb' 0 8, f.i.extractLsb' 8 8, f.q.extractLsb' 0 8, f.q.extractLsb' 8 8] := by
  simp only [wordBytes, littleEndian_word32, frameWord_extract_i f (start := 0) (len := 8) (by decide),
    frameWord_extract_i f (start := 8) (len := 8) (by decide), frameWord_extract_q f (start := 16) (by decide),
    frameWord_extract_q f (start := 24) (by decide)]

theorem sampleWord_extract (c : Cfg) (z : Cplx) :
    (sampleWord c z).extractLsb' 0 32 = c.NUM.bits z.re ∧ (sampleWord c z).extractLsb' 32 32 = c.NUM.bits z.im :=
  ⟨BitVec.extractLsb'_append_eq_right, BitVec.extractLsb'_append_eq_left⟩

/-- Settles O34: the layouts by their bits, the byte order by the general law of `littleEndian`. -/
theorem portWordsAreLittleEndian : Obligations.PortWordsAreLittleEndian := by
  refine ⟨sampleWord_extract, fun f => ?frame, fun n w hbytes => ⟨littleEndian_length w, littleEndian_value w hbytes⟩,
    fun c z => ?sample, fun c v => rfl, fun w => rfl, fun frames => ?file⟩
  case frame => exact ⟨BitVec.extractLsb'_append_eq_right, BitVec.extractLsb'_append_eq_left⟩
  case sample => exact sampleBytes_eq c z
  case file => simp only [dumpFileBytes, wordBytes_frameWord]

end Sys2Proof.Proofs.Encoding

/-! ## The rule of each command step (41_control.md; 40_sample_reader.md R122 to R140; 42_time_syncer.md R184 to R189) -/

namespace Sys2Proof.Proofs.Commands

open Sys2Proof.Machine Sys2Proof.Laws Sys2Proof.Safety

/-! ### The dispatch arms -/

theorem exec_getsample (off : Word32) (s : State) : exec (.getsample off) s = execGetsample off s := rfl

theorem exec_getsamples (count off : Word32) (s : State) : exec (.getsamples count off) s = execGetsamples count off s := rfl

theorem exec_sync (n f : Word32) (s : State) : exec (.sync n f) s = execSync n f s := rfl

theorem exec_reset (s : State) : exec .reset s = execReset s := rfl

theorem exec_getlevel (p : Port) (s : State) : exec (.getlevel p) s = execGetlevel p s := rfl

theorem exec_setrun (run : Bool) (s : State) : exec (.setrun run) s = execSetrun run s := rfl

theorem exec_dumpon (target : Word32) (s : State) : exec (.dumpon target) s = execDumpon target s := rfl

theorem exec_dumpoff (s : State) : exec .dumpoff s = execDumpoff s := rfl

/-! ### The control port and the level read -/

/-- Settles O6: the step writes `RUNNING` and sends its response. -/
theorem setrunWritesOnlyRunning : Obligations.SetrunWritesOnlyRunning := by
  intro run s
  rw [exec_setrun, execSetrun]
  rfl

/-- A flush clears `DUMP_IDX` and sends the residue, if there is one (41_control.md R162, R163). -/
theorem flushDump_eq (s : State) :
    s.flushDump = { s with
      dumpIdx := 0
      out := s.out ++
        (if s.dumpActive = true ∧ 0 < s.dumpIdx then
          [.dump s.dumpTarget (s.dumpBuf.firstN Config.freeFrame s.dumpIdx)] else []) } := by
  unfold State.flushDump
  by_cases h : s.dumpActive = true ∧ 0 < s.dumpIdx
  · simp [h, State.emit]
  · simp [h]

/-- Settles O7: the flush under the old target, the new target, the response. -/
theorem dumponInstallsTarget : Obligations.DumponInstallsTarget := by
  intro target s
  rw [exec_dumpon, execDumpon, flushDump_eq]
  rfl

/-- Settles O8: the flush, the target removed, the response. -/
theorem dumpoffRemovesTarget : Obligations.DumpoffRemovesTarget := by
  intro s
  rw [exec_dumpoff, execDumpoff, flushDump_eq]
  rfl

/-- Settles O9: the step is the response alone. -/
theorem getlevelAnswersLevel : Obligations.GetlevelAnswersLevel := by
  intro p s
  rw [exec_getlevel, execGetlevel]
  rfl

/-! ### A read before RUN -/

/-- Settles O12: in IDLE both commands only begin their read. -/
theorem acceptedReadEntersEntry : Obligations.AcceptedReadEntersEntry := by
  intro count off s hidle
  rw [exec_getsample, exec_getsamples, execGetsample, execGetsamples, hidle]
  exact ⟨rfl, rfl⟩

/-- Settles O13: the looks that do not cancel, from the one place where the three reads share them. -/
theorem readPassesAvailabilityWait : Obligations.ReadPassesAvailabilityWait := by
  intro i s hread
  obtain ⟨entry, wait, post⟩ := exec_read_looks (s := s) hread
  refine ⟨fun ho hrun => ?entry, fun ho hp hth => ?enough, fun ho hp hth => ?few, fun ho hp hrun => ?again,
    fun ho hrun => ?post⟩
  case entry => simp [entry ho, State.entryLook, hrun]
  case enough => simp [wait ho, State.waitLook, State.enough, State.devAvail, hp, hth]
  case few => simp [wait ho, State.waitLook, State.enough, State.devAvail, hp, Nat.not_le.2 hth]
  case again => simp [wait ho, State.waitLook, hp, hrun]
  case post => simp [post ho, State.postLook, hrun]

/-! ### A read in RUN: its device read and the event it has formed -/

/-- The `n` of the `DEV_POP(n)` of a read (40_sample_reader.md R124). -/
def popSize : Instr → Nat
  | .getsamples count _ => count.toNat
  | _ => 1

theorem exec_pop {i : Instr} {s : State} (hread : i.isRead = true) (ho : s.opState = .run) (hr : s.opRead = none)
    (he : s.opEvent = none) : exec i s = .next (s.devPop (popSize i)) := by
  cases i with
  | getsample | getsamples | sync =>
    simp [exec, execGetsample, execGetsamples, execSync, ho, hr, he, popSize, unsignedOperand]
  | reset | getlevel | setrun | dumpon | dumpoff => simp [Instr.isRead] at hread

theorem exec_send {i : Instr} {s : State} {e : Event} (hread : i.isRead = true) (ho : s.opState = .run)
    (he : s.opEvent = some e) : exec i s = .next (s.sendEvent e) := by
  cases i with
  | getsample | getsamples | sync => simp [exec, execGetsample, execGetsamples, execSync, ho, he]
  | reset | getlevel | setrun | dumpon | dumpoff => simp [Instr.isRead] at hread

/-- Settles O18: each bound from the form of the draw; a count within them is drawn by itself. -/
theorem popCountWithinBounds : Obligations.PopCountWithinBounds := by
  intro n avail
  refine ⟨fun draw => popCount_le n avail draw, fun draw hn havail => ?one, fun m hn hle havail => ⟨m, ?draw⟩⟩
  case one => rw [hn, popCount_one havail]
  case draw => rw [popCount, if_neg hn, Nat.min_eq_left (Nat.le_min.2 ⟨hle, havail⟩)]

/-- Settles O19: the pop with the `n` of each read, and the emission of the event formed. -/
theorem deviceReadTakesOldest : Obligations.DeviceReadTakesOldest := by
  refine ⟨fun i s n ho hr he hn => ?pop, fun i s e hread ho he => exec_send hread ho he⟩
  have hpop : i.isRead = true ∧ popSize i = n := by
    rcases hn with ⟨⟨off, rfl⟩, rfl⟩ | ⟨⟨a, b, rfl⟩, rfl⟩ | ⟨count, off, rfl, rfl⟩ <;> exact ⟨rfl, rfl⟩
  rw [exec_pop hpop.1 ho hr he, hpop.2]
  rfl

/-! ### GETSAMPLE and GETSAMPLES in RUN -/

/-- Settles O31: the pipeline, then the answer. -/
theorem getsampleAnswersCorrectedSample : Obligations.GetsampleAnswersCorrectedSample := by
  intro off s m raw rest ho hr he hdump
  simp only [exec_getsample, execGetsample, ho, hr, he, dumpSlot_present hdump]
  rfl

/-- Settles O32: the pipeline, then the SOUT event formed and the rest of the batch kept. -/
theorem getsamplesProcessesNextSample : Obligations.GetsamplesProcessesNextSample := by
  intro count off s m raw rest ho hr he hdump
  simp only [exec_getsamples, execGetsamples, ho, hr, he, dumpSlot_present hdump]
  rfl

/-- Settles O33: with no sample left the command ends. -/
theorem getsamplesAnswersActualCount : Obligations.GetsamplesAnswersActualCount := by
  intro count off s m ho hr he
  simp only [exec_getsamples, execGetsamples, ho, hr, he]
  rfl

/-! ### SYNC in RUN -/

/-- A step of SYNC with a sample to process: the two elements it would write must exist (20_memory.md R50). -/
theorem exec_sync_slots (n f : Word32) {s : State} {m : Nat} {raw : Cplx} {rest : List Cplx} (ho : s.opState = .run)
    (hr : s.opRead = some ⟨m, raw :: rest⟩) (he : s.opEvent = none) :
    exec (.sync n f) s =
      if s.dumpSlotMissing then .fault (.noSuchElement .dumpBuf s.dumpIdx)
      else if s.envSlotMissing then .fault (.noSuchElement .env s.syCnt.toNat)
      else ({ s.afterSample raw 0#32 with opRead := some ⟨m, rest⟩ }).syncSample (s.cfg.MAG (s.corrected raw 0#32)) := by
  simp only [exec_sync, execSync, ho, hr, he]

/-- A sample of SYNC: the pipeline with offset 0, then what the phase makes of its magnitude (42_time_syncer.md R182, R191). -/
theorem exec_sync_sample (n f : Word32) {s : State} {m : Nat} {raw : Cplx} {rest : List Cplx} (ho : s.opState = .run)
    (hr : s.opRead = some ⟨m, raw :: rest⟩) (he : s.opEvent = none)
    (hdump : s.dumpActive = true → s.dumpIdx < s.cfg.dumpBlockFrames) (henv : s.syState = .prime → s.syCnt.toNat < 50) :
    exec (.sync n f) s =
      ({ s.afterSample raw 0#32 with opRead := some ⟨m, rest⟩ }).syncSample (s.cfg.MAG (s.corrected raw 0#32)) := by
  have hslot : s.envSlotMissing = false := by
    unfold State.envSlotMissing
    by_cases hp : s.syState = .prime
    · simpa [hp] using henv hp
    · simp [hp]
  rw [exec_sync_slots n f ho hr he, dumpSlot_present hdump, hslot]
  rfl

/-- The loop test of SYNC comes when its one sample is processed. -/
theorem exec_sync_test (n f : Word32) {s : State} {m : Nat} (ho : s.opState = .run) (hr : s.opRead = some ⟨m + 1, []⟩)
    (he : s.opEvent = none) : exec (.sync n f) s = s.syncTest := by
  simp only [exec_sync, execSync, ho, hr, he]

/-- Settles O41: the priming entry of the magnitude, and the end of the phase with the 50th. -/
theorem syncPrimesWindow : Obligations.SyncPrimesWindow := by
  intro n f s m raw rest ho hr he hprime hcnt hdump
  rw [exec_sync_sample n f ho hr he hdump fun _ => hcnt]
  by_cases hlast : s.syCnt.toNat = 49
  · simp [State.syncSample, State.primeEntry, hprime, hlast]
  · simp [State.syncSample, State.primeEntry, hprime, hlast]

/-- The state in which a search sample has been run through the pipeline, its window slid and its count made. -/
def searched (s : State) (raw : Cplx) (r : ReadInFlight) : State :=
  { s.afterSample raw 0#32 with
    opRead := some r
    sySum := NUM.add (NUM.sub s.sySum ((s.env.read s.syIdx.val).getD (Config.freeEnv s.syIdx.val)))
      (s.cfg.MAG (s.corrected raw 0#32))
    env := s.env.write s.syIdx.val (s.cfg.MAG (s.corrected raw 0#32))
    syIdx := s.syIdx + 1
    syCnt := BitVec.ofNat 33 (s.syCnt.toNat + 1) }

/-- One sample of a search (R185, R187, R188): the search ends where the count exceeds its limit. -/
theorem searchEntry_of_sample (s : State) (raw : Cplx) (r : ReadInFlight) (limit : Nat) (st : Status) :
    ({ s.afterSample raw 0#32 with opRead := some r }).searchEntry (s.cfg.MAG (s.corrected raw 0#32)) limit st =
      if limit < s.syCnt.toNat + 1 then (searched s raw r).syncFinish st else searched s raw r := by
  simp [State.searchEntry, State.slide, searched, nextIdx]

theorem syncSample_prime {s : State} (h : s.syState = .prime) (g : F32) : s.syncSample g = .next (s.primeEntry g) := by
  simp only [State.syncSample, h]

theorem syncSample_dip {s : State} (h : s.syState = .dip) (g : F32) :
    s.syncSample g = .next (s.searchEntry g s.syFrame.toNat .noDipFound) := by
  simp only [State.syncSample, h, unsignedOperand]

theorem syncSample_recover {s : State} (h : s.syState = .recover) (g : F32) :
    s.syncSample g = .next (s.searchEntry g (s.syNull.toNat + 50) .noEndOfDipFound) := by
  simp only [State.syncSample, h, unsignedOperand]

theorem exec_sync_dip (n f : Word32) {s : State} {m : Nat} {raw : Cplx} {rest : List Cplx} (ho : s.opState = .run)
    (hr : s.opRead = some ⟨m, raw :: rest⟩) (he : s.opEvent = none) (hdip : s.syState = .dip)
    (hdump : s.dumpActive = true → s.dumpIdx < s.cfg.dumpBlockFrames) :
    exec (.sync n f) s = .next (
      if s.syFrame.toNat < s.syCnt.toNat + 1 then (searched s raw ⟨m, rest⟩).syncFinish .noDipFound
      else searched s raw ⟨m, rest⟩) := by
  rw [exec_sync_sample n f ho hr he hdump (by simp [hdip]), syncSample_dip (by simp [hdip]), searchEntry_of_sample]
  simp

theorem exec_sync_recover (n f : Word32) {s : State} {m : Nat} {raw : Cplx} {rest : List Cplx} (ho : s.opState = .run)
    (hr : s.opRead = some ⟨m, raw :: rest⟩) (he : s.opEvent = none) (hrec : s.syState = .recover)
    (hdump : s.dumpActive = true → s.dumpIdx < s.cfg.dumpBlockFrames) :
    exec (.sync n f) s = .next (
      if s.syNull.toNat + 50 < s.syCnt.toNat + 1 then (searched s raw ⟨m, rest⟩).syncFinish .noEndOfDipFound
      else searched s raw ⟨m, rest⟩) := by
  rw [exec_sync_sample n f ho hr he hdump (by simp [hrec]), syncSample_recover (by simp [hrec]), searchEntry_of_sample]
  simp

/-- Settles O42: a search sample within `SY_FRAME`, or the verdict beyond it. -/
theorem syncDipSearchSample : Obligations.SyncDipSearchSample := by
  intro n f s m raw rest oldest g sum p q ho hr he hdip hold hdump hp hg hsum hq
  subst hq hp hg hsum hold
  rw [exec_sync_dip n f ho hr he hdip hdump]
  exact ⟨fun hin => by rw [if_neg (by omega)]; rfl, fun hout => by rw [if_pos hout]; rfl⟩

/-- Settles O43: a search sample within `SY_NULL + 50`, or the verdict beyond it. -/
theorem syncRecoverySearchSample : Obligations.SyncRecoverySearchSample := by
  intro n f s m raw rest oldest g sum p q ho hr he hrec hold hdump hp hg hsum hq
  subst hq hp hg hsum hold
  rw [exec_sync_recover n f ho hr he hrec hdump]
  exact ⟨fun hin => by rw [if_neg (by omega)]; rfl, fun hout => by rw [if_pos hout]; rfl⟩

/-- Settles O45: one branch of the loop test per phase and comparison. -/
theorem syncLoopTests : Obligations.SyncLoopTests := by
  intro n f s m ho hr he
  rw [exec_sync_test n f ho hr he]
  refine ⟨fun hp => ?prime, fun hp ha => ?above, fun hp ha => ?dip, fun hp ha => ?below, fun hp ha => ?established⟩
  case prime => simp only [State.syncTest, hp, State.beginRead]
  case above => simp only [State.syncTest, hp, ha, State.beginRead, if_true]
  case dip => simp [State.syncTest, hp, ha]
  case below => simp [State.syncTest, hp, ha, State.beginRead]
  case established =>
    simp only [State.syncTest, hp, ha, if_true]
    rfl

/-! ### The two comparisons of SYNC -/

/-- The constants of 42_time_syncer.md R180 are the literals the spec writes. -/
theorem ofDec_thresholds : NUM.ofDec 55 100 = 0x3F0CCCCD#32 ∧ NUM.ofDec 75 100 = 0x3F400000#32 := by decide +kernel

/-- `NUM.gt` of finite values is strict, at each of the three orders. -/
theorem gt_of_finite {a b : F32} (ha : NUM.isFinite a = true) (hb : NUM.isFinite b = true) :
    (NUM.intUnits b < NUM.intUnits a → NUM.gt a b = true) ∧ (NUM.intUnits a = NUM.intUnits b → NUM.gt a b = false) ∧
    (NUM.intUnits a < NUM.intUnits b → NUM.gt a b = false) := by
  have h := NUM.gt_iff ha hb
  rw [← Bool.not_eq_true, h]
  exact ⟨id, fun he => by omega, fun hl => by omega⟩

/-- Settles O44: both are `NUM.gt` of the average and the scaled level. -/
theorem thresholdComparisonsStrict : Obligations.ThresholdComparisonsStrict := by
  intro s avg dip rec havg hdip hrec
  have hd : s.aboveDip = NUM.gt avg dip := by
    simp [State.aboveDip, State.syAverage, havg, hdip, ofDec_thresholds.1, s.cfg.thDip_eq]
  have hr : s.aboveRec = NUM.gt avg rec := by
    simp [State.aboveRec, State.syAverage, havg, hrec, ofDec_thresholds.2, s.cfg.thRec_eq]
  rw [hd, hr]
  exact ⟨rfl, rfl, gt_of_finite, gt_of_finite⟩

end Sys2Proof.Proofs.Commands

/-! ## The per-sample pipeline: what one sample and a list of samples do (40_sample_reader.md R127 to R141) -/

namespace Sys2Proof.Proofs.Pipeline

open Sys2Proof.Machine Sys2Proof.Laws Sys2Proof.Safety Sys2Proof.Proofs.SampleReader

/-! ### One sample -/

/-- Settles O21: `cmul` of `NUM`, at the phase that the same sample writes. -/
theorem correctedSampleUsesNewPhase : Obligations.CorrectedSampleUsesNewPhase := by
  intro s raw e off he
  rw [s.corrected_eq, he, (s.afterSample_phase raw off).1]
  rfl

/-- The frame of a raw sample is its two components scaled and converted (R129). -/
theorem dumpFrame_eq (c : Cfg) (raw : Cplx) :
    dumpFrame c raw =
      ⟨NUM.toI16 (NUM.mul raw.re (NUM.ofInt (2 ^ (c.devBits - 1)))),
       NUM.toI16 (NUM.mul raw.im (NUM.ofInt (2 ^ (c.devBits - 1))))⟩ := rfl

/-- Settles O23: the dump step is the one step of the pipeline that writes these two fields. -/
theorem rawSampleAppendedWhileDumping : Obligations.RawSampleAppendedWhileDumping := by
  intro s raw off
  rw [s.afterSample_dumpBuf, s.afterSample_dumpIdx]
  refine ⟨fun hoff => by rw [s.dumpStep_inactive raw hoff]; exact ⟨rfl, rfl⟩, fun hon => ?_⟩
  rw [s.dumpStep_dumpBuf, s.dumpStep_dumpIdx, if_pos hon, if_pos hon]
  exact ⟨Space.read_write_same _ _ _, fun k hk => Space.read_write_other _ _ (Ne.symm hk), rfl⟩

/-- Below the period the two 32-bit counters do not wrap. -/
theorem counter_succ_toNat {s : State} {w : Word32} (h : w.toNat < s.cfg.period) :
    (BitVec.ofNat 32 (w.toNat + 1)).toNat = w.toNat + 1 := by
  have := Cfg.period_le s.cfg
  rw [BitVec.toNat_ofNat, Nat.mod_eq_of_lt (by omega)]

/-- Settles O24: the window by the display step, the two counters by the period step. -/
theorem windowAndPeriodCountSamples : Obligations.WindowAndPeriodCountSamples := by
  intro s raw off hcur hcount
  rw [s.afterSample_dispBuf, s.afterSample_scount, s.afterSample_dispCur]
  refine ⟨fun hroom => ?store, fun hfull => if_neg (by omega), fun hin => ?inside, fun hend => ?wrap⟩
  case store =>
    rw [if_pos hroom]
    exact ⟨Space.read_write_same _ _ _, fun k hk => Space.read_write_other _ _ (Ne.symm hk)⟩
  case inside =>
    rw [if_neg (by omega), if_neg (by omega), counter_succ_toNat hcount]
    refine ⟨rfl, ?_⟩
    split
    · exact counter_succ_toNat (s := s) (by omega)
    · rfl
  case wrap =>
    rw [if_pos hend, if_pos hend]
    exact ⟨rfl, rfl⟩

/-- The cursor of the display window as step 4 leaves it (R131). -/
def cursorAfter (s : State) : Word32 :=
  if s.dispCur.toNat < s.cfg.displayWindow then BitVec.ofNat 32 (s.dispCur.toNat + 1) else s.dispCur

/-- The notification that one sample sends, if it ends the period (R135). -/
def periodEvents (s : State) (raw : Cplx) (off : Word32) : List Event :=
  if s.cfg.period ≤ s.scount.toNat + 1 then
    .note off (s.afterSample raw off).level ::
      (if s.cfg.specAttached then
        [.spec ((s.afterSample raw off).dispBuf.firstN Config.freeDisp (cursorAfter s).toNat)] else [])
  else []

/-- What one sample sends: the dump step's block, then the notification. -/
theorem afterSample_out (s : State) (raw : Cplx) (off : Word32) :
    (s.afterSample raw off).out = (s.dumpStep raw).out ++ periodEvents s raw off := by
  have hlevel : (s.afterSample raw off).level = ((s.beforeMix raw off).levelStep (s.corrected raw off)).level := by
    simp [State.afterSample]
  have hdisp : (s.afterSample raw off).dispBuf = (s.beforeMix raw off).dispBuf := by
    simp [State.afterSample]
  have hcur : (s.beforeMix raw off).dispCur = cursorAfter s := by
    simp [State.beforeMix, State.displayStep_dispCur, cursorAfter]
  have hcorr : (s.beforeMix raw off).corr = off := rfl
  have hout : (s.beforeMix raw off).out = (s.dumpStep raw).out := by simp [State.beforeMix]
  unfold periodEvents
  rw [hlevel, hdisp, ← hcur, ← hout]
  simp only [State.afterSample, State.periodStep_out, State.notify_out, State.levelStep_cfg, State.levelStep_scount,
    State.levelStep_out, State.levelStep_corr, State.levelStep_dispBuf, State.levelStep_dispCur, State.beforeMix_frame,
    hcorr]
  split <;> simp

/-- Settles O25: the dump step's block, then the notification; the cursor does not wrap below the period. -/
theorem sampleEventsInOrder : Obligations.SampleEventsInOrder := by
  intro s raw off hcur hcount
  have hcursor : (cursorAfter s).toNat =
      if s.dispCur.toNat < s.cfg.displayWindow then s.dispCur.toNat + 1 else s.dispCur.toNat := by
    unfold cursorAfter
    split
    · exact counter_succ_toNat (s := s) (by omega)
    · rfl
  rw [afterSample_out, s.dumpStep_out, periodEvents, hcursor, s.afterSample_dumpBuf, s.dumpStep_dumpBuf]
  congr 2
  by_cases hon : s.dumpActive = true
  · rw [if_pos hon]
  · simp [hon]

/-- Settles O26: the frame lemma of the pipeline, as a record update. -/
theorem sampleLeavesOtherState : Obligations.SampleLeavesOtherState := by
  intro s t raw off ht
  have hframe := s.afterSample_frame raw off
  rw [← ht] at hframe
  cases t
  simp_all

/-! ### A list of samples -/

@[simp] theorem feed_nil (s : State) : feed [] s = s := rfl

@[simp] theorem feed_cons (p : Cplx × Word32) (l : List (Cplx × Word32)) (s : State) :
    feed (p :: l) s = feed l (s.afterSample p.1 p.2) := rfl

@[simp] theorem feed_cfg (l : List (Cplx × Word32)) (s : State) : (feed l s).cfg = s.cfg := by
  induction l generalizing s with
  | nil => rfl
  | cons p l ih => simp [ih]

/-- The registers that the corrected samples and their successors depend on agree (R141, 70_reset_and_hazards.md R241). -/
structure SameDatapath (s t : State) : Prop where
  cfg : s.cfg = t.cfg
  phase : s.phase = t.phase
  level : s.level = t.level
  corr : s.corr = t.corr
  scount : s.scount = t.scount
  dispCur : s.dispCur = t.dispCur

theorem SameDatapath.nextPhase {s t : State} (h : SameDatapath s t) (off : Word32) : s.nextPhase off = t.nextPhase off := by
  rw [State.nextPhase, State.nextPhase, h.phase, h.cfg]

theorem SameDatapath.corrected {s t : State} (h : SameDatapath s t) (raw : Cplx) (off : Word32) :
    s.corrected raw off = t.corrected raw off := by
  rw [s.corrected_eq, t.corrected_eq, h.nextPhase, h.cfg]

theorem SameDatapath.afterSample {s t : State} (h : SameDatapath s t) (raw : Cplx) (off : Word32) :
    SameDatapath (s.afterSample raw off) (t.afterSample raw off) where
  cfg := by simp [h.cfg]
  phase := by
    refine BitVec.eq_of_toNat_eq ?_
    rw [(s.afterSample_phase raw off).1, (t.afterSample_phase raw off).1, h.nextPhase]
  level := by rw [s.afterSample_level, t.afterSample_level, h.corrected, h.cfg, h.level]
  corr := by rw [(s.afterSample_phase raw off).2, (t.afterSample_phase raw off).2]
  scount := by rw [s.afterSample_scount, t.afterSample_scount, h.scount, h.cfg]
  dispCur := by rw [s.afterSample_dispCur, t.afterSample_dispCur, h.scount, h.cfg, h.dispCur]

theorem SameDatapath.feed {s t : State} (h : SameDatapath s t) (l : List (Cplx × Word32)) :
    feedOut l s = feedOut l t ∧ SameDatapath (feed l s) (feed l t) := by
  induction l generalizing s t with
  | nil => exact ⟨rfl, h⟩
  | cons p l ih =>
    obtain ⟨hout, hsame⟩ := ih (h.afterSample p.1 p.2)
    exact ⟨by rw [feedOut, feedOut, h.corrected, hout], hsame⟩

/-- Settles O11: after its two steps RESET has restored every register the replay depends on. -/
theorem resetThenReplayIsFresh : Obligations.ResetThenReplayIsFresh := by
  intro s hrun
  have hfirst : exec .reset s = .next s.restoreDatapath.beginReset := by
    rcases exec_reset_cases s with ⟨h, -⟩ | ⟨-, h⟩
    · exact absurd h hrun
    · exact h
  refine ⟨_, s.restoreDatapath.beginReset.restoreDump.finishReset, hfirst, rfl, fun l => ?_⟩
  have hsame : SameDatapath s.restoreDatapath.beginReset.restoreDump.finishReset (State.resetWith s.cfg) :=
    ⟨rfl, rfl, rfl, rfl, rfl, rfl⟩
  obtain ⟨hout, hfeed⟩ := hsame.feed l
  exact ⟨hout, hfeed.phase, hfeed.level, hfeed.corr, hfeed.scount, hfeed.dispCur⟩

/-! ### The cumulative phase -/

/-- The phase after a list of samples moves back by the sum of their offsets. -/
theorem feed_phase (l : List (Cplx × Word32)) {s : State} (h : s.phase.toNat < s.cfg.inputRate) :
    (feed l s).phase.toInt = (s.phase.toInt - (l.map fun p => p.2.toInt).sum) % (s.cfg.inputRate : Int) := by
  induction l generalizing s with
  | nil =>
    have hint := toInt_of_lt_rate h
    simp only [feed_nil, List.map_nil, List.sum_nil, Int.sub_zero]
    exact (Int.emod_eq_of_lt (by omega) (by omega)).symm
  | cons p l ih =>
    have hnext : (s.afterSample p.1 p.2).phase.toNat < (s.afterSample p.1 p.2).cfg.inputRate := by
      rw [(s.afterSample_phase p.1 p.2).1, (s.afterSample_frame p.1 p.2).1]
      exact s.nextPhase_lt p.2
    rw [feed_cons, ih hnext, afterSample_phase_toInt, nextPhase_cast, (s.afterSample_frame p.1 p.2).1, List.map_cons,
      List.sum_cons, Int.emod_sub_emod, Int.sub_sub]

/-- The offsets of the samples of a list of reads, one per sample processed. -/
theorem sum_offsets_readSamples (reads : List (Word32 × List Cplx)) :
    ((readSamples reads).map fun p => p.2.toInt).sum = (reads.map fun r => r.1.toInt * (r.2.length : Int)).sum := by
  induction reads with
  | nil => rfl
  | cons r reads ih =>
    have hread : ((r.2.map fun raw => (raw, r.1)).map fun p => p.2.toInt).sum = r.1.toInt * (r.2.length : Int) := by
      simp [Function.comp_def, mul_comm]
    rw [readSamples, List.flatMap_cons, List.map_append, List.sum_append, hread, List.map_cons, List.sum_cons, ← ih]
    rfl

/-- Settles O37: the phase law of a list of samples, with the offsets of each read gathered. -/
theorem phaseFollowsCumulativeOffset : Obligations.PhaseFollowsCumulativeOffset := by
  intro reads s h
  rw [feed_phase _ h, sum_offsets_readSamples]

/-! ### The notifications -/

theorem noteCount_append (xs ys : List Event) : noteCount (xs ++ ys) = noteCount xs + noteCount ys :=
  List.countP_append

/-- One sample appends to the trace, and one NOTE is among its events exactly when it ends the period. -/
theorem afterSample_notes (s : State) (raw : Cplx) (off : Word32) :
    ∃ es, (s.afterSample raw off).out = s.out ++ es ∧
      noteCount es = if s.cfg.period ≤ s.scount.toNat + 1 then 1 else 0 := by
  rw [afterSample_out, s.dumpStep_out, List.append_assoc]
  refine ⟨_, rfl, ?_⟩
  rw [noteCount_append]
  unfold periodEvents
  split <;> split <;> simp [noteCount]

/-- From any count within the period: the notifications and the counter after a list of samples. -/
theorem feed_notes (l : List (Cplx × Word32)) {s : State} (h : s.scount.toNat < s.cfg.period) :
    ∃ es, (feed l s).out = s.out ++ es ∧ noteCount es = (s.scount.toNat + l.length) / s.cfg.period ∧
      (feed l s).scount.toNat = (s.scount.toNat + l.length) % s.cfg.period := by
  induction l generalizing s with
  | nil => exact ⟨[], by simp, by simp [noteCount, Nat.div_eq_of_lt h], by simp [Nat.mod_eq_of_lt h]⟩
  | cons p l ih =>
    obtain ⟨es, hout, hnotes⟩ := afterSample_notes s p.1 p.2
    have hcount : (s.afterSample p.1 p.2).scount.toNat = (s.scount.toNat + 1) % s.cfg.period := by
      rw [s.afterSample_scount]
      split
      · rw [show s.scount.toNat + 1 = s.cfg.period by omega, Nat.mod_self]
        rfl
      · rw [counter_succ_toNat h, Nat.mod_eq_of_lt (by omega)]
    have hpos := Cfg.period_pos s.cfg
    obtain ⟨fs, hout', hnotes', hcount'⟩ := ih (s := s.afterSample p.1 p.2)
      (by rw [hcount, (s.afterSample_frame p.1 p.2).1]; exact Nat.mod_lt _ hpos)
    rw [hcount, (s.afterSample_frame p.1 p.2).1] at hnotes' hcount'
    refine ⟨es ++ fs, by rw [feed_cons, hout', hout, List.append_assoc], ?_, ?_⟩
    · rw [noteCount_append, hnotes, hnotes', List.length_cons]
      split
      · rw [show s.scount.toNat + 1 = s.cfg.period by omega, Nat.mod_self,
          show s.scount.toNat + (l.length + 1) = (0 + l.length) + s.cfg.period by omega, Nat.add_div_right _ hpos,
          Nat.add_comm]
      · rw [Nat.mod_eq_of_lt (by omega), Nat.zero_add, Nat.add_assoc, Nat.add_comm 1]
    · rw [feed_cons, hcount', Nat.mod_add_mod, List.length_cons, Nat.add_assoc, Nat.add_comm 1]

/-- Settles O38: the case of a counter at 0. -/
theorem notificationEveryPeriod : Obligations.NotificationEveryPeriod := by
  intro l s h
  have hpos := Cfg.period_pos s.cfg
  obtain ⟨es, hout, hnotes, hcount⟩ := feed_notes l (s := s) (by rw [h]; exact hpos)
  rw [h] at hnotes hcount
  exact ⟨es, hout, by simpa using hnotes, by simpa using hcount⟩

/-! ### The dump file (41_control.md R165) -/

/-- A dump to `target` is on, and the frames `pending` are in the buffer and not yet sent. -/
structure Dumping (target : Word32) (pending : List Frame) (s : State) : Prop where
  active : s.dumpActive = true
  target_eq : s.dumpTarget = target
  idx : s.dumpIdx = pending.length
  frames : s.dumpBuf.firstN Config.freeFrame pending.length = pending
  room : pending.length < s.cfg.dumpBlockFrames

/-- A write at the end of the first `n` elements appends to them. -/
theorem firstN_write_succ {α : Type} (m : Space α) (free : Nat → α) (n : Nat) (v : α) :
    (m.write n v).firstN free (n + 1) = m.firstN free n ++ [v] := by
  unfold Space.firstN
  rw [List.range_succ, List.map_append, List.map_singleton, Space.read_write_same, Option.getD_some]
  congr 1
  refine List.map_congr_left fun k hk => ?_
  rw [Space.read_write_other _ _ (Nat.ne_of_gt (List.mem_range.1 hk))]

theorem dumpedFrames_append (xs ys : List Event) : dumpedFrames (xs ++ ys) = dumpedFrames xs ++ dumpedFrames ys :=
  List.flatMap_append

theorem dumpBlocks_append (xs ys : List Event) : dumpBlocks (xs ++ ys) = dumpBlocks xs ++ dumpBlocks ys :=
  List.filterMap_append

/-- A notification is no DUMP event. -/
theorem periodEvents_no_dump (s : State) (raw : Cplx) (off : Word32) :
    dumpedFrames (periodEvents s raw off) = [] ∧ dumpBlocks (periodEvents s raw off) = [] ∧
    ∀ x fs, Event.dump x fs ∉ periodEvents s raw off := by
  unfold periodEvents
  split <;> [split; skip] <;> simp [dumpedFrames, dumpBlocks]

/-- The DUMP events among `es` carry `target`, and hold `frames` in blocks of the sizes `blocks`. -/
structure DumpEvents (target : Word32) (frames : List Frame) (blocks : List Nat) (es : List Event) : Prop where
  carries : ∀ x fs, Event.dump x fs ∈ es → x = target
  frames_eq : dumpedFrames es = frames
  blocks_eq : dumpBlocks es = blocks

theorem DumpEvents.nil (target : Word32) : DumpEvents target [] [] [] := ⟨by simp, rfl, rfl⟩

theorem DumpEvents.single (target : Word32) (fs : List Frame) : DumpEvents target fs [fs.length] [.dump target fs] :=
  ⟨by simp, by simp [dumpedFrames], rfl⟩

theorem DumpEvents.append {target : Word32} {fs gs : List Frame} {bs cs : List Nat} {xs ys : List Event}
    (hx : DumpEvents target fs bs xs) (hy : DumpEvents target gs cs ys) :
    DumpEvents target (fs ++ gs) (bs ++ cs) (xs ++ ys) where
  carries x zs hmem := (List.mem_append.1 hmem).elim (hx.carries x zs) (hy.carries x zs)
  frames_eq := by rw [dumpedFrames_append, hx.frames_eq, hy.frames_eq]
  blocks_eq := by rw [dumpBlocks_append, hx.blocks_eq, hy.blocks_eq]

theorem DumpEvents.response (target : Word32) (p : Port) (w : Word96) : DumpEvents target [] [] [.rsp p w] :=
  ⟨by simp, rfl, rfl⟩

theorem DumpEvents.periodEvents (target : Word32) (s : State) (raw : Cplx) (off : Word32) :
    DumpEvents target [] [] (periodEvents s raw off) :=
  let ⟨hframes, hblocks, hmem⟩ := periodEvents_no_dump s raw off
  ⟨fun x fs h => absurd h (hmem x fs), hframes, hblocks⟩

/-- One sample of a dump: its frame is pending after it, or completes a block that is sent. -/
theorem Dumping.afterSample {target : Word32} {pending : List Frame} {s : State} (h : Dumping target pending s)
    (raw : Cplx) (off : Word32) :
    (pending.length + 1 = s.cfg.dumpBlockFrames ∧ Dumping target [] (s.afterSample raw off) ∧
      ∃ es, (s.afterSample raw off).out = s.out ++ es ∧
        DumpEvents target (pending ++ [dumpFrame s.cfg raw]) [s.cfg.dumpBlockFrames] es) ∨
    (pending.length + 1 < s.cfg.dumpBlockFrames ∧
      Dumping target (pending ++ [dumpFrame s.cfg raw]) (s.afterSample raw off) ∧
      ∃ es, (s.afterSample raw off).out = s.out ++ es ∧ DumpEvents target [] [] es) := by
  have hbuf : (s.afterSample raw off).dumpBuf = s.dumpBuf.write pending.length (dumpFrame s.cfg raw) := by
    rw [s.afterSample_dumpBuf, s.dumpStep_dumpBuf, if_pos h.active, h.idx]
  have hfirst : (s.dumpBuf.write pending.length (dumpFrame s.cfg raw)).firstN Config.freeFrame (pending.length + 1) =
      pending ++ [dumpFrame s.cfg raw] := by rw [firstN_write_succ, h.frames]
  have hidx := (s.afterSample_dumpIdx raw off).trans (s.dumpStep_dumpIdx raw)
  rw [if_pos h.active, h.idx] at hidx
  have hout := afterSample_out s raw off
  rw [s.dumpStep_out, h.idx, h.target_eq, List.append_assoc] at hout
  have hactive : (s.afterSample raw off).dumpActive = true := by simp [h.active]
  have htarget : (s.afterSample raw off).dumpTarget = target := by simp [h.target_eq]
  by_cases hfull : pending.length + 1 = s.cfg.dumpBlockFrames
  · refine .inl ⟨hfull, ⟨hactive, htarget, by simpa [hfull] using hidx, rfl,
        (s.afterSample_frame raw off).1 ▸ s.cfg.dumpBlockFrames_pos⟩,
      _, hout, ?_⟩
    rw [if_pos ⟨h.active, hfull⟩, ← hfull, hfirst]
    simpa using (DumpEvents.single target (pending ++ [dumpFrame s.cfg raw])).append (.periodEvents target s raw off)
  · have hroom : pending.length + 1 < s.cfg.dumpBlockFrames := by have := h.room; omega
    refine .inr ⟨hroom, ⟨hactive, htarget, by simpa [hfull] using hidx, ?_, by simpa using hroom⟩, _, hout, ?_⟩
    · simpa [hbuf] using hfirst
    · rw [if_neg (fun hc => hfull hc.2)]
      exact .periodEvents target s raw off

/-- A list of samples of a dump: full blocks are sent, what remains of the frames is pending. -/
theorem Dumping.feed {target : Word32} (l : List (Cplx × Word32)) {pending : List Frame} {s : State}
    (h : Dumping target pending s) :
    ∃ es sent left, (feed l s).out = s.out ++ es ∧ Dumping target left (feed l s) ∧
      sent ++ left = pending ++ l.map (fun p => dumpFrame s.cfg p.1) ∧
      DumpEvents target sent
        (List.replicate ((pending.length + l.length) / s.cfg.dumpBlockFrames) s.cfg.dumpBlockFrames) es ∧
      left.length = (pending.length + l.length) % s.cfg.dumpBlockFrames := by
  have hpos := s.cfg.dumpBlockFrames_pos
  induction l generalizing pending s with
  | nil =>
    refine ⟨[], [], pending, by simp, h, by simp, ?_, (Nat.mod_eq_of_lt h.room).symm⟩
    rw [List.length_nil, Nat.add_zero, Nat.div_eq_of_lt h.room]
    exact .nil target
  | cons p l ih =>
    have hcfg : (s.afterSample p.1 p.2).cfg = s.cfg := (s.afterSample_frame p.1 p.2).1
    rcases h.afterSample p.1 p.2 with ⟨hfull, hnext, es, hout, hes⟩ | ⟨-, hnext, es, hout, hes⟩ <;>
      obtain ⟨fs, sent, left, hout', hdump, hframes, hfs, hleft⟩ := ih hnext (hcfg ▸ hpos) <;>
      rw [hcfg] at hframes hfs hleft <;> rw [hout, List.append_assoc] at hout'
    · have hblock : pending.length + (p :: l).length = l.length + s.cfg.dumpBlockFrames := by
        rw [List.length_cons]
        omega
      rw [List.length_nil, Nat.zero_add] at hfs hleft
      refine ⟨es ++ fs, pending ++ [dumpFrame s.cfg p.1] ++ sent, left, hout', hdump, ?_, ?_, ?_⟩
      · rw [List.append_assoc, hframes]
        simp
      · rw [hblock, Nat.add_div_right _ hpos, List.replicate_succ]
        exact hes.append hfs
      · rw [hblock, Nat.add_mod_right, hleft]
    · have hcount : (pending ++ [dumpFrame s.cfg p.1]).length + l.length = pending.length + (p :: l).length := by
        simp
        omega
      rw [hcount] at hfs hleft
      exact ⟨es ++ fs, sent, left, hout', hdump, by simpa using hframes, hes.append hfs, hleft⟩

/-- Settles O39: DUMPON begins with nothing pending, and DUMPOFF sends what is pending as the last block. -/
theorem dumpFileHoldsEverySample : Obligations.DumpFileHoldsEverySample := by
  intro target l s
  set t : State := ({ s.flushDump with dumpTarget := target, dumpActive := true }).respond .C 0x11#8 .ok 0#32 0#32 with ht
  have hcfg : t.cfg = s.cfg := by simp [ht]
  have hstart : Dumping target [] t := ⟨rfl, rfl, rfl, rfl, t.cfg.dumpBlockFrames_pos⟩
  obtain ⟨es, sent, left, hout, hdump, hframes, hes, hleft⟩ := hstart.feed l
  rw [hcfg, List.length_nil, Nat.zero_add] at hes hleft
  refine ⟨t, _, es ++ ((if 0 < left.length then [.dump target left] else []) ++
    [.rsp .C (responseWord 0x12#8 .ok 0#32 0#32)]), rfl, Commands.dumpoffRemovesTarget (feed l t), ?_, ?_⟩
  · simp only [hdump.active, hdump.target_eq, hdump.idx, hdump.frames, hout, true_and, List.append_assoc]
  have hlast : DumpEvents target left (if left.length = 0 then [] else [left.length])
      ((if 0 < left.length then [.dump target left] else []) ++ [.rsp .C (responseWord 0x12#8 .ok 0#32 0#32)]) := by
    by_cases hnil : left = []
    · subst hnil
      exact .response target .C _
    · have hpos := List.length_pos_iff.2 hnil
      rw [if_pos hpos, if_neg hpos.ne']
      simpa using (DumpEvents.single target left).append (.response target .C (responseWord 0x12#8 .ok 0#32 0#32))
  have hall := hes.append hlast
  refine ⟨hall.carries, ?_, ?_⟩
  · rw [hall.frames_eq, hframes, hcfg]
    rfl
  · rw [hall.blocks_eq, hleft]

end Sys2Proof.Proofs.Pipeline

/-! ## The machine: turns, fetches, and what every step keeps (20_memory.md R70, R74; 10_state.md R24, R34 to R37) -/

namespace Sys2Proof.Proofs.Turns

open Sys2Proof.Machine Sys2Proof.Laws Sys2Proof.Safety Sys2Proof.Proofs.Exceptions Sys2Proof.Proofs.Commands

/-! ### The step of a listed turn -/

theorem step_of_fetch_run {s t : State} {i : Instr} (hfetch : fetch s = .run i t) : step s = exec i t := by
  simp only [step, hfetch]

theorem fetch_proc_of_busy {s : State} {d : PopAnswer} {ts : List Turn} (hsched : s.sched = .proc d :: ts)
    (hbusy : s.opState ≠ .idle) : fetch s = resumeP { s with sched := ts, turns := s.turns + 1, draw := d } := by
  simp only [fetch_of_sched hsched, fetchTurn, hbusy, if_false]

theorem acceptP_of_ok {s : State} {w : Word96} {rest : List Word96} {i : Instr} (hcmd : s.cmdP = w :: rest)
    (hdec : decode .P w = .ok i) : acceptP s = .run i { s with cmdP := rest, opCmd := w } := by
  simp only [acceptP, hcmd, hdec]

theorem acceptC_of_ok {s : State} {w : Word96} {rest : List Word96} {i : Instr} (hcmd : s.cmdC = w :: rest)
    (hdec : decode .C w = .ok i) : acceptC s = .run i { s with cmdC := rest } := by
  simp only [acceptC, hcmd, hdec]

theorem resumeP_of_ok {s : State} {i : Instr} (hdec : decode .P s.opCmd = .ok i) (hresumes : i.resumes = true) :
    resumeP s = .run i s := by
  simp only [resumeP, hdec, hresumes, if_true]

theorem resumes_iff (i : Instr) : i.resumes = true ↔ i.isRead = true ∨ i = .reset := by
  simp [Instr.resumes]

/-- Settles O47: the fetch of the turn accepts the word. -/
theorem stepRunsAcceptedCommand : Obligations.StepRunsAcceptedCommand := by
  intro s d turns w rest i hsched hidle hcmd hdec
  exact step_of_fetch_run ((fetch_proc_of_idle hsched hidle).trans (acceptP_of_ok hcmd hdec))

/-- Settles O48: the fetch of the turn resumes the latched command. -/
theorem stepResumesLatchedRead : Obligations.StepResumesLatchedRead := by
  intro s d turns i hsched hbusy hdec hkind
  exact step_of_fetch_run ((fetch_proc_of_busy hsched hbusy).trans (resumeP_of_ok hdec ((resumes_iff i).2 hkind)))

/-- Settles O49: the fetch of `C`'s turn accepts the word, in every state of `P`. -/
theorem stepRunsControlCommand : Obligations.StepRunsControlCommand := by
  intro s turns w rest i hsched hcmd hdec
  exact step_of_fetch_run ((fetch_ctrl hsched).trans (acceptC_of_ok hcmd hdec))

/-- Hardware reset is the reset state of the configuration, with what is outside the block (70_reset_and_hazards.md R240). -/
theorem hwReset_eq (s : State) :
    s.hwReset = { State.resetWith s.cfg with
      dev := s.dev, cmdP := s.cmdP, cmdC := s.cmdC, sched := s.sched, turns := s.turns, draw := s.draw, out := s.out } :=
  rfl

/-- Settles O51: the turn is complete with the reset. -/
theorem hardwareResetRestoresEverything : Obligations.HardwareResetRestoresEverything := by
  intro s turns hsched
  have hfetch : fetch s = .done ({ s with sched := turns, turns := s.turns + 1 } : State).hwReset := by
    rw [fetch_of_sched hsched, fetchTurn]
  rw [step_of_fetch_done hfetch, hwReset_eq]

/-- Settles O52: the fields of `State.resetWith`. -/
theorem resetStateValues : Obligations.ResetStateValues := by
  intro c
  unfold State.resetWith
  exact ⟨rfl, rfl, rfl, rfl, rfl, rfl, rfl, rfl, rfl, rfl, rfl, rfl, rfl, rfl, rfl, rfl, rfl, rfl⟩

/-- Settles O53: after reset no counter has moved, no buffer lists an entry, and nothing is in flight. -/
theorem invariantHoldsAtReset : Obligations.InvariantHoldsAtReset := by
  intro c
  have hdata : DataInv (State.resetWith c) := (restore_data (State.resetWith c)).congr (by simp [State.resetWith])
  refine (inv_iff _).2 ⟨hdata, ?_⟩
  constructor <;> simp [State.resetWith, envSound, counterSound]

/-! ### What a step can be -/

/-- What a turn of `C` can be: nothing waits, the word is illegal, or its command is run whole (41_control.md R160). -/
inductive CtrlTurn (s : State) : State → Prop
  | none (hcmd : s.cmdC = []) : CtrlTurn s s
  | illegal {w : Word96} {rest : List Word96} {why : IllegalWord} (hcmd : s.cmdC = w :: rest)
      (hdec : decode .C w = .illegal why) : CtrlTurn s (({ s with cmdC := rest } : State).answerIllegal .C w)
  | run {w : Word96} {rest : List Word96} {i : Instr} {t : State} (hcmd : s.cmdC = w :: rest) (hdec : decode .C w = .ok i)
      (hexec : exec i { s with cmdC := rest } = .next t) : CtrlTurn s t

/-- What a turn of `P` can be: nothing waits, the word is illegal, its command is accepted, or the latched one goes on
(20_memory.md R70, 10_state.md R24). -/
inductive ProcTurn (s : State) : State → Prop
  | none (hidle : s.opState = .idle) (hcmd : s.cmdP = []) : ProcTurn s s
  | illegal {w : Word96} {rest : List Word96} {why : IllegalWord} (hidle : s.opState = .idle) (hcmd : s.cmdP = w :: rest)
      (hdec : decode .P w = .illegal why) : ProcTurn s (({ s with cmdP := rest } : State).answerIllegal .P w)
  | accept {w : Word96} {rest : List Word96} {i : Instr} {t : State} (hidle : s.opState = .idle) (hcmd : s.cmdP = w :: rest)
      (hdec : decode .P w = .ok i) (hexec : exec i { s with cmdP := rest, opCmd := w } = .next t) : ProcTurn s t
  | resume {i : Instr} {t : State} (hbusy : s.opState ≠ .idle) (hdec : decode .P s.opCmd = .ok i)
      (hkind : i.isRead = true ∨ i = .reset) (hexec : exec i s = .next t) : ProcTurn s t

/-- What a step can be, by whose turn it is (20_memory.md R74). -/
inductive StepKind (s : State) : State → Prop
  | proc {d : PopAnswer} {t : State} (hturn : s.nextTurn = .proc d) (h : ProcTurn { s.passTurn with draw := d } t) :
      StepKind s t
  | ctrl {t : State} (hturn : s.nextTurn = .ctrl) (h : CtrlTurn s.passTurn t) : StepKind s t
  | dev {xs : List Cplx} (hturn : s.nextTurn = .dev xs) : StepKind s (s.passTurn.devAppend xs)
  | hwReset (hturn : s.nextTurn = .hwReset) : StepKind s s.passTurn.hwReset

/-- What the state makes of what was fetched. -/
def finish : Fetched → Host.Outcome State Fault Refusal
  | .done t => .next t
  | .run i t => exec i t
  | .refused r => .refused r

theorem step_eq_finish (s : State) : step s = finish (fetchTurn s.nextTurn s.passTurn) := rfl

theorem ctrlTurn_of_next {s t : State} (h : finish (acceptC s) = .next t) : CtrlTurn s t := by
  cases hcmd : s.cmdC with
  | nil =>
    simp only [acceptC, hcmd, finish, Host.Outcome.next.injEq] at h
    exact h ▸ .none hcmd
  | cons w rest =>
    cases hdec : decode .C w with
    | illegal why =>
      simp only [acceptC, hcmd, hdec, finish, Host.Outcome.next.injEq] at h
      exact h ▸ .illegal hcmd hdec
    | ok i =>
      rw [acceptC_of_ok hcmd hdec] at h
      exact .run hcmd hdec h

theorem procTurn_of_next {s t : State} (h : finish (if s.opState = .idle then acceptP s else resumeP s) = .next t) :
    ProcTurn s t := by
  split at h
  case isTrue hidle =>
    cases hcmd : s.cmdP with
    | nil =>
      simp only [acceptP, hcmd, finish, Host.Outcome.next.injEq] at h
      exact h ▸ .none hidle hcmd
    | cons w rest =>
      cases hdec : decode .P w with
      | illegal why =>
        simp only [acceptP, hcmd, hdec, finish, Host.Outcome.next.injEq] at h
        exact h ▸ .illegal hidle hcmd hdec
      | ok i =>
        rw [acceptP_of_ok hcmd hdec] at h
        exact .accept hidle hcmd hdec h
  case isFalse hbusy =>
    cases hdec : decode .P s.opCmd with
    | illegal why => simp [resumeP, hdec, finish] at h
    | ok i =>
      by_cases hres : i.resumes = true
      · rw [resumeP_of_ok hdec hres] at h
        exact .resume hbusy hdec ((resumes_iff i).1 hres) h
      · simp [resumeP, hdec, hres, finish] at h

theorem stepKind_of_next {s t : State} (h : step s = .next t) : StepKind s t := by
  rw [step_eq_finish] at h
  cases hturn : s.nextTurn with
  | proc d =>
    rw [hturn] at h
    exact .proc hturn (procTurn_of_next h)
  | ctrl =>
    rw [hturn] at h
    exact .ctrl hturn (ctrlTurn_of_next h)
  | dev xs =>
    rw [hturn] at h
    cases h
    exact .dev hturn
  | hwReset =>
    rw [hturn] at h
    cases h
    exact .hwReset hturn

/-! ### The frame of a command of the control port -/

/-- A command of the control port writes `RUNNING` or the dump registers, and sends events. -/
theorem exec_control_frame {w : Word96} {i : Instr} {s t : State} (hdec : decode .C w = .ok i) (h : exec i s = .next t) :
    t = { s with
      running := t.running, dumpActive := t.dumpActive, dumpTarget := t.dumpTarget, dumpIdx := t.dumpIdx, out := t.out } ∧
    (t.running = s.running ∨ i = .setrun t.running) ∧ s.out <+: t.out := by
  rcases decode_C_cases hdec with ⟨b, rfl⟩ | ⟨x, rfl⟩ | rfl | rfl
  · rw [setrunWritesOnlyRunning] at h
    cases h
    exact ⟨rfl, .inr rfl, List.prefix_append _ _⟩
  · rw [dumponInstallsTarget] at h
    cases h
    exact ⟨rfl, .inl rfl, List.append_assoc _ _ _ ▸ List.prefix_append _ _⟩
  · rw [dumpoffRemovesTarget] at h
    cases h
    exact ⟨rfl, .inl rfl, List.append_assoc _ _ _ ▸ List.prefix_append _ _⟩
  · rw [getlevelAnswersLevel] at h
    cases h
    exact ⟨rfl, .inl rfl, List.prefix_append _ _⟩

/-! ### The frame of a command of the processing port -/

/-- What no step of the processing port writes, and what it only adds to (10_state.md R37). -/
structure ProcFrame (s t : State) : Prop where
  cfg : t.cfg = s.cfg
  running : t.running = s.running
  grows : s.out <+: t.out

/-- The same of a step that does not pop. -/
structure KeepsFifo (s t : State) : Prop extends ProcFrame s t where
  dev : t.dev = s.dev

theorem takeCancelled_frame (s : State) (o : BitVec 8) : KeepsFifo s (s.takeCancelled o) :=
  ⟨⟨rfl, rfl, List.prefix_append _ _⟩, rfl⟩

theorem entryLook_frame (s : State) (o : BitVec 8) : KeepsFifo s (s.entryLook o) := by
  rcases s.entryLook_cases o with ⟨-, h⟩ | ⟨-, h⟩ <;> rw [h]
  · exact ⟨⟨rfl, rfl, List.prefix_rfl⟩, rfl⟩
  · exact takeCancelled_frame s o

theorem waitLook_frame (s : State) (o : BitVec 8) (th : Nat) : KeepsFifo s (s.waitLook o th) := by
  rcases s.waitLook_cases o th with ⟨-, -, h⟩ | ⟨-, -, h⟩ | ⟨-, -, h⟩ | ⟨-, -, h⟩ <;> rw [h]
  iterate 3 exact ⟨⟨rfl, rfl, List.prefix_rfl⟩, rfl⟩
  exact takeCancelled_frame s o

theorem postLook_frame (s : State) (o : BitVec 8) : KeepsFifo s (s.postLook o) := by
  rcases s.postLook_cases o with ⟨-, h⟩ | ⟨-, h⟩ <;> rw [h]
  · exact ⟨⟨rfl, rfl, List.prefix_rfl⟩, rfl⟩
  · exact takeCancelled_frame s o

theorem afterSample_keepsFifo (s : State) (raw : Cplx) (off : Word32) : KeepsFifo s (s.afterSample raw off) where
  cfg := by simp
  running := by simp
  grows := by
    rw [Pipeline.afterSample_out, s.dumpStep_out, List.append_assoc]
    exact List.prefix_append _ _
  dev := by simp

theorem KeepsFifo.trans {s t u : State} (h : KeepsFifo s t) (g : KeepsFifo t u) : KeepsFifo s u :=
  ⟨⟨g.cfg.trans h.cfg, g.running.trans h.running, h.grows.trans g.grows⟩, g.dev.trans h.dev⟩

theorem primeEntry_frame (s : State) (g : F32) : KeepsFifo s (s.primeEntry g) := by
  unfold State.primeEntry
  dsimp only
  split <;> exact ⟨⟨rfl, rfl, List.prefix_rfl⟩, rfl⟩

theorem searchEntry_frame (s : State) (g : F32) (limit : Nat) (st : Status) : KeepsFifo s (s.searchEntry g limit st) := by
  unfold State.searchEntry
  dsimp only
  split
  · exact ⟨⟨rfl, rfl, List.prefix_append _ _⟩, rfl⟩
  · exact ⟨⟨rfl, rfl, List.prefix_rfl⟩, rfl⟩

theorem syncSample_frame {s t : State} {g : F32} (h : s.syncSample g = .next t) : KeepsFifo s t := by
  cases hy : s.syState with
  | idle => simp [State.syncSample, hy] at h
  | prime =>
    rw [syncSample_prime hy, Host.Outcome.next.injEq] at h
    exact h ▸ primeEntry_frame s g
  | dip =>
    rw [syncSample_dip hy, Host.Outcome.next.injEq] at h
    exact h ▸ searchEntry_frame s g _ _
  | recover =>
    rw [syncSample_recover hy, Host.Outcome.next.injEq] at h
    exact h ▸ searchEntry_frame s g _ _

theorem beginRead_frame (s : State) : KeepsFifo s s.beginRead := ⟨⟨rfl, rfl, List.prefix_rfl⟩, rfl⟩

theorem syncTest_frame {s t : State} (h : s.syncTest = .next t) : KeepsFifo s t := by
  cases hy : s.syState with
  | idle => simp [State.syncTest, hy] at h
  | prime =>
    simp only [State.syncTest, hy, Host.Outcome.next.injEq] at h
    exact h ▸ beginRead_frame s
  | dip =>
    simp only [State.syncTest, hy] at h
    split at h <;> cases h
    · exact beginRead_frame s
    · exact ⟨⟨rfl, rfl, List.prefix_rfl⟩, rfl⟩
  | recover =>
    simp only [State.syncTest, hy] at h
    split at h <;> cases h
    · exact ⟨⟨rfl, rfl, List.prefix_append _ _⟩, rfl⟩
    · exact beginRead_frame s

/-- A read in RUN with its samples read and no event to emit: it processes a sample, tests its loop, or answers. -/
theorem exec_process_frame {i : Instr} {s t : State} {r : ReadInFlight} (hread : i.isRead = true) (ho : s.opState = .run)
    (hr : s.opRead = some r) (he : s.opEvent = none) (h : exec i s = .next t) : KeepsFifo s t := by
  obtain ⟨m, rest⟩ := r
  cases i with
  | getsample off =>
    simp only [exec_getsample, execGetsample, ho, hr, he] at h
    cases rest with
    | nil => cases h
    | cons raw rest =>
      dsimp only at h
      split at h <;> cases h
      exact (afterSample_keepsFifo s raw off).trans ⟨⟨rfl, rfl, List.prefix_append _ _⟩, rfl⟩
  | getsamples count off =>
    simp only [exec_getsamples, execGetsamples, ho, hr, he] at h
    cases rest with
    | nil =>
      cases h
      exact ⟨⟨rfl, rfl, List.prefix_append _ _⟩, rfl⟩
    | cons raw rest =>
      dsimp only at h
      split at h <;> cases h
      exact (afterSample_keepsFifo s raw off).trans ⟨⟨rfl, rfl, List.prefix_rfl⟩, rfl⟩
  | sync n f =>
    cases rest with
    | nil =>
      cases m with
      | zero => simp [exec_sync, execSync, ho, hr, he] at h
      | succ m => exact syncTest_frame ((exec_sync_test n f ho hr he).symm.trans h)
    | cons raw rest =>
      rw [exec_sync_slots n f ho hr he] at h
      split at h
      · cases h
      split at h
      · cases h
      have hsample : KeepsFifo s { s.afterSample raw 0#32 with opRead := some ⟨m, rest⟩ } :=
        (afterSample_keepsFifo s raw 0#32).trans ⟨⟨rfl, rfl, List.prefix_rfl⟩, rfl⟩
      exact hsample.trans (syncSample_frame h)
  | reset | getlevel | setrun | dumpon | dumpoff => simp [Instr.isRead] at hread

/-- A step of a read: it keeps the FIFO, or it is the `DEV_POP`. -/
theorem exec_read_frame {i : Instr} {s t : State} (hread : i.isRead = true) (h : exec i s = .next t) :
    KeepsFifo s t ∨
    (s.opState = .run ∧ s.opRead = none ∧ s.opEvent = none) ∧ ProcFrame s t ∧ ∃ n, t.dev = s.dev.drop n := by
  obtain ⟨entry, wait, post⟩ := exec_read_looks (s := s) hread
  cases ho : s.opState with
  | idle =>
    refine .inl ?_
    cases i with
    | getsample off =>
      rw [(acceptedReadEntersEntry 0#32 off s ho).1] at h
      cases h
      exact beginRead_frame s
    | getsamples count off =>
      rw [(acceptedReadEntersEntry count off s ho).2] at h
      cases h
      exact beginRead_frame s
    | sync n f =>
      rw [TimeSyncer.syncStartsFresh n f s ho] at h
      cases h
      exact ⟨⟨rfl, rfl, List.prefix_rfl⟩, rfl⟩
    | reset | getlevel | setrun | dumpon | dumpoff => simp [Instr.isRead] at hread
  | entry =>
    rw [entry ho] at h
    cases h
    exact .inl (entryLook_frame s _)
  | wait =>
    rw [wait ho] at h
    cases h
    exact .inl (waitLook_frame s _ _)
  | post =>
    rw [post ho] at h
    cases h
    exact .inl (postLook_frame s _)
  | run =>
    cases he : s.opEvent with
    | some e =>
      rw [exec_send hread ho he] at h
      cases h
      exact .inl ⟨⟨rfl, rfl, List.prefix_append _ _⟩, rfl⟩
    | none =>
      cases hr : s.opRead with
      | some r => exact .inl (exec_process_frame hread ho hr he h)
      | none =>
        rw [exec_pop hread ho hr he] at h
        cases h
        exact .inr ⟨⟨rfl, rfl, rfl⟩, ⟨rfl, rfl, List.prefix_rfl⟩, _, rfl⟩

theorem exec_reset_frame {s t : State} (h : exec .reset s = .next t) : KeepsFifo s t := by
  rcases exec_reset_cases s with ⟨-, hr⟩ | ⟨-, hr⟩ <;> rw [hr] at h <;> cases h
  · exact ⟨⟨rfl, rfl, List.prefix_append _ _⟩, rfl⟩
  · exact ⟨⟨rfl, rfl, List.prefix_rfl⟩, rfl⟩

/-! ### What a turn keeps -/

/-- The turn of `P` in which a read in RUN makes its `DEV_POP` (40_sample_reader.md R124). -/
def Pops (s : State) : Prop :=
  s.opState = .run ∧ s.opRead = none ∧ s.opEvent = none ∧ ∃ i, decode .P s.opCmd = .ok i ∧ i.isRead = true

theorem procTurn_frame {s t : State} (h : ProcTurn s t) : KeepsFifo s t ∨ Pops s ∧ ProcFrame s t ∧ ∃ n, t.dev = s.dev.drop n := by
  cases h with
  | none => exact .inl ⟨⟨rfl, rfl, List.prefix_rfl⟩, rfl⟩
  | illegal => exact .inl ⟨⟨rfl, rfl, List.prefix_append _ _⟩, rfl⟩
  | @accept w rest i t hidle hcmd hdec hexec =>
    have hpass : KeepsFifo s { s with cmdP := rest, opCmd := w } := ⟨⟨rfl, rfl, List.prefix_rfl⟩, rfl⟩
    rcases decode_P_cases hdec with hread | rfl | rfl
    · rcases exec_read_frame hread hexec with hkeep | ⟨⟨hrun, -⟩, -⟩
      · exact .inl (hpass.trans hkeep)
      · exact absurd (hidle.symm.trans hrun) (by simp)
    · exact .inl (hpass.trans (exec_reset_frame hexec))
    · rw [getlevelAnswersLevel] at hexec
      cases hexec
      exact .inl ⟨⟨rfl, rfl, List.prefix_append _ _⟩, rfl⟩
  | @resume i t hbusy hdec hkind hexec =>
    rcases hkind with hread | rfl
    · exact (exec_read_frame hread hexec).imp id fun ⟨⟨hrun, hr, he⟩, hpop⟩ => ⟨⟨hrun, hr, he, i, hdec, hread⟩, hpop⟩
    · exact .inl (exec_reset_frame hexec)

theorem ctrlTurn_frame {s t : State} (h : CtrlTurn s t) :
    t = { s with
      running := t.running, dumpActive := t.dumpActive, dumpTarget := t.dumpTarget, dumpIdx := t.dumpIdx
      cmdC := t.cmdC, out := t.out } ∧
    (t.running = s.running ∨ ∃ w rest, s.cmdC = w :: rest ∧ decode .C w = .ok (.setrun t.running)) ∧ s.out <+: t.out := by
  cases h with
  | none => exact ⟨rfl, .inl rfl, List.prefix_rfl⟩
  | illegal => exact ⟨rfl, .inl rfl, List.prefix_append _ _⟩
  | @run w rest i t hcmd hdec hexec =>
    obtain ⟨hframe, hrunning, hgrows⟩ := exec_control_frame hdec hexec
    refine ⟨by rw [hframe], hrunning.imp_right fun hi => ⟨w, rest, hcmd, by rw [hdec, ← hi]⟩, hgrows⟩

/-- Settles O56. -/
theorem stepKeepsConfiguration : Obligations.StepKeepsConfiguration := by
  intro s t h
  cases stepKind_of_next h with
  | proc hturn hproc => rcases procTurn_frame hproc with hkeep | ⟨-, hpop, -⟩ <;> [exact hkeep.cfg; exact hpop.cfg]
  | ctrl hturn hctrl => rw [(ctrlTurn_frame hctrl).1]; rfl
  | dev | hwReset => rfl

/-- Settles O57: `P` and the device leave `RUNNING`, and of the control commands only SETRUN writes it. -/
theorem onlySetrunChangesRunning : Obligations.OnlySetrunChangesRunning := by
  intro s t h hne
  cases stepKind_of_next h with
  | proc hturn hproc =>
    refine absurd ?_ hne
    rcases procTurn_frame hproc with hkeep | ⟨-, hpop, -⟩ <;> [exact hkeep.running; exact hpop.running]
  | ctrl hturn hctrl => exact .inr ⟨hturn, (ctrlTurn_frame hctrl).2.1.resolve_left hne⟩
  | dev => exact absurd rfl hne
  | hwReset hturn => exact .inl hturn

/-- Settles O58: the frame of a turn of `C`. -/
theorem controlTurnLeavesDatapath : Obligations.ControlTurnLeavesDatapath := by
  intro s t hctrl h
  cases stepKind_of_next h with
  | ctrl hturn hc =>
    rw [(ctrlTurn_frame hc).1]
    exact ⟨rfl, rfl, rfl, rfl, rfl, rfl, rfl, rfl, rfl, rfl, rfl, rfl, rfl, rfl, rfl, rfl, rfl, rfl, rfl, rfl, rfl⟩
  | proc hturn | dev hturn | hwReset hturn => exact absurd (hctrl.symm.trans hturn) (by simp)

/-- Settles O59: an append of the device by its own turn; no other turn adds, and only the `DEV_POP` removes. -/
theorem fifoKeepsArrivalOrder : Obligations.FifoKeepsArrivalOrder := by
  intro s
  refine ⟨fun xs hturn => by rw [step_eq_finish, hturn]; rfl, fun t pops h hdev hpops => ?_⟩
  cases stepKind_of_next h with
  | @proc d t hturn hproc =>
    rcases procTurn_frame hproc with hkeep | ⟨hpop, -, hdrop⟩
    · exact ⟨fun _ => ⟨0, hkeep.dev⟩, fun _ => hkeep.dev⟩
    · exact ⟨fun _ => hdrop, fun hno => absurd (hpops.2 ⟨⟨d, hturn⟩, hpop⟩) hno⟩
  | ctrl hturn hctrl =>
    have hkeep := congrArg State.dev (ctrlTurn_frame hctrl).1
    exact ⟨fun _ => ⟨0, hkeep⟩, fun _ => hkeep⟩
  | @dev xs hturn => exact absurd hturn (hdev xs)
  | hwReset => exact ⟨fun _ => ⟨0, rfl⟩, fun _ => rfl⟩

/-- Settles O60. -/
theorem outputsOnlyGrow : Obligations.OutputsOnlyGrow := by
  intro s t h
  have hgrows : s.out <+: t.out := by
    cases stepKind_of_next h with
    | proc hturn hproc => rcases procTurn_frame hproc with hkeep | ⟨-, hpop, -⟩ <;> [exact hkeep.grows; exact hpop.grows]
    | ctrl hturn hctrl => exact (ctrlTurn_frame hctrl).2.2
    | dev | hwReset => exact List.prefix_rfl
  obtain ⟨es, hes⟩ := hgrows
  exact ⟨es, hes.symm⟩

end Sys2Proof.Proofs.Turns

/-! ## Every step of a sound state has a next state, and it is sound (10_state.md R35; 60_exceptions.md R210) -/

namespace Sys2Proof.Proofs.Soundness

open Sys2Proof.Machine Sys2Proof.Laws Sys2Proof.Safety Sys2Proof.Proofs.Exceptions Sys2Proof.Proofs.Commands
open Sys2Proof.Proofs.Turns

/-- The outcome is a next state that has the invariant. -/
def Sound (o : Host.Outcome State Fault Refusal) : Prop := ∃ t, o = .next t ∧ Inv t

theorem Sound.next {t : State} (hd : DataInv t) (hs : SeqInv t) : Sound (.next t) := ⟨t, rfl, (inv_iff t).2 ⟨hd, hs⟩⟩

/-! ### The synchroniser's part of the invariant -/

/-- What the invariant says of `ENV` and the synchroniser's counter. -/
structure EnvInv (s : State) : Prop where
  wf : s.env.wf = true
  size : ∀ k, (s.env.read k).isSome → k < 50
  written : envSound s
  counter : counterSound s

theorem envInv_of_seq {s : State} (h : SeqInv s) : EnvInv s := ⟨h.env_wf, h.env_size, h.env_written, h.counter⟩

theorem EnvInv.congr {s t : State} (h : EnvInv s)
    (e : t.env = s.env ∧ t.syState = s.syState ∧ t.syCnt = s.syCnt ∧ t.syNull = s.syNull ∧ t.syFrame = s.syFrame) :
    EnvInv t := by
  obtain ⟨h1, h2, h3, h4⟩ := h
  obtain ⟨e1, e2, e3, e4, e5⟩ := e
  constructor <;> simp only [envSound, counterSound, e1, e2, e3, e4, e5] at * <;> assumption

theorem envInv_syncStart {s : State} (h : EnvInv s) (n f : Word32) : EnvInv (s.syncStart n f) :=
  ⟨h.wf, h.size, by simp [envSound], by simp [counterSound]⟩

/-- A write within the window keeps the entries that are written. -/
theorem isSome_write {m : Space F32} {j k : Nat} {v : F32} (h : (m.read j).isSome) : ((m.write k v).read j).isSome := by
  rw [Space.read_write]
  split <;> simp [h]

/-! ### The sequencing part of the invariant, by where the command stands -/

/-- With no command in flight the synchroniser is idle too. -/
theorem seqInv_idle {t : State} (hwf : t.env.wf = true) (hsize : ∀ k, (t.env.read k).isSome → k < 50)
    (ho : t.opState = .idle) (hy : t.syState = .idle) (hp : t.opPolled = false) (hr : t.opRead = none)
    (he : t.opEvent = none) : SeqInv t where
  env_wf := hwf
  env_size := hsize
  env_written := by rw [envSound, hy]; trivial
  counter := by rw [counterSound, hy]; trivial
  idle_sync _ := hy
  flight h := absurd ho h
  opRead_run _ := hr
  opEvent_run _ := he
  opPolled_wait _ := hp

/-- A read at its entry. -/
theorem seqInv_beginRead {s : State} {i : Instr} (h : EnvInv s) (hdec : decode .P s.opCmd = .ok i) (hread : i.isRead = true)
    (hy : s.syState = .idle ↔ i.opc ≠ 0x03#8) : SeqInv s.beginRead := by
  have henv : EnvInv s.beginRead := h.congr (by simp)
  refine ⟨henv.wf, henv.size, henv.written, henv.counter, by simp, fun _ => ?flight, by simp, by simp, by simp⟩
  exact ⟨i, hdec, hy, .inl ⟨hread, by simp [beforePop], by simp⟩⟩

/-- A read in RUN with its samples read. -/
theorem seqInv_run {t : State} {i : Instr} {r : ReadInFlight} (h : EnvInv t) (hdec : decode .P t.opCmd = .ok i)
    (hread : i.isRead = true) (hy : t.syState = .idle ↔ i.opc ≠ 0x03#8) (ho : t.opState = .run) (hr : t.opRead = some r)
    (hsound : readSound i r) (hp : t.opPolled = false) : SeqInv t := by
  refine ⟨h.wf, h.size, h.written, h.counter, by simp [ho], fun _ => ?flight, by simp [ho], by simp [ho], fun _ => hp⟩
  refine ⟨i, hdec, hy, .inl ⟨hread, by simp [beforePop, ho, hr], fun r' hr' => ?_⟩⟩
  rw [hr] at hr'
  cases hr'
  exact hsound

/-- A RESET between its two steps. -/
theorem seqInv_beginReset {s : State} (hdec : decode .P s.opCmd = .ok .reset) (hy : s.syState = .idle) :
    SeqInv s.restoreDatapath.beginReset where
  env_wf := rfl
  env_size := by simp
  env_written := by simp [envSound, hy]
  counter := by simp [counterSound, hy]
  idle_sync := by simp
  flight _ := ⟨.reset, hdec, by simp [hy, Instr.opc], .inr ⟨rfl, rfl, rfl, rfl⟩⟩
  opRead_run := by simp
  opEvent_run := by simp
  opPolled_wait := by simp

/-! ### The commands of the control port -/

theorem exec_control_sound {w : Word96} {i : Instr} {s : State} (hd : DataInv s) (hs : SeqInv s)
    (hdec : decode .C w = .ok i) : Sound (exec i s) := by
  rcases decode_C_cases hdec with ⟨b, rfl⟩ | ⟨x, rfl⟩ | rfl | rfl
  · exact .next (hd.congr (by simp)) (hs.congr (by simp [State.devAvail]))
  · exact .next ((flush_on_data hd x).congr (by simp)) (hs.congr (by simp [State.devAvail]))
  · exact .next ((flush_off_data hd).congr (by simp)) (hs.congr (by simp [State.devAvail]))
  · exact .next (hd.congr (by simp)) (hs.congr (by simp [State.devAvail]))

/-! ### A command accepted on the processing port -/

theorem exec_accepted_sound {i : Instr} {s : State} (hd : DataInv s) (hs : SeqInv s) (ho : s.opState = .idle)
    (hdec : decode .P s.opCmd = .ok i) : Sound (exec i s) := by
  have hy := hs.idle_sync ho
  have henv := envInv_of_seq hs
  cases i with
  | getsample off =>
    rw [(acceptedReadEntersEntry 0#32 off s ho).1]
    exact .next (hd.congr (by simp)) (seqInv_beginRead henv hdec rfl (by simp [hy, Instr.opc]))
  | getsamples count off =>
    rw [(acceptedReadEntersEntry count off s ho).2]
    exact .next (hd.congr (by simp)) (seqInv_beginRead henv hdec rfl (by simp [hy, Instr.opc]))
  | sync n f =>
    rw [TimeSyncer.exec_sync, TimeSyncer.execSync_of_idle n f ho]
    exact .next (hd.congr (by simp)) (seqInv_beginRead (envInv_syncStart henv n f) hdec rfl (by simp [Instr.opc]))
  | reset =>
    rw [(exec_reset_cases s).resolve_left (by simp [ho]) |>.2]
    exact .next ((restoreDatapath_data hd).congr (by simp)) (seqInv_beginReset hdec hy)
  | getlevel p => exact .next (hd.congr (by simp)) (hs.congr (by simp [State.devAvail]))
  | setrun | dumpon | dumpoff => rcases decode_P_cases hdec with h | h | h <;> simp [Instr.isRead] at h

/-! ### A read before RUN -/

theorem cancelled_sound {i : Instr} {s : State} (hd : DataInv s) (hs : SeqInv s) (hf : flightSound s)
    (hdec : decode .P s.opCmd = .ok i) : Sound (.next (s.takeCancelled i.opc)) := by
  obtain ⟨hd', hs'⟩ := cancelled_inv hd hs hf i.opc fun j hj => by
    rw [hdec] at hj
    cases hj
    rfl
  exact .next hd' hs'

theorem exec_look_sound {i : Instr} {s : State} (hd : DataInv s) (hs : SeqInv s) (hdec : decode .P s.opCmd = .ok i)
    (hread : i.isRead = true) (ho : s.opState = .entry ∨ s.opState = .wait ∨ s.opState = .post) : Sound (exec i s) := by
  have hbusy : s.opState ≠ .idle := by rcases ho with h | h | h <;> simp [h]
  have hrun : s.opState ≠ .run := by rcases ho with h | h | h <;> simp [h]
  have hf := hs.flight hbusy
  have hr := hs.opRead_run hrun
  have he := hs.opEvent_run hrun
  obtain ⟨-, -, havail, -⟩ := flight_read hf hdec hread
  obtain ⟨entry, wait, post⟩ := exec_read_looks (s := s) hread
  have hlook : ∀ {o : OpState} {b : Bool}, o ≠ .idle → (o ≠ .wait → b = false) →
      (o = .post ∨ o = .run → threshold i s ≤ s.devAvail) → SeqInv { s with opState := o, opPolled := b } :=
    fun ho hb hth => look_seq hs hf hdec hread hr he ho hb hth
  rcases ho with ho | ho | ho
  · rw [entry ho]
    rcases s.entryLook_cases i.opc with ⟨-, h⟩ | ⟨-, h⟩ <;> rw [h]
    · exact .next (hd.congr (by simp)) (hlook (by simp) (by simp) (by simp))
    · exact cancelled_sound hd hs hf hdec
  · rw [wait ho]
    rcases s.waitLook_cases i.opc (threshold i s) with ⟨hp, hth, h⟩ | ⟨-, -, h⟩ | ⟨-, -, h⟩ | ⟨-, -, h⟩ <;> rw [h]
    · exact .next (hd.congr (by simp)) (hlook (o := .post) (by simp) (fun _ => hp) fun _ => hth)
    · exact .next (hd.congr (by simp)) (hlook (o := s.opState) hbusy (fun hw => absurd ho hw) (by simp [ho]))
    · exact .next (hd.congr (by simp)) (hlook (o := s.opState) hbusy (fun _ => rfl) (by simp [ho]))
    · exact cancelled_sound hd hs hf hdec
  · rw [post ho]
    rcases s.postLook_cases i.opc with ⟨-, h⟩ | ⟨-, h⟩ <;> rw [h]
    · have hread' : ({ s with opState := .run, opRead := none } : State) = { s with opState := .run } := by simp [hr]
      have hp : s.opPolled = false := hs.opPolled_wait (by simp [ho])
      rw [hread']
      exact .next (hd.congr (by simp)) (hlook (o := .run) (by simp) (fun _ => hp) fun _ => havail (.inl ho))
    · exact cancelled_sound hd hs hf hdec

/-! ### A read in RUN -/

/-- Emitting the event formed changes nothing that the invariant speaks of. -/
theorem send_sound {i : Instr} {s : State} (e : Event) (hd : DataInv s) (hs : SeqInv s)
    (hdec : decode .P s.opCmd = .ok i) (hread : i.isRead = true) (ho : s.opState = .run) : Sound (.next (s.sendEvent e)) := by
  obtain ⟨hy, hflight⟩ := flight_read (hs.flight (by simp [ho])) hdec hread
  refine .next (hd.congr (by simp)) ⟨hs.env_wf, hs.env_size, hs.env_written, hs.counter, hs.idle_sync, fun _ => ?flight,
    hs.opRead_run, fun _ => rfl, hs.opPolled_wait⟩
  exact ⟨i, hdec, hy, .inl hflight⟩

/-- With enough samples there, what the device returns fits the read (40_sample_reader.md R124, R125). -/
theorem popped_sound {i : Instr} {s : State} (hread : i.isRead = true) (hth : threshold i s ≤ s.devAvail) :
    readSound i ⟨popCount (popSize i) s.devAvail s.draw.count, s.dev.take (popCount (popSize i) s.devAvail s.draw.count)⟩ := by
  have hlength := s.devPop_rest_length (popSize i)
  cases i with
  | getsample | sync =>
    have hone : popCount 1 s.devAvail s.draw.count = 1 := popCount_one (s.cfg.lowWater_pos.trans hth) _
    simp only [popSize, hone] at hlength ⊢
    exact ⟨rfl, by simp [hlength]⟩
  | getsamples count off => exact ⟨(popCount_le _ _ _).1, hlength.le⟩
  | reset | getlevel | setrun | dumpon | dumpoff => simp [Instr.isRead] at hread

theorem pop_sound {i : Instr} {s : State} (hd : DataInv s) (hs : SeqInv s) (hdec : decode .P s.opCmd = .ok i)
    (hread : i.isRead = true) (ho : s.opState = .run) (hr : s.opRead = none) : Sound (.next (s.devPop (popSize i))) := by
  obtain ⟨hy, -, havail, -⟩ := flight_read (hs.flight (by simp [ho])) hdec hread
  have hp := hs.opPolled_wait (by simp [ho])
  exact .next (hd.congr (by simp))
    (seqInv_run ((envInv_of_seq hs).congr (by simp)) hdec hread hy ho rfl (popped_sound hread (havail (.inr ⟨ho, hr⟩))) hp)

/-- A priming entry keeps the synchroniser's part: one more entry is written, or the window is complete. -/
theorem envInv_primeEntry {s : State} (h : EnvInv s) (hy : s.syState = .prime) (g : F32) : EnvInv (s.primeEntry g) := by
  have hcnt : s.syCnt.toNat < 50 := by simpa [counterSound, hy] using h.counter
  have hwritten : ∀ k, k < s.syCnt.toNat + 1 → ((s.env.write s.syCnt.toNat g).read k).isSome := by
    intro k hk
    by_cases hlast : k = s.syCnt.toNat
    · rw [hlast, Space.read_write_same]
      rfl
    · have hprev : ∀ k, k < s.syCnt.toNat → (s.env.read k).isSome := by simpa [envSound, hy] using h.written
      exact isSome_write (hprev k (by omega))
  have hwf := Space.wf_write h.wf s.syCnt.toNat g
  have hsize := size_write (v := g) h.size hcnt
  have hnext : (BitVec.ofNat 33 (s.syCnt.toNat + 1)).toNat = s.syCnt.toNat + 1 := by
    rw [BitVec.toNat_ofNat, Nat.mod_eq_of_lt (by omega)]
  unfold State.primeEntry
  dsimp only
  split
  case isTrue hlast =>
    rw [Cfg.window_fixed] at hlast
    exact ⟨hwf, hsize, by simpa [envSound, hlast] using hwritten, by simp [counterSound]⟩
  case isFalse hlast =>
    rw [Cfg.window_fixed] at hlast
    exact ⟨hwf, hsize, by simpa [envSound, hy, hnext] using hwritten, by simpa [counterSound, hy, hnext] using by omega⟩

/-- A search sample keeps the window written; its count is within the limit of the phase. -/
theorem envInv_searched {s : State} (h : EnvInv s) {raw : Cplx} {r : ReadInFlight}
    (hy : s.syState = .dip ∧ s.syCnt.toNat + 1 ≤ s.syFrame.toNat ∨
      s.syState = .recover ∧ s.syCnt.toNat + 1 ≤ s.syNull.toNat + 50) : EnvInv (searched s raw r) := by
  have hwf := Space.wf_write h.wf s.syIdx.val (s.cfg.MAG (s.corrected raw 0#32))
  have hsize := size_write (v := s.cfg.MAG (s.corrected raw 0#32)) h.size s.syIdx.isLt
  have hwritten := h.written
  have hnext : (BitVec.ofNat 33 (s.syCnt.toNat + 1)).toNat = s.syCnt.toNat + 1 := by
    have := s.syFrame.isLt
    have := s.syNull.isLt
    rw [BitVec.toNat_ofNat, Nat.mod_eq_of_lt (by omega)]
  rcases hy with ⟨hy, hle⟩ | ⟨hy, hle⟩ <;> simp only [envSound, hy] at hwritten
  · exact ⟨hwf, hsize, by simpa [envSound, searched, hy] using fun k hk => isSome_write (hwritten k hk),
      by simpa [counterSound, searched, hy, hnext] using hle⟩
  · exact ⟨hwf, hsize, by simpa [envSound, searched, hy] using fun k hk => isSome_write (hwritten k hk),
      by simpa [counterSound, searched, hy, hnext] using hle⟩

theorem searched_data {s : State} (hd : DataInv s) (raw : Cplx) (r : ReadInFlight) : DataInv (searched s raw r) :=
  (afterSample_data hd raw 0#32).congr (by simp [searched])

theorem syncFinish_sound {s : State} (st : Status) (hd : DataInv s) (hwf : s.env.wf = true)
    (hsize : ∀ k, (s.env.read k).isSome → k < 50) : Sound (.next (s.syncFinish st)) :=
  .next (hd.congr (by simp)) (seqInv_idle hwf hsize rfl rfl rfl rfl rfl)

/-- A search sample ends the SYNC, or leaves its read in RUN with the sample processed. -/
theorem search_sound {n f : Word32} {s : State} {raw : Cplx} {r : ReadInFlight} {limit : Nat} {st : Status}
    (hd : DataInv s) (hs : SeqInv s) (hdec : decode .P s.opCmd = .ok (.sync n f)) (hy : s.syState ≠ .idle)
    (ho : s.opState = .run) (hleft : readSound (.sync n f) r)
    (hinv : s.syCnt.toNat + 1 ≤ limit → EnvInv (searched s raw r)) :
    Sound (.next (if limit < s.syCnt.toNat + 1 then (searched s raw r).syncFinish st else searched s raw r)) := by
  split
  case isTrue =>
    exact syncFinish_sound st (searched_data hd raw r) (Space.wf_write hs.env_wf _ _)
      (size_write hs.env_size s.syIdx.isLt)
  case isFalse hin =>
    exact .next (searched_data hd raw r) (seqInv_run (hinv (Nat.le_of_not_lt hin)) (by simpa [searched] using hdec) rfl
      (by simp [searched, hy, Instr.opc]) (by simp [searched, ho]) rfl hleft
      (by simp [searched, hs.opPolled_wait (by simp [ho])]))

/-- What a priming entry leaves, beside `ENV` and the working registers. -/
theorem primeEntry_rest (s : State) (g : F32) :
    (s.primeEntry g).opState = s.opState ∧ (s.primeEntry g).opCmd = s.opCmd ∧ (s.primeEntry g).opRead = s.opRead ∧
    (s.primeEntry g).opPolled = s.opPolled ∧ ((s.primeEntry g).syState = s.syState ∨ (s.primeEntry g).syState = .dip) := by
  unfold State.primeEntry
  dsimp only
  split <;> simp

theorem primeEntry_data {s : State} (hd : DataInv s) (g : F32) : DataInv (s.primeEntry g) := by
  refine hd.congr ?_
  unfold State.primeEntry
  dsimp only
  split <;> simp

theorem primeEntry_sound {n f : Word32} {s : State} {r : ReadInFlight} (hd : DataInv s) (henv : EnvInv s)
    (hdec : decode .P s.opCmd = .ok (.sync n f)) (hphase : s.syState = .prime) (ho : s.opState = .run)
    (hr : s.opRead = some r) (hleft : readSound (.sync n f) r) (hp : s.opPolled = false) (g : F32) :
    Sound (.next (s.primeEntry g)) := by
  obtain ⟨ho', hcmd, hr', hp', hy⟩ := primeEntry_rest s g
  have hbusy : (s.primeEntry g).syState ≠ .idle := by rcases hy with h | h <;> simp [h, hphase]
  exact .next (primeEntry_data hd g) (seqInv_run (envInv_primeEntry henv hphase g) (hcmd ▸ hdec) rfl
    (by simp [hbusy, Instr.opc]) (ho'.trans ho) (hr'.trans hr) hleft (hp'.trans hp))

/-- A sample of SYNC, in each phase (42_time_syncer.md R191). -/
theorem sync_sample_sound {n f : Word32} {s : State} {m : Nat} {raw : Cplx} {rest : List Cplx} (hd : DataInv s)
    (hs : SeqInv s) (hdec : decode .P s.opCmd = .ok (.sync n f)) (ho : s.opState = .run)
    (hr : s.opRead = some ⟨m, raw :: rest⟩) (he : s.opEvent = none) : Sound (exec (.sync n f) s) := by
  obtain ⟨hsy, -, -, hsound⟩ := flight_read (hs.flight (by simp [ho])) hdec rfl
  have hy : s.syState ≠ .idle := by simp [hsy, Instr.opc]
  have hleft : readSound (.sync n f) ⟨m, rest⟩ := by
    obtain ⟨hcount, hlength⟩ : m = 1 ∧ (raw :: rest).length ≤ 1 := hsound _ hr
    exact ⟨hcount, Nat.le_of_succ_le hlength⟩
  have hdump : s.dumpActive = true → s.dumpIdx < s.cfg.dumpBlockFrames := fun _ => hd.dumpIdx_lt
  have henv := envInv_of_seq hs
  cases hphase : s.syState with
  | idle => exact absurd hphase hy
  | prime =>
    have hcnt : s.syCnt.toNat < 50 := by simpa only [counterSound, hphase] using henv.counter
    rw [exec_sync_sample n f ho hr he hdump fun _ => hcnt]
    rw [syncSample_prime (by simp [hphase])]
    exact primeEntry_sound ((afterSample_data hd raw 0#32).congr (by simp)) (henv.congr (by simp)) (by simpa using hdec)
      (by simp [hphase]) (by simp [ho]) rfl hleft (by simp [hs.opPolled_wait (by simp [ho])]) _
  | dip =>
    rw [exec_sync_dip n f ho hr he hphase hdump]
    exact search_sound hd hs hdec hy ho hleft fun hle => envInv_searched henv (.inl ⟨hphase, hle⟩)
  | recover =>
    rw [exec_sync_recover n f ho hr he hphase hdump]
    exact search_sound hd hs hdec hy ho hleft fun hle => envInv_searched henv (.inr ⟨hphase, hle⟩)

/-- The loop test of SYNC, in each phase (42_time_syncer.md R184, R187, R188). -/
theorem sync_test_sound {n f : Word32} {s : State} {m : Nat} (hd : DataInv s) (hs : SeqInv s)
    (hdec : decode .P s.opCmd = .ok (.sync n f)) (ho : s.opState = .run) (hr : s.opRead = some ⟨m + 1, []⟩)
    (he : s.opEvent = none) : Sound (exec (.sync n f) s) := by
  obtain ⟨hsy, -, -, hsound⟩ := flight_read (hs.flight (by simp [ho])) hdec rfl
  obtain ⟨prime, above, dip, below, established⟩ := syncLoopTests n f s m ho hr he
  have henv := envInv_of_seq hs
  have hagain : Sound (.next s.beginRead) := .next (hd.congr (by simp)) (seqInv_beginRead henv hdec rfl hsy)
  cases hphase : s.syState with
  | idle => exact absurd hphase (by simp [hsy, Instr.opc])
  | prime => exact (prime hphase).symm ▸ hagain
  | dip =>
    cases ha : s.aboveDip with
    | true => exact (above hphase ha).symm ▸ hagain
    | false =>
      rw [dip hphase ha]
      have hwritten : ∀ k, k < 50 → (s.env.read k).isSome := by simpa only [envSound, hphase] using henv.written
      exact .next (hd.congr (by simp)) (seqInv_run (r := ⟨m + 1, []⟩)
        ⟨henv.wf, henv.size, hwritten, Nat.zero_le _⟩ hdec rfl (by simp [Instr.opc]) ho hr (hsound _ hr)
        (hs.opPolled_wait (by simp [ho])))
  | recover =>
    cases ha : s.aboveRec with
    | true =>
      rw [established hphase ha]
      exact syncFinish_sound .established hd henv.wf henv.size
    | false => exact (below hphase ha).symm ▸ hagain

theorem exec_run_sound {i : Instr} {s : State} (hd : DataInv s) (hs : SeqInv s) (hdec : decode .P s.opCmd = .ok i)
    (hread : i.isRead = true) (ho : s.opState = .run) : Sound (exec i s) := by
  obtain ⟨hsy, -, -, hsound⟩ := flight_read (hs.flight (by simp [ho])) hdec hread
  have henv := envInv_of_seq hs
  have hdump : s.dumpActive = true → s.dumpIdx < s.cfg.dumpBlockFrames := fun _ => hd.dumpIdx_lt
  have hp := hs.opPolled_wait (by simp [ho])
  cases he : s.opEvent with
  | some e =>
    rw [exec_send hread ho he]
    exact send_sound e hd hs hdec hread ho
  | none =>
    cases hr : s.opRead with
    | none =>
      rw [exec_pop hread ho hr he]
      exact pop_sound hd hs hdec hread ho hr
    | some r =>
      obtain ⟨m, rest⟩ := r
      have hfits := hsound _ hr
      cases i with
      | getsample off =>
        obtain ⟨-, hlength⟩ : m = 1 ∧ rest.length = 1 := hfits
        obtain ⟨raw, rfl⟩ := List.length_eq_one_iff.1 hlength
        rw [getsampleAnswersCorrectedSample off s m raw [] ho hr he hdump]
        exact .next ((afterSample_data hd raw off).congr (by simp))
          (seqInv_idle (by simpa using hs.env_wf) (by simpa using hs.env_size) rfl (by simp [hsy, Instr.opc]) rfl rfl rfl)
      | getsamples count off =>
        obtain ⟨hcount, hlength⟩ : m ≤ count.toNat ∧ rest.length ≤ m := hfits
        cases rest with
        | nil =>
          rw [getsamplesAnswersActualCount count off s m ho hr he]
          exact .next (hd.congr (by simp))
            (seqInv_idle hs.env_wf hs.env_size rfl (by simp [hsy, Instr.opc]) rfl rfl rfl)
        | cons raw rest =>
          rw [getsamplesProcessesNextSample count off s m raw rest ho hr he hdump]
          have hleft : readSound (.getsamples count off) ⟨m, rest⟩ := ⟨hcount, Nat.le_of_succ_le hlength⟩
          exact .next ((afterSample_data hd raw off).congr (by simp))
            (seqInv_run (henv.congr (by simp)) (by simpa using hdec) rfl (by simpa using hsy) (by simp [ho]) rfl hleft
              (by simp [hp]))
      | sync n f =>
        obtain ⟨hcount, -⟩ : m = 1 ∧ rest.length ≤ 1 := hfits
        cases rest with
        | nil => exact sync_test_sound hd hs hdec ho (hcount ▸ hr) he
        | cons raw rest => exact sync_sample_sound hd hs hdec ho hr he
      | reset | getlevel | setrun | dumpon | dumpoff => simp [Instr.isRead] at hread

/-! ### The whole step -/

/-- A turn of `P` in the middle of a command. -/
theorem exec_resumed_sound {i : Instr} {s : State} (hd : DataInv s) (hs : SeqInv s) (hbusy : s.opState ≠ .idle)
    (hdec : decode .P s.opCmd = .ok i) (hkind : i.isRead = true ∨ i = .reset) : Sound (exec i s) := by
  rcases hkind with hread | rfl
  · cases ho : s.opState with
    | idle => exact absurd ho hbusy
    | entry => exact exec_look_sound hd hs hdec hread (.inl ho)
    | wait => exact exec_look_sound hd hs hdec hread (.inr (.inl ho))
    | post => exact exec_look_sound hd hs hdec hread (.inr (.inr ho))
    | run => exact exec_run_sound hd hs hdec hread ho
  · obtain ⟨hy, ho, hr, he⟩ := flight_reset (hs.flight hbusy) hdec
    rw [(exec_reset_cases s).resolve_right (by simp [ho]) |>.2]
    exact .next ((restoreDump_data hd).congr (by simp)) (seqInv_idle hs.env_wf hs.env_size rfl rfl rfl rfl rfl)

theorem acceptC_sound {s : State} (hd : DataInv s) (hs : SeqInv s) : Sound (finish (acceptC s)) := by
  cases hcmd : s.cmdC with
  | nil =>
    simp only [acceptC, hcmd]
    exact .next hd hs
  | cons w rest =>
    cases hdec : decode .C w with
    | illegal why =>
      rw [acceptC_of_illegal hcmd hdec]
      exact .next (hd.congr (by simp)) (hs.congr (by simp [State.devAvail]))
    | ok i =>
      rw [acceptC_of_ok hcmd hdec]
      exact exec_control_sound (hd.congr (by simp)) (hs.congr (by simp [State.devAvail])) hdec

theorem acceptP_sound {s : State} (hd : DataInv s) (hs : SeqInv s) (ho : s.opState = .idle) :
    Sound (finish (acceptP s)) := by
  cases hcmd : s.cmdP with
  | nil =>
    simp only [acceptP, hcmd]
    exact .next hd hs
  | cons w rest =>
    cases hdec : decode .P w with
    | illegal why =>
      rw [acceptP_of_illegal hcmd hdec]
      exact .next (hd.congr (by simp)) (hs.congr (by simp [State.devAvail]))
    | ok i =>
      rw [acceptP_of_ok hcmd hdec]
      exact exec_accepted_sound (hd.congr (by simp)) (hs.congr (by simp [State.devAvail, ho])) ho hdec

theorem resumeP_sound {s : State} (hd : DataInv s) (hs : SeqInv s) (hbusy : s.opState ≠ .idle) :
    Sound (finish (resumeP s)) := by
  obtain ⟨i, hdec, -, hflight⟩ := hs.flight hbusy
  have hkind : i.isRead = true ∨ i = .reset := hflight.imp (fun h => h.1) (fun h => h.1)
  rw [resumeP_of_ok hdec ((resumes_iff i).2 hkind)]
  exact exec_resumed_sound hd hs hbusy hdec hkind

theorem hwReset_sound (s : State) : Sound (.next s.hwReset) :=
  .next ((restore_data s).congr (by simp [State.hwReset])) (seqInv_idle rfl (by simp [State.hwReset]) rfl rfl rfl rfl rfl)

/-- From a sound state every turn has a next state, and it is sound. -/
theorem step_sound {s : State} (h : Inv s) : Sound (step s) := by
  obtain ⟨hd, hs⟩ := (inv_iff s).1 h
  have hd' : DataInv s.passTurn := hd.congr (by simp)
  have hs' : SeqInv s.passTurn := hs.congr (by simp [State.devAvail])
  rw [step_eq_finish]
  cases s.nextTurn with
  | proc d =>
    have hd' : DataInv { s.passTurn with draw := d } := hd'.congr (by simp)
    have hs' : SeqInv { s.passTurn with draw := d } := hs'.congr (by simp [State.devAvail])
    rcases fetchTurn_proc_cases d s.passTurn with ⟨ho, hfetch⟩ | ⟨ho, hfetch⟩ <;> rw [hfetch]
    · exact acceptP_sound hd' hs' ho
    · exact resumeP_sound hd' hs' ho
  | ctrl => exact acceptC_sound hd' hs'
  | dev xs => exact .next (hd'.congr (by simp)) (hs'.congr (by simp [State.devAvail]))
  | hwReset => exact hwReset_sound s.passTurn

/-- Settles O54: the next state that `step_sound` gives is the one there is. -/
theorem stepKeepsInvariant : Obligations.StepKeepsInvariant := by
  intro s t h hstep
  obtain ⟨u, hu, hinv⟩ := step_sound h
  rw [hstep, Host.Outcome.next.injEq] at hu
  exact hu ▸ hinv

/-- Settles O55. -/
theorem soundStateNeverStops : Obligations.SoundStateNeverStops := by
  intro s h
  obtain ⟨t, ht, -⟩ := step_sound h
  exact ⟨t, ht⟩

end Sys2Proof.Proofs.Soundness

/-! ## Runs of `P`: the turns of one command, one after the other (20_memory.md R74; 40_sample_reader.md R122) -/

namespace Sys2Proof.Proofs.Runs

open Sys2Proof.Machine Sys2Proof.Laws Sys2Proof.Safety Sys2Proof.Proofs.Exceptions Sys2Proof.Proofs.Commands
open Sys2Proof.Proofs.Turns

/-! ### The pipeline does not look at the sequencing of `P` -/

/-- `s` with another standing of `P`, and another account of turns. -/
def reseq (s : State) (o : OpState) (r : Option ReadInFlight) (e : Option Event) (ts : List Turn) (n : Nat) : State :=
  { s with opState := o, opRead := r, opEvent := e, sched := ts, turns := n }

theorem corrected_reseq (s : State) (o : OpState) (r : Option ReadInFlight) (e : Option Event) (ts : List Turn) (n : Nat)
    (raw : Cplx) (off : Word32) : (reseq s o r e ts n).corrected raw off = s.corrected raw off := by
  rw [State.corrected_eq, State.corrected_eq]
  rfl

theorem afterSample_reseq (s : State) (o : OpState) (r : Option ReadInFlight) (e : Option Event) (ts : List Turn) (n : Nat)
    (raw : Cplx) (off : Word32) :
    (reseq s o r e ts n).afterSample raw off = reseq (s.afterSample raw off) o r e ts n := by
  have hsame : Pipeline.SameDatapath (reseq s o r e ts n) s := ⟨rfl, rfl, rfl, rfl, rfl, rfl⟩
  have hdata := hsame.afterSample raw off
  have hidx : ((reseq s o r e ts n).afterSample raw off).dumpIdx = (s.afterSample raw off).dumpIdx := by
    rw [State.afterSample_dumpIdx, State.afterSample_dumpIdx, State.dumpStep_dumpIdx, State.dumpStep_dumpIdx]
    rfl
  have hdump : ((reseq s o r e ts n).afterSample raw off).dumpBuf = (s.afterSample raw off).dumpBuf := by
    rw [State.afterSample_dumpBuf, State.afterSample_dumpBuf, State.dumpStep_dumpBuf, State.dumpStep_dumpBuf]
    rfl
  have hdisp : ((reseq s o r e ts n).afterSample raw off).dispBuf = (s.afterSample raw off).dispBuf := by
    rw [State.afterSample_dispBuf, State.afterSample_dispBuf]
    rfl
  have hout : ((reseq s o r e ts n).afterSample raw off).out = (s.afterSample raw off).out := by
    rw [Pipeline.afterSample_out, Pipeline.afterSample_out, State.dumpStep_out, State.dumpStep_out, Pipeline.periodEvents,
      Pipeline.periodEvents, hdata.level, hdisp]
    rfl
  rw [Pipeline.sampleLeavesOtherState (reseq s o r e ts n) _ raw off rfl, hdata.phase, hdata.level, hdata.corr, hdata.scount,
    hdata.dispCur, hidx, hdisp, hdump, hout, Pipeline.sampleLeavesOtherState s _ raw off rfl]
  rfl

/-! ### No command looks at the turns to come -/

/-- `s` with another list of turns to come. -/
def resched (s : State) (ts : List Turn) : State := { s with sched := ts }

/-- The next state with another list of turns to come. -/
def withSched (ts : List Turn) : Host.Outcome State Fault Refusal → Host.Outcome State Fault Refusal
  | .next t => .next (resched t ts)
  | .fault r => .fault r
  | .refused r => .refused r

theorem afterSample_sched (s : State) (ts : List Turn) (raw : Cplx) (off : Word32) :
    (resched s ts).afterSample raw off = resched (s.afterSample raw off) ts := by
  exact (afterSample_reseq s s.opState s.opRead s.opEvent ts s.turns raw off).trans (by simp [reseq, resched])

theorem corrected_sched (s : State) (ts : List Turn) (raw : Cplx) (off : Word32) :
    (resched s ts).corrected raw off = s.corrected raw off :=
  corrected_reseq s s.opState s.opRead s.opEvent ts s.turns raw off

theorem resched_ite (c : Prop) [Decidable c] (s t : State) (ts : List Turn) :
    resched (if c then s else t) ts = if c then resched s ts else resched t ts :=
  apply_ite (resched · ts) c s t

theorem withSched_ite (c : Prop) [Decidable c] (ts : List Turn) (o q : Host.Outcome State Fault Refusal) :
    withSched ts (if c then o else q) = if c then withSched ts o else withSched ts q :=
  apply_ite (withSched ts) c o q

theorem primeEntry_sched (s : State) (ts : List Turn) (g : F32) :
    (resched s ts).primeEntry g = resched (s.primeEntry g) ts := by
  unfold State.primeEntry
  rw [resched_ite]
  rfl

theorem searchEntry_sched (s : State) (ts : List Turn) (g : F32) (limit : Nat) (st : Status) :
    (resched s ts).searchEntry g limit st = resched (s.searchEntry g limit st) ts := by
  unfold State.searchEntry
  rw [resched_ite]
  rfl

theorem syncSample_sched (s : State) (ts : List Turn) (g : F32) :
    (resched s ts).syncSample g = withSched ts (s.syncSample g) := by
  cases hy : s.syState with
  | idle =>
    have hy' : (resched s ts).syState = .idle := hy
    simp only [State.syncSample, hy, hy', withSched]
  | prime => rw [syncSample_prime hy, syncSample_prime (s := resched s ts) hy, primeEntry_sched, withSched]
  | dip =>
    rw [syncSample_dip hy, syncSample_dip (s := resched s ts) hy, searchEntry_sched, withSched]
    rfl
  | recover =>
    rw [syncSample_recover hy, syncSample_recover (s := resched s ts) hy, searchEntry_sched, withSched]
    rfl

theorem syncTest_sched (s : State) (ts : List Turn) : (resched s ts).syncTest = withSched ts s.syncTest := by
  cases hy : s.syState with
  | idle =>
    have hy' := show (resched s ts).syState = s.syState from rfl
    simp only [State.syncTest, hy', hy, withSched]
  | prime =>
    have hy' := show (resched s ts).syState = s.syState from rfl
    simp only [State.syncTest, hy', hy, withSched]
    rfl
  | dip | recover =>
    have hy' := show (resched s ts).syState = s.syState from rfl
    simp only [State.syncTest, hy', hy, withSched_ite]
    rfl

/-- A read in RUN that processes a sample, tests its loop, or answers. -/
theorem exec_process_sched {i : Instr} {s : State} {r : ReadInFlight} (ts : List Turn) (hread : i.isRead = true)
    (ho : s.opState = .run) (hr : s.opRead = some r) (he : s.opEvent = none) :
    exec i (resched s ts) = withSched ts (exec i s) := by
  obtain ⟨m, rest⟩ := r
  have ho' : (resched s ts).opState = .run := ho
  have hr' : (resched s ts).opRead = some ⟨m, rest⟩ := hr
  have he' : (resched s ts).opEvent = none := he
  have hslot : (resched s ts).dumpSlotMissing = s.dumpSlotMissing := rfl
  cases i with
  | getsample off =>
    simp only [exec_getsample, execGetsample, ho', ho, hr', hr, he', he, hslot, afterSample_sched, corrected_sched]
    cases rest with
    | nil => rfl
    | cons raw rest =>
      simp only [withSched_ite]
      rfl
  | getsamples count off =>
    simp only [exec_getsamples, execGetsamples, ho', ho, hr', hr, he', he, hslot, afterSample_sched, corrected_sched]
    cases rest with
    | nil => rfl
    | cons raw rest =>
      simp only [withSched_ite]
      rfl
  | sync n f =>
    cases rest with
    | nil =>
      cases m with
      | zero => simp [exec_sync, execSync, ho', ho, hr', hr, he', he, withSched]
      | succ m =>
        rw [exec_sync_test n f ho hr he, exec_sync_test n f ho' hr' he', syncTest_sched]
    | cons raw rest =>
      have hsample : ({ resched (s.afterSample raw 0#32) ts with opRead := some ⟨m, rest⟩ } : State) =
          resched { s.afterSample raw 0#32 with opRead := some ⟨m, rest⟩ } ts := rfl
      rw [exec_sync_slots n f ho hr he, exec_sync_slots n f ho' hr' he', afterSample_sched, corrected_sched, hsample,
        syncSample_sched, withSched_ite, withSched_ite]
      rfl
  | reset | getlevel | setrun | dumpon | dumpoff => simp [Instr.isRead] at hread

theorem exec_read_sched {i : Instr} (hread : i.isRead = true) (s : State) (ts : List Turn) :
    exec i (resched s ts) = withSched ts (exec i s) := by
  obtain ⟨entry, wait, post⟩ := exec_read_looks (s := s) hread
  obtain ⟨entry', wait', post'⟩ := exec_read_looks (s := resched s ts) hread
  have ho' : (resched s ts).opState = s.opState := rfl
  cases ho : s.opState with
  | idle =>
    cases i with
    | getsample | getsamples | sync =>
      simp only [exec_getsample, exec_getsamples, exec_sync, execGetsample, execGetsamples, execSync, ho', ho, withSched]
      rfl
    | reset | getlevel | setrun | dumpon | dumpoff => simp [Instr.isRead] at hread
  | entry =>
    rw [entry ho, entry' ho, withSched, State.entryLook, State.entryLook, resched_ite]
    rfl
  | wait =>
    have hth : threshold i (resched s ts) = threshold i s := by cases i <;> rfl
    rw [wait ho, wait' ho, hth, withSched, State.waitLook, State.waitLook, resched_ite, resched_ite, resched_ite]
    rfl
  | post =>
    rw [post ho, post' ho, withSched, State.postLook, State.postLook, resched_ite]
    rfl
  | run =>
    cases he : s.opEvent with
    | some e =>
      rw [exec_send hread ho he, exec_send (s := resched s ts) hread ho he]
      rfl
    | none =>
      cases hr : s.opRead with
      | some r => exact exec_process_sched ts hread ho hr he
      | none =>
        rw [exec_pop hread ho hr he, exec_pop (s := resched s ts) hread ho hr he]
        rfl

theorem exec_reset_sched (s : State) (ts : List Turn) :
    exec .reset (resched s ts) = withSched ts (exec .reset s) := by
  have ho' : (resched s ts).opState = s.opState := rfl
  cases ho : s.opState <;> simp only [exec_reset, execReset, ho', ho, withSched] <;> rfl

/-! ### Turns of `P` in a row -/

/-- `n` turns of `P` lead from `s` to `t`, whatever turns come after them. -/
def ProcRun (d : PopAnswer) (n : Nat) (s t : State) : Prop :=
  ∀ ts, Host.Core.run Sys2Proof.core n (resched s (List.replicate n (.proc d) ++ ts)) = .next (resched t ts)

theorem run_add {m : Nat} (n : Nat) {s t : State} (h : Host.Core.run Sys2Proof.core m s = .next t) :
    Host.Core.run Sys2Proof.core (m + n) s = Host.Core.run Sys2Proof.core n t := by
  induction m generalizing s with
  | zero =>
    cases h
    rw [Nat.zero_add]
  | succ m ih =>
    rw [Nat.succ_add]
    simp only [Host.Core.run] at h ⊢
    split at h
    · exact ih h
    · cases h
    · cases h

theorem ProcRun.refl (d : PopAnswer) (s : State) : ProcRun d 0 s s := fun _ => rfl

theorem ProcRun.trans {d : PopAnswer} {m n : Nat} {s t u : State} (h : ProcRun d m s t) (g : ProcRun d n t u) :
    ProcRun d (m + n) s u := by
  intro ts
  rw [List.replicate_add, List.append_assoc, run_add n (h _), g ts]

theorem ProcRun.procRun {d : PopAnswer} {n : Nat} {s t : State} (h : ProcRun d n s t) :
    procRun d n s = .next { t with sched := [] } := by
  have h := h []
  rwa [List.append_nil] at h

/-- `s` in a turn of `P` with the answer `d`: the turn is counted. -/
def counted (s : State) (d : PopAnswer) : State := { s with turns := s.turns + 1, draw := d }

/-- The turn `t` leads from `s` to `u`, whatever turns come after it. -/
def TurnTo (t : Turn) (s u : State) : Prop := ∀ ts, step (resched s (t :: ts)) = .next (resched u ts)

theorem TurnTo.procRun {d : PopAnswer} {s t : State} (h : TurnTo (.proc d) s t) : ProcRun d 1 s t := by
  intro ts
  have hstep : Sys2Proof.core.step (resched s (.proc d :: ts)) = .next (resched t ts) := h ts
  simp only [List.replicate_one, List.singleton_append, Host.Core.run, hstep]

theorem exec_resumes_sched {i : Instr} (hkind : i.isRead = true ∨ i = .reset) (s : State) (ts : List Turn) :
    exec i (resched s ts) = withSched ts (exec i s) := by
  rcases hkind with hread | rfl
  · exact exec_read_sched hread s ts
  · exact exec_reset_sched s ts

/-- A turn of `P` in the middle of a command. -/
theorem turn_resume {d : PopAnswer} {s t : State} {i : Instr} (hbusy : s.opState ≠ .idle)
    (hdec : decode .P s.opCmd = .ok i) (hkind : i.isRead = true ∨ i = .reset) (hexec : exec i (counted s d) = .next t) :
    TurnTo (.proc d) s t := by
  intro ts
  rw [stepResumesLatchedRead (resched s (.proc d :: ts)) d ts i rfl hbusy hdec hkind]
  exact (exec_resumes_sched hkind (counted s d) ts).trans (congrArg (withSched ts) hexec)

/-- A turn of `P` that accepts a command. -/
theorem turn_accept {d : PopAnswer} {s t : State} {w : Word96} {rest : List Word96} {i : Instr} (hidle : s.opState = .idle)
    (hcmd : s.cmdP = w :: rest) (hdec : decode .P w = .ok i) (hkind : i.isRead = true ∨ i = .reset)
    (hexec : exec i { counted s d with cmdP := rest, opCmd := w } = .next t) : TurnTo (.proc d) s t := by
  intro ts
  rw [stepRunsAcceptedCommand (resched s (.proc d :: ts)) d ts w rest i rfl hidle hcmd hdec]
  exact (exec_resumes_sched hkind { counted s d with cmdP := rest, opCmd := w } ts).trans (congrArg (withSched ts) hexec)

/-! ### RESET -/

/-- Settles O10: the two steps, and the two turns that take them. -/
theorem resetRestoresRegisters : Obligations.ResetRestoresRegisters := by
  refine ⟨fun s ho => ?first, fun s ho => ?second, fun d rest s ho hcmd => ?both⟩
  case first =>
    rw [(exec_reset_cases s).resolve_left (fun h => ho h.1) |>.2]
    rfl
  case second =>
    rw [(exec_reset_cases s).resolve_right (fun h => h.1 ho) |>.2]
    rfl
  case both =>
    have hdec : decode .P (encode .reset) = .ok .reset := Encoding.decodeInvertsEncode .P .reset rfl
    have hfirst := (exec_reset_cases { counted s d with cmdP := rest, opCmd := encode .reset }).resolve_left (by simp [counted, ho])
    have h1 : ProcRun d 1 s _ := (turn_accept ho hcmd hdec (.inr rfl) hfirst.2).procRun
    generalize hu : ({ counted s d with cmdP := rest, opCmd := encode .reset } : State).restoreDatapath.beginReset = u at h1
    have hrun : u.opState = .run := by rw [← hu]; rfl
    have hsecond := (exec_reset_cases (counted u d)).resolve_right fun h => h.1 hrun
    have h2 : ProcRun d 1 u _ := (turn_resume (by simp [hrun]) (by rw [← hu]; exact hdec) (.inr rfl) hsecond.2).procRun
    subst hu
    exact (h1.trans h2).procRun

end Sys2Proof.Proofs.Runs

/-! ## Whole commands of the reads: cancelled, held, and run to their answer (40_sample_reader.md R122, R123, R137, R138) -/

namespace Sys2Proof.Proofs.WholeReads

open Sys2Proof.Machine Sys2Proof.Laws Sys2Proof.Safety Sys2Proof.Proofs.Exceptions Sys2Proof.Proofs.Commands
open Sys2Proof.Proofs.Turns Sys2Proof.Proofs.Runs

/-! ### A read is accepted -/

/-- The state in which a read has been accepted (10_state.md R24; 42_time_syncer.md R181). -/
def begun (i : Instr) (s : State) : State :=
  match i with
  | .sync n f => (s.syncStart n f).beginRead
  | _ => s.beginRead

theorem exec_begin {i : Instr} {s : State} (hread : i.isRead = true) (ho : s.opState = .idle) :
    exec i s = .next (begun i s) := by
  cases i with
  | getsample off => exact (acceptedReadEntersEntry 0#32 off s ho).1
  | getsamples count off => exact (acceptedReadEntersEntry count off s ho).2
  | sync n f => exact (TimeSyncer.exec_sync n f s).trans (TimeSyncer.execSync_of_idle n f ho)
  | reset | getlevel | setrun | dumpon | dumpoff => simp [Instr.isRead] at hread

theorem decode_encode_read {i : Instr} (hread : i.isRead = true) : decode .P (encode i) = .ok i := by
  refine Encoding.decodeInvertsEncode .P i ?_
  cases i with
  | getsample | getsamples | sync => rfl
  | reset | getlevel | setrun | dumpon | dumpoff => simp [Instr.isRead] at hread

/-- The turn that accepts a read. -/
theorem run_begin {i : Instr} {s : State} {rest : List Word96} (d : PopAnswer) (hread : i.isRead = true)
    (ho : s.opState = .idle) (hcmd : s.cmdP = encode i :: rest) :
    ProcRun d 1 s (begun i { counted s d with cmdP := rest, opCmd := encode i }) :=
  (turn_accept ho hcmd (decode_encode_read hread) (.inl hread) (exec_begin hread ho)).procRun

/-! ### A read that is cancelled -/

/-- The read is at one of its three looks at `RUNNING` (60_exceptions.md R211). -/
def LooksAtRunning (s : State) : Prop :=
  s.opState = .entry ∨ (s.opState = .wait ∧ s.opPolled = true) ∨ s.opState = .post

theorem LooksAtRunning.busy {s : State} (h : LooksAtRunning s) : s.opState ≠ .idle := by
  rcases h with h | ⟨h, -⟩ | h <;> simp [h]

/-- A turn in which a look at `RUNNING` sees 0. -/
theorem turn_cancelled {i : Instr} {s : State} (d : PopAnswer) (hdec : decode .P s.opCmd = .ok i) (hread : i.isRead = true)
    (hstop : s.running = false) (hlook : LooksAtRunning s) :
    TurnTo (.proc d) s ((counted s d).takeCancelled i.opc) :=
  turn_resume hlook.busy hdec (.inl hread) (exec_read_of_stopped (s := counted s d) hread hstop hlook)

/-- Accepting a read writes its standing, and the synchroniser's registers if it is a SYNC. -/
theorem begun_frame (i : Instr) (s : State) :
    (begun i s).opState = .entry ∧ (begun i s).opCmd = s.opCmd ∧ (begun i s).running = s.running ∧
    (begun i s).cmdP = s.cmdP ∧ (begun i s).out = s.out ∧ (begun i s).dev = s.dev ∧ (begun i s).phase = s.phase ∧
    (begun i s).level = s.level ∧ (begun i s).corr = s.corr ∧ (begun i s).scount = s.scount ∧
    (begun i s).dispCur = s.dispCur ∧ (begun i s).dumpActive = s.dumpActive ∧ (begun i s).dumpTarget = s.dumpTarget ∧
    (begun i s).dumpIdx = s.dumpIdx ∧ (begun i s).dispBuf = s.dispBuf ∧ (begun i s).dumpBuf = s.dumpBuf ∧
    (begun i s).env = s.env := by
  cases i <;> simp [begun]

/-- Settles O15: the turn that accepts the read, and its entry look. -/
theorem readCancelledAtEntry : Obligations.ReadCancelledAtEntry := by
  intro i d rest s hread ho hstop hcmd
  have hbegin := run_begin d hread ho hcmd
  have hframe := begun_frame i { counted s d with cmdP := rest, opCmd := encode i }
  generalize begun i { counted s d with cmdP := rest, opCmd := encode i } = b at hbegin hframe
  obtain ⟨hbo, hbcmd, hbrun, hrest⟩ := hframe
  have hcancel := (turn_cancelled d (hbcmd ▸ decode_encode_read hread) hread (hbrun.trans hstop) (.inl hbo)).procRun
  refine ⟨_, (hbegin.trans hcancel).procRun, rfl, ?_⟩
  simp [counted, hbrun, hrest]

/-! ### A read that waits -/

theorem threshold_counted (i : Instr) (s : State) (d : PopAnswer) : threshold i (counted s d) = threshold i s := by
  cases i <;> rfl

/-- One poll iteration with `RUNNING` 1 and too few samples: the look at the FIFO and the look at `RUNNING`. -/
theorem run_poll {i : Instr} {s : State} (d : PopAnswer) (hdec : decode .P s.opCmd = .ok i) (hread : i.isRead = true)
    (ho : s.opState = .wait) (hp : s.opPolled = false) (hrun : s.running = true) (hfew : s.dev.length < threshold i s) :
    ProcRun d 2 s { s with turns := s.turns + 2, draw := d } := by
  have hfew' : (counted s d).dev.length < threshold i (counted s d) := by rw [threshold_counted]; exact hfew
  have h1 := (readPassesAvailabilityWait i (counted s d) hread).2.2.1 ho hp hfew'
  have h2 := (readPassesAvailabilityWait i (counted { counted s d with opPolled := true } d) hread).2.2.2.1 ho rfl hrun
  have hbusy : s.opState ≠ .idle := by simp [ho]
  have hrun2 := (turn_resume hbusy hdec (.inl hread) h1).procRun.trans
    (turn_resume (s := { counted s d with opPolled := true }) hbusy hdec (.inl hread) h2).procRun
  have hlast : ({ counted { counted s d with opPolled := true } d with opPolled := false } : State) =
      { s with turns := s.turns + 2, draw := d } := by rw [← hp]; rfl
  exact hlast ▸ hrun2

theorem run_polls {i : Instr} (d : PopAnswer) (k : Nat) {s : State} (hdec : decode .P s.opCmd = .ok i)
    (hread : i.isRead = true) (ho : s.opState = .wait) (hp : s.opPolled = false) (hrun : s.running = true)
    (hfew : s.dev.length < threshold i s) :
    ProcRun d (2 * (k + 1)) s { s with turns := s.turns + 2 * (k + 1), draw := d } := by
  induction k with
  | zero => exact run_poll d hdec hread ho hp hrun hfew
  | succ k ih =>
    have hfew' : s.dev.length < threshold i { s with turns := s.turns + 2 * (k + 1), draw := d } := by
      have hth : threshold i { s with turns := s.turns + 2 * (k + 1), draw := d } = threshold i s := by cases i <;> rfl
      rw [hth]
      exact hfew
    exact ih.trans (run_poll (s := { s with turns := s.turns + 2 * (k + 1), draw := d }) d hdec hread ho hp hrun hfew')

/-- Settles O16: iterations of `run_poll`. -/
theorem heldReadStaysHeld : Obligations.HeldReadStaysHeld := by
  intro i d k s hdec hread ho hp hrun hfew
  exact (run_polls d k hdec hread ho hp hrun hfew).procRun

/-! ### A read in its wait with `RUNNING` 0 -/

/-- The first look of a poll iteration goes on to a look at `RUNNING`, whatever it finds (40_sample_reader.md R122). -/
theorem turn_first_look {i : Instr} {s : State} (d : PopAnswer) (hdec : decode .P s.opCmd = .ok i) (hread : i.isRead = true)
    (ho : s.opState = .wait) (hp : s.opPolled = false) :
    ∃ o p, TurnTo (.proc d) s { counted s d with opState := o, opPolled := p } ∧
      LooksAtRunning { counted s d with opState := o, opPolled := p } := by
  have hbusy : s.opState ≠ .idle := by simp [ho]
  obtain ⟨-, henough, hfew, -⟩ := readPassesAvailabilityWait i (counted s d) hread
  rcases Nat.lt_or_ge s.dev.length (threshold i (counted s d)) with hth | hth
  · exact ⟨s.opState, true, turn_resume hbusy hdec (.inl hread) (hfew ho hp hth), .inr (.inl ⟨ho, rfl⟩)⟩
  · exact ⟨.post, s.opPolled, turn_resume hbusy hdec (.inl hread) (henough ho hp hth), .inr (.inr rfl)⟩

/-- It is cancelled within one poll iteration. -/
theorem run_wait_cancelled {i : Instr} {s : State} (d : PopAnswer) (hdec : decode .P s.opCmd = .ok i)
    (hread : i.isRead = true) (ho : s.opState = .wait) (hstop : s.running = false) :
    ∃ (k : Nat) (u : State), k ≤ 2 ∧ ProcRun d k s (u.takeCancelled i.opc) ∧ u.dev = s.dev ∧ u.out = s.out := by
  cases hp : s.opPolled with
  | true => exact ⟨1, _, by decide, (turn_cancelled d hdec hread hstop (.inr (.inl ⟨ho, hp⟩))).procRun, rfl, rfl⟩
  | false =>
    obtain ⟨o, p, hturn, hlook⟩ := turn_first_look d hdec hread ho hp
    have hcancel := turn_cancelled (s := { counted s d with opState := o, opPolled := p }) d hdec hread hstop hlook
    exact ⟨2, _, le_rfl, hturn.procRun.trans hcancel.procRun, rfl, rfl⟩

/-! ### The same under a fair schedule -/

/-- The first `n + 1` turns are the first one and the first `n` of the rest of the schedule. -/
theorem schedRun_succ {ts : Nat → Turn} {s u : State} (n : Nat) (h : TurnTo (ts 0) s u) :
    schedRun ts (n + 1) s = schedRun (fun k => ts (k + 1)) n u := by
  have hlist : (List.range (n + 1)).map ts = ts 0 :: (List.range n).map fun k => ts (k + 1) := by
    rw [List.range_succ_eq_map, List.map_cons, List.map_map]
    rfl
  have hstep : Sys2Proof.core.step (resched s (ts 0 :: (List.range n).map fun k => ts (k + 1))) = _ := h _
  unfold schedRun
  rw [hlist]
  exact (by simp only [Host.Core.run, hstep] :
    Host.Core.run Sys2Proof.core (n + 1) (resched s (ts 0 :: (List.range n).map fun k => ts (k + 1))) =
      Host.Core.run Sys2Proof.core n (resched u ((List.range n).map fun k => ts (k + 1))))

/-- A turn of the device appends its samples. -/
theorem turn_dev (s : State) (xs : List Cplx) :
    TurnTo (.dev xs) s { s with turns := s.turns + 1, dev := s.dev ++ xs } :=
  fun ts => (fifoKeepsArrivalOrder (resched s (.dev xs :: ts))).1 xs rfl

theorem exec_control_sched {w : Word96} {i : Instr} (hdec : decode .C w = .ok i) (s : State) (ts : List Turn) :
    exec i (resched s ts) = withSched ts (exec i s) := by
  rcases decode_C_cases hdec with ⟨b, rfl⟩ | ⟨x, rfl⟩ | rfl | rfl
  · rw [setrunWritesOnlyRunning, setrunWritesOnlyRunning]; rfl
  · rw [dumponInstallsTarget, dumponInstallsTarget]; rfl
  · rw [dumpoffRemovesTarget, dumpoffRemovesTarget]; rfl
  · rw [getlevelAnswersLevel, getlevelAnswersLevel]; rfl

theorem exec_control_next {w : Word96} {i : Instr} (hdec : decode .C w = .ok i) (s : State) : ∃ t, exec i s = .next t := by
  rcases decode_C_cases hdec with ⟨b, rfl⟩ | ⟨x, rfl⟩ | rfl | rfl
  · exact ⟨_, setrunWritesOnlyRunning b s⟩
  · exact ⟨_, dumponInstallsTarget x s⟩
  · exact ⟨_, dumpoffRemovesTarget s⟩
  · exact ⟨_, getlevelAnswersLevel .C s⟩

theorem acceptC_next (s : State) :
    ∃ t, CtrlTurn s t ∧ ∀ ts, finish (acceptC (resched s ts)) = .next (resched t ts) := by
  cases hcmd : s.cmdC with
  | nil =>
    have haccept : ∀ ts, acceptC (resched s ts) = .done (resched s ts) := fun ts => by
      simp only [acceptC, show (resched s ts).cmdC = [] from hcmd]
    exact ⟨s, .none hcmd, fun ts => by rw [haccept ts, finish]⟩
  | cons w rest =>
    cases hdec : decode .C w with
    | illegal why =>
      exact ⟨_, .illegal hcmd hdec, fun ts => by rw [acceptC_of_illegal (s := resched s ts) hcmd hdec]; rfl⟩
    | ok i =>
      obtain ⟨t, ht⟩ := exec_control_next hdec { s with cmdC := rest }
      refine ⟨t, .run hcmd hdec ht, fun ts => ?_⟩
      rw [acceptC_of_ok (s := resched s ts) hcmd hdec]
      exact (exec_control_sched hdec { s with cmdC := rest } ts).trans (congrArg (withSched ts) ht)

/-- A turn of `C` always has a next state. -/
theorem turn_ctrl (s : State) : ∃ u, TurnTo .ctrl s u ∧ CtrlTurn { s with turns := s.turns + 1 } u := by
  obtain ⟨u, hctrl, hnext⟩ := acceptC_next { s with turns := s.turns + 1 }
  exact ⟨u, hnext, hctrl⟩

/-- The read `i` is in flight with `RUNNING` 0, and no SETRUN 1 waits on the control port. -/
structure Stopped (i : Instr) (s : State) : Prop where
  latched : decode .P s.opCmd = .ok i
  stopped : s.running = false
  noStart : ∀ w ∈ s.cmdC, decode .C w ≠ .ok (.setrun true)

/-- A turn of `C` takes words from the control port and puts none there. -/
theorem ctrlTurn_cmdC {s t : State} (h : CtrlTurn s t) : ∀ w ∈ t.cmdC, w ∈ s.cmdC := by
  cases h with
  | none => exact fun _ h => h
  | illegal hcmd => exact fun w h => hcmd ▸ List.mem_cons_of_mem _ h
  | run hcmd hdec hexec =>
    rw [(exec_control_frame hdec hexec).1]
    exact fun w h => hcmd ▸ List.mem_cons_of_mem _ h

/-- What the other agents leave of a stopped read: only the FIFO grows. -/
structure StaysStopped (i : Instr) (s u : State) : Prop where
  stopped : Stopped i u
  opState : u.opState = s.opState
  opPolled : u.opPolled = s.opPolled
  grown : ∃ xs, u.dev = s.dev ++ xs

theorem StaysStopped.trans {i : Instr} {s t u : State} (h : StaysStopped i s t) (g : StaysStopped i t u) :
    StaysStopped i s u :=
  let ⟨xs, hxs⟩ := h.grown
  let ⟨ys, hys⟩ := g.grown
  ⟨g.stopped, g.opState.trans h.opState, g.opPolled.trans h.opPolled, xs ++ ys, by rw [hys, hxs, List.append_assoc]⟩

theorem StaysStopped.ctrl {i : Instr} {s u : State} (h : Stopped i s) (hturn : CtrlTurn { s with turns := s.turns + 1 } u) :
    StaysStopped i s u := by
  obtain ⟨hframe, hrunning, -⟩ := ctrlTurn_frame hturn
  have hstop : u.running = false := by
    rcases hrunning with hr | ⟨w, rest, hcmd, hdec⟩
    · exact hr.trans h.stopped
    · have hword := h.noStart w (by rw [show s.cmdC = w :: rest from hcmd]; exact List.mem_cons_self)
      exact Bool.not_eq_true _ ▸ fun hr => hword (hr ▸ hdec)
  refine ⟨⟨?_, hstop, fun w hw => h.noStart w (ctrlTurn_cmdC hturn w hw)⟩, ?_, ?_, [], ?_⟩ <;> rw [hframe]
  · exact h.latched
  · exact (List.append_nil _).symm

/-- The turn of an agent other than `P` and the reset line leaves a stopped read where it stands. -/
theorem turn_other {i : Instr} {s : State} {t : Turn} (h : Stopped i s) (hproc : ∀ d, t ≠ .proc d) (hreset : t ≠ .hwReset) :
    ∃ u, TurnTo t s u ∧ StaysStopped i s u := by
  cases t with
  | proc d => exact absurd rfl (hproc d)
  | ctrl =>
    obtain ⟨u, hturn, hctrl⟩ := turn_ctrl s
    exact ⟨u, hturn, .ctrl h hctrl⟩
  | dev xs => exact ⟨_, turn_dev s xs, ⟨h.latched, h.stopped, h.noStart⟩, rfl, rfl, xs, rfl⟩
  | hwReset => exact absurd rfl hreset

/-- Up to a turn of `P` a stopped read stays where it stands. -/
theorem run_to_proc {i : Instr} {k : Nat} {d : PopAnswer} {ts : Nat → Turn} {s : State} (h : Stopped i s)
    (hk : ts k = .proc d) (hreset : ∀ n, ts n ≠ .hwReset) :
    ∃ m d' u, ts m = .proc d' ∧ StaysStopped i s u ∧
      ∀ n, schedRun ts (m + n) s = schedRun (fun j => ts (m + j)) n u := by
  induction k generalizing ts s with
  | zero => exact ⟨0, d, s, hk, ⟨h, rfl, rfl, [], (List.append_nil _).symm⟩, fun n => by simp only [Nat.zero_add]⟩
  | succ k ih =>
    by_cases hproc : ∃ d, ts 0 = .proc d
    · obtain ⟨d', hd'⟩ := hproc
      exact ⟨0, d', s, hd', ⟨h, rfl, rfl, [], (List.append_nil _).symm⟩, fun n => by simp only [Nat.zero_add]⟩
    · obtain ⟨v, hturn, hstays⟩ := turn_other h (fun d hd => hproc ⟨d, hd⟩) (hreset 0)
      obtain ⟨m, d', u, hm, hstays', hrun⟩ := ih (ts := fun j => ts (j + 1)) hstays.stopped hk fun n => hreset (n + 1)
      refine ⟨m + 1, d', u, hm, hstays.trans hstays', fun n => ?_⟩
      rw [Nat.succ_add, schedRun_succ _ hturn, hrun n]
      simp only [Nat.succ_add]

/-- A fair schedule stays fair after its first turns. -/
theorem fairToP_shift {ts : Nat → Turn} (h : FairToP ts) (m : Nat) : FairToP fun j => ts (m + (j + 1)) := by
  intro n
  obtain ⟨k, d, hle, hk⟩ := h (m + (n + 1))
  have hshift : m + (k - (m + 1) + 1) = k := by omega
  exact ⟨k - (m + 1), d, by omega, (congrArg ts hshift).trans hk⟩

/-- A stopped read that looks at `RUNNING` next is cancelled at the next turn of `P`. -/
theorem sched_cancelled {i : Instr} {ts : Nat → Turn} {s : State} (h : Stopped i s) (hread : i.isRead = true)
    (hlook : LooksAtRunning s) (hfair : FairToP ts) (hreset : ∀ n, ts n ≠ .hwReset) :
    ∃ n t xs, schedRun ts n s = .next t ∧ t.opState = .idle ∧ t.dev = s.dev ++ xs ∧
      t.out.getLast? = some (.rsp .P (responseWord i.opc .cancelled 0#32 0#32)) := by
  obtain ⟨k, d, -, hk⟩ := hfair 0
  obtain ⟨m, d', u, hm, hstays, hrun⟩ := run_to_proc h hk hreset
  obtain ⟨xs, hxs⟩ := hstays.grown
  have hlook' : LooksAtRunning u := by
    unfold LooksAtRunning
    rw [hstays.opState, hstays.opPolled]
    exact hlook
  have hturn := turn_cancelled d' hstays.stopped.latched hread hstays.stopped.stopped hlook'
  rw [← hm] at hturn
  refine ⟨m + 1, _, xs, (hrun 1).trans (schedRun_succ (ts := fun j => ts (m + j)) 0 hturn), rfl, hxs, ?_⟩
  exact List.getLast?_concat

/-- Settles O17: one poll iteration; and under fairness at most two turns of `P`, each after finitely many others. -/
theorem waitingReadCancelsWithinOnePoll : Obligations.WaitingReadCancelsWithinOnePoll := by
  refine ⟨fun i d s hdec hread ho hstop => ?onePoll, fun i ts s hdec hread ho hstop hstart hreset hfair => ?fair⟩
  case onePoll =>
    obtain ⟨k, u, hk, hrun, hdev, hout⟩ := run_wait_cancelled d hdec hread ho hstop
    refine ⟨k, _, hk, hrun.procRun, rfl, hdev, ?_⟩
    rw [← hout]
    rfl
  case fair =>
    have h : Stopped i s := ⟨hdec, hstop, hstart⟩
    by_cases hlook : LooksAtRunning s
    · exact sched_cancelled h hread hlook hfair hreset
    have hwait : s.opState = .wait ∧ s.opPolled = false := by
      unfold LooksAtRunning at hlook
      simp only [not_or, not_and, Bool.not_eq_true] at hlook
      obtain ⟨hentry, hwait, hpost⟩ := hlook
      have ho : s.opState = .wait := by tauto
      exact ⟨ho, hwait ho⟩
    obtain ⟨k, d, -, hk⟩ := hfair 0
    obtain ⟨m, d', u, hm, hstays, hrun⟩ := run_to_proc h hk hreset
    obtain ⟨xs, hxs⟩ := hstays.grown
    obtain ⟨o, p, hturn, hlook'⟩ := turn_first_look d' hstays.stopped.latched hread (hstays.opState.trans hwait.1)
      (hstays.opPolled.trans hwait.2)
    rw [← hm] at hturn
    obtain ⟨n, t, ys, hcancel, hidle, hdev, hlast⟩ :=
      sched_cancelled (s := { counted u d' with opState := o, opPolled := p }) (ts := fun j => ts (m + (j + 1)))
        ⟨hstays.stopped.latched, hstays.stopped.stopped, hstays.stopped.noStart⟩ hread hlook'
        (fairToP_shift hfair m) fun n => hreset _
    refine ⟨m + (n + 1), t, xs ++ ys, ?_, hidle, ?_, hlast⟩
    · rw [hrun (n + 1), schedRun_succ (ts := fun j => ts (m + j)) n hturn, hcancel]
    · rw [hdev, ← List.append_assoc, ← hxs]
      rfl

end Sys2Proof.Proofs.WholeReads

/-! ## GETSAMPLE and GETSAMPLES from their word to their answer (40_sample_reader.md R137, R138) -/

namespace Sys2Proof.Proofs.Answers

open Sys2Proof.Machine Sys2Proof.Laws Sys2Proof.Safety Sys2Proof.Proofs.Exceptions Sys2Proof.Proofs.Commands
open Sys2Proof.Proofs.Turns Sys2Proof.Proofs.Runs Sys2Proof.Proofs.WholeReads

/-! ### From the beginning of a read to its samples -/

/-- The number of samples that the device read of `i` returns. -/
def readCount (i : Instr) (d : PopAnswer) (s : State) : Nat := popCount (popSize i) s.dev.length d.count

/-- The state in which a read begun in `s` has passed its looks, popped its samples and sent its GAIN event (R122 to R125). -/
def opened (i : Instr) (d : PopAnswer) (s : State) : State :=
  { s with
    opState := .run, opPolled := false, opEvent := none, turns := s.turns + 5, draw := d
    dev := s.dev.drop (readCount i d s), opRead := some ⟨readCount i d s, s.dev.take (readCount i d s)⟩
    out := s.out ++ [.gain d.agc (readCount i d s)] }

/-- The state in which a read begun in `s` stands at `o` after `n` turns, before its device read. -/
def standing (o : OpState) (d : PopAnswer) (n : Nat) (s : State) : State :=
  { s.beginRead with opState := o, turns := s.turns + n, draw := d }

/-- The looks and the device read of a read that finds `RUNNING` 1 and enough samples are five turns. -/
theorem run_opening {i : Instr} {s : State} (d : PopAnswer) (hdec : decode .P s.opCmd = .ok i) (hread : i.isRead = true)
    (hrun : s.running = true) (hth : threshold i s ≤ s.dev.length) : ProcRun d 5 s.beginRead (opened i d s) := by
  have hth' : threshold i (standing .wait d 2 s) ≤ s.dev.length := by cases i <;> exact hth
  obtain ⟨entry, -⟩ := readPassesAvailabilityWait i (standing .entry d 1 s) hread
  obtain ⟨-, enough, -⟩ := readPassesAvailabilityWait i (standing .wait d 2 s) hread
  obtain ⟨-, -, -, -, post⟩ := readPassesAvailabilityWait i (standing .post d 3 s) hread
  have hentry : TurnTo (.proc d) s.beginRead (standing .wait d 1 s) :=
    turn_resume (by simp [State.beginRead]) hdec (.inl hread) (entry rfl hrun)
  have hwait : TurnTo (.proc d) (standing .wait d 1 s) (standing .post d 2 s) :=
    turn_resume (by simp [standing]) hdec (.inl hread) (enough rfl rfl hth')
  have hpost : TurnTo (.proc d) (standing .post d 2 s) (standing .run d 3 s) :=
    turn_resume (by simp [standing]) hdec (.inl hread) (post rfl hrun)
  have hpop : TurnTo (.proc d) (standing .run d 3 s) ((standing .run d 4 s).devPop (popSize i)) :=
    turn_resume (by simp [standing]) hdec (.inl hread) (exec_pop (s := standing .run d 4 s) hread rfl rfl rfl)
  have hsend : TurnTo (.proc d) ((standing .run d 4 s).devPop (popSize i)) (opened i d s) :=
    turn_resume (by simp [standing]) hdec (.inl hread)
      (exec_send (s := counted ((standing .run d 4 s).devPop (popSize i)) d) hread rfl rfl)
  exact (((hentry.procRun.trans hwait.procRun).trans hpost.procRun).trans hpop.procRun).trans hsend.procRun

/-- The state that accepting a read leaves for its later turns. -/
def accepted (i : Instr) (rest : List Word96) (d : PopAnswer) (s : State) : State :=
  { counted s d with cmdP := rest, opCmd := encode i }

/-! ### The last turn of a command -/

/-- The end of a command from a state that differs from `q` in the standing of `P` only. -/
theorem reseq_end {q : State} {n : Nat} (o : OpState) (r : Option ReadInFlight) (e : Option Event) (ts : List Turn)
    (out : List Event) (hp : q.opPolled = false) (hsched : q.sched = []) (hturns : q.turns = n) :
    ({ reseq q o r e ts n with
       opState := .idle, opPolled := false, opRead := none, opEvent := none, sched := [], out := out } : State) =
      { q with opState := .idle, opRead := none, opEvent := none, out := out } := by
  rw [← hp, ← hsched, ← hturns]
  rfl

/-- Settles O35: acceptance, the five turns of `run_opening`, and the sample. -/
theorem getsampleRunsToItsAnswer : Obligations.GetsampleRunsToItsAnswer := by
  intro off d rest raw fifo s ho hrun hcmd hdev hlow hdump
  refine ⟨_, rfl, ?_⟩
  have hbegin : ProcRun d 1 s (accepted (.getsample off) rest d s).beginRead := run_begin d rfl ho hcmd
  have hopen := run_opening (i := .getsample off) (s := accepted (.getsample off) rest d s) d
    (decode_encode_read rfl) rfl hrun hlow
  have hcount : readCount (.getsample off) d (accepted (.getsample off) rest d s) = 1 :=
    popCount_one (by rw [show (accepted (.getsample off) rest d s).dev = s.dev from rfl, hdev]; exact Nat.le_add_left 1 _) _
  generalize hp : ({ s with
        cmdP := rest, opCmd := encode (.getsample off), opPolled := false, dev := fifo
        sched := [], turns := s.turns + 7, draw := d, out := s.out ++ [.gain d.agc 1] } : State) = p
  have hopened : counted (opened (.getsample off) d (accepted (.getsample off) rest d s)) d =
      reseq p .run (some ⟨1, [raw]⟩) none s.sched p.turns := by
    rw [opened, hcount, show (accepted (.getsample off) rest d s).dev = s.dev from rfl, hdev, ← hp]
    rfl
  have hanswer := getsampleAnswersCorrectedSample off (reseq p .run (some ⟨1, [raw]⟩) none s.sched p.turns) 1 raw []
    rfl rfl rfl (by rw [← hp]; exact hdump)
  rw [← hopened] at hanswer
  have hturn := (turn_resume (s := opened (.getsample off) d (accepted (.getsample off) rest d s)) (by simp [opened])
    (decode_encode_read (i := .getsample off) rfl) (.inl rfl) hanswer).procRun
  rw [((hbegin.trans hopen).trans hturn).procRun, hopened, afterSample_reseq, corrected_reseq]
  exact congrArg Host.Outcome.next (reseq_end (q := p.afterSample raw off) (n := p.turns) .run (some ⟨1, [raw]⟩) none
    s.sched _ (by rw [← hp]; simp) (by rw [← hp]; simp) (by simp))

/-! ### A batch of GETSAMPLES -/

/-- The state after one sample of a batch: the pipeline and its SOUT word (R138). -/
def batched (off : Word32) (raw : Cplx) (p : State) : State :=
  { p.afterSample raw off with out := (p.afterSample raw off).out ++ [.sout (p.corrected raw off)] }

/-- What the state `q` after a batch has kept of the state `p` before it. -/
structure KeptByBatch (p q : State) : Prop where
  opCmd : q.opCmd = p.opCmd
  opPolled : q.opPolled = p.opPolled
  sched : q.sched = p.sched
  turns : q.turns = p.turns
  draw : q.draw = p.draw

theorem batched_kept (off : Word32) (raw : Cplx) (p : State) : KeptByBatch p (batched off raw p) := by
  constructor <;> simp [batched]

theorem feedBatch_kept (off : Word32) (l : List Cplx) (p : State) : KeptByBatch p (feedBatch off l p) := by
  induction l generalizing p with
  | nil => exact ⟨rfl, rfl, rfl, rfl, rfl⟩
  | cons raw l ih =>
    have hfirst := batched_kept off raw p
    have hrest := ih (batched off raw p)
    exact ⟨hrest.opCmd.trans hfirst.opCmd, hrest.opPolled.trans hfirst.opPolled, hrest.sched.trans hfirst.sched,
      hrest.turns.trans hfirst.turns, hrest.draw.trans hfirst.draw⟩

/-- A dump in progress has its index in the buffer (10_state.md R35). -/
def DumpIdxFits (s : State) : Prop := s.dumpActive = true → s.dumpIdx < s.cfg.dumpBlockFrames

theorem DumpIdxFits.afterSample {p : State} (h : DumpIdxFits p) (raw : Cplx) (off : Word32) :
    DumpIdxFits (p.afterSample raw off) := by
  intro hon
  have hon' : p.dumpActive = true := by simpa using hon
  have hlt := h hon'
  rw [show (p.afterSample raw off).cfg = p.cfg by simp, ((Pipeline.rawSampleAppendedWhileDumping p raw off).2 hon').2.2]
  split <;> omega

theorem DumpIdxFits.batched {p : State} (h : DumpIdxFits p) (off : Word32) (raw : Cplx) : DumpIdxFits (batched off raw p) :=
  h.afterSample raw off

/-- A sample of a batch takes two turns: the pipeline, and its SOUT word (R138). -/
theorem run_batched {count off : Word32} {p : State} (m : Nat) (raw : Cplx) (l : List Cplx) (ts : List Turn) (n : Nat)
    (hdec : decode .P p.opCmd = .ok (.getsamples count off)) (hdump : DumpIdxFits p) :
    ProcRun p.draw 2 (reseq p .run (some ⟨m, raw :: l⟩) none ts n)
      (reseq (batched off raw p) .run (some ⟨m, l⟩) none ts (n + 2)) := by
  have hsample := getsamplesProcessesNextSample count off (reseq p .run (some ⟨m, raw :: l⟩) none ts (n + 1)) m raw l
    rfl rfl rfl hdump
  rw [afterSample_reseq, corrected_reseq] at hsample
  have hturn : TurnTo (.proc p.draw) (reseq p .run (some ⟨m, raw :: l⟩) none ts n)
      (reseq (p.afterSample raw off) .run (some ⟨m, l⟩) (some (.sout (p.corrected raw off))) ts (n + 1)) :=
    turn_resume (by simp [reseq]) hdec (.inl rfl) hsample
  have hcmd : (p.afterSample raw off).opCmd = p.opCmd := by simp
  have hdraw : (p.afterSample raw off).draw = p.draw := by simp
  unfold batched
  generalize p.corrected raw off = z at hturn ⊢
  have hsend : TurnTo (.proc p.draw)
      (reseq (p.afterSample raw off) .run (some ⟨m, l⟩) (some (.sout z)) ts (n + 1))
      (reseq { p.afterSample raw off with out := (p.afterSample raw off).out ++ [.sout z] } .run (some ⟨m, l⟩) none ts
        (n + 2)) := by
    rw [← hdraw]
    generalize p.afterSample raw off = q at hcmd
    exact turn_resume (by simp [reseq]) (hcmd ▸ hdec) (.inl rfl)
      (exec_send (i := .getsamples count off) (s := reseq q .run (some ⟨m, l⟩) (some (.sout z)) ts (n + 2)) rfl rfl rfl)
  exact hturn.procRun.trans hsend.procRun

/-- The turns of a whole batch. -/
theorem run_batch {count off : Word32} {d : PopAnswer} (m : Nat) (ts : List Turn) (l : List Cplx) (n : Nat) {p : State}
    (hd : p.draw = d) (hdec : decode .P p.opCmd = .ok (.getsamples count off)) (hdump : DumpIdxFits p) :
    ProcRun d (2 * l.length) (reseq p .run (some ⟨m, l⟩) none ts n)
      (reseq (feedBatch off l p) .run (some ⟨m, []⟩) none ts (n + 2 * l.length)) := by
  induction l generalizing n p with
  | nil => exact ProcRun.refl _ _
  | cons raw l ih =>
    have hkept := batched_kept off raw p
    have hrest := ih (n + 2) (hkept.draw.trans hd) (hkept.opCmd ▸ hdec) (hdump.batched off raw)
    have hrun := (hd ▸ run_batched m raw l ts n hdec hdump).trans hrest
    rw [List.length_cons, Nat.mul_succ, Nat.add_comm (2 * l.length) 2, ← Nat.add_assoc n 2]
    exact hrun

/-- Settles O36: acceptance, the five turns of `run_opening`, the batch, and the answer. -/
theorem getsamplesRunsToItsAnswer : Obligations.GetsamplesRunsToItsAnswer := by
  intro count off d rest m s ho hrun hcmd hcount hdump hm
  refine ⟨_, _, rfl, rfl, ?_⟩
  have hbegin : ProcRun d 1 s (accepted (.getsamples count off) rest d s).beginRead := run_begin d rfl ho hcmd
  have hopen := run_opening (i := .getsamples count off) (s := accepted (.getsamples count off) rest d s) d
    (decode_encode_read rfl) rfl hrun hcount
  have hread : readCount (.getsamples count off) d (accepted (.getsamples count off) rest d s) = m := hm.symm
  generalize hp : ({ s with
        cmdP := rest, opCmd := encode (.getsamples count off), opPolled := false, dev := s.dev.drop m
        sched := [], turns := s.turns + (2 * m + 7), draw := d, out := s.out ++ [.gain d.agc m] } : State) = p
  have hopened : opened (.getsamples count off) d (accepted (.getsamples count off) rest d s) =
      reseq p .run (some ⟨m, s.dev.take m⟩) none s.sched (s.turns + 6) := by
    rw [opened, hread, ← hp]
    rfl
  rw [hopened] at hopen
  have hdec : decode .P p.opCmd = .ok (.getsamples count off) := by rw [← hp]; exact decode_encode_read rfl
  have hbatch := run_batch m s.sched (s.dev.take m) (s.turns + 6) (d := d) (p := p) (by rw [← hp]) hdec
    (by rw [← hp]; exact hdump)
  have hlen : (s.dev.take m).length = m :=
    List.length_take_of_le (hm ▸ (popCount_le count.toNat s.dev.length d.count).2)
  have hkept := feedBatch_kept off (s.dev.take m) p
  have hpolled : p.opPolled = false := by rw [← hp]
  have hsched : p.sched = [] := by rw [← hp]
  have hdraw : p.draw = d := by rw [← hp]
  have hturns : p.turns = s.turns + (2 * m + 7) := by rw [← hp]
  clear hp hopened
  generalize feedBatch off (s.dev.take m) p = q at hbatch hkept
  rw [hlen] at hbatch
  have hend : counted (reseq q .run (some ⟨m, []⟩) none s.sched (s.turns + 6 + 2 * m)) d =
      reseq q .run (some ⟨m, []⟩) none s.sched (s.turns + 6 + 2 * m + 1) := by
    rw [← hdraw, ← hkept.draw]
    rfl
  have hanswer := getsamplesAnswersActualCount count off
    (reseq q .run (some ⟨m, []⟩) none s.sched (s.turns + 6 + 2 * m + 1)) m rfl rfl rfl
  rw [← hend] at hanswer
  have hturn := (turn_resume (s := reseq q .run (some ⟨m, []⟩) none s.sched (s.turns + 6 + 2 * m)) (by simp [reseq])
    (hkept.opCmd ▸ hdec) (.inl rfl) hanswer).procRun
  have hall := (((hbegin.trans hopen).trans hbatch).trans hturn).procRun
  rw [show 1 + 5 + 2 * m + 1 = 2 * m + 7 by omega] at hall
  rw [hall, hend]
  exact congrArg Host.Outcome.next (reseq_end (q := q) (n := s.turns + 6 + 2 * m + 1) .run (some ⟨m, []⟩) none
    s.sched _ (hkept.opPolled.trans hpolled) (hkept.sched.trans hsched) (by rw [hkept.turns, hturns]; omega))

end Sys2Proof.Proofs.Answers

/-! ## SYNC from its word to its verdict (42_time_syncer.md R193) -/

namespace Sys2Proof.Proofs.SyncRun

open Sys2Proof.Machine Sys2Proof.Laws Sys2Proof.Safety Sys2Proof.Proofs.Exceptions Sys2Proof.Proofs.Commands
open Sys2Proof.Proofs.Turns Sys2Proof.Proofs.Runs Sys2Proof.Proofs.WholeReads Sys2Proof.Proofs.Answers

/-! ### A SYNC in flight -/

/-- In `t` a SYNC that was accepted in `s` has processed `used` samples and is in the phase `y` with the count `c`. -/
structure InSync (n f : Word32) (rest : List Word96) (s : State) (used : Nat) (y : SyState) (c : Nat) (t : State) : Prop where
  running : t.running = true
  latched : t.opCmd = encode (.sync n f)
  cfg : t.cfg = s.cfg
  cmdP : t.cmdP = rest
  dev : t.dev = s.dev.drop used
  phase : t.phase = s.phase
  fits : DumpIdxFits t
  syNull : t.syNull = n
  syFrame : t.syFrame = f
  syState : t.syState = y
  syCnt : t.syCnt.toNat = c

/-- The SYNC stands at its loop test (42_time_syncer.md R189). -/
structure AtTest (t : State) : Prop where
  opState : t.opState = .run
  opRead : t.opRead = some ⟨1, []⟩
  opEvent : t.opEvent = none

/-- The SYNC that was accepted in `s` has ended in `t` with the verdict `st` and `used` samples processed. -/
structure Ended (rest : List Word96) (s : State) (used : Nat) (st : Status) (t : State) : Prop where
  opState : t.opState = .idle
  syState : t.syState = .idle
  cmdP : t.cmdP = rest
  dev : t.dev = s.dev.drop used
  phase : t.phase = s.phase
  verdict : t.out.getLast? = some (.rsp .P (responseWord 0x03#8 st 0#32 0#32))

section

variable {n f : Word32} {rest : List Word96} {s t : State} {used c : Nat} {y : SyState}

theorem InSync.hdec (h : InSync n f rest s used y c t) : decode .P t.opCmd = .ok (.sync n f) :=
  h.latched ▸ decode_encode_read rfl

theorem InSync.finish (h : InSync n f rest s used y c t) (st : Status) : Ended rest s used st (t.syncFinish st) where
  opState := rfl
  syState := rfl
  cmdP := h.cmdP
  dev := h.dev
  phase := h.phase
  verdict := List.getLast?_concat

/-- Offset 0 leaves a phase in range as it is (R132). -/
theorem afterSample_zero_phase (raw : Cplx) (h : t.phase.toNat < t.cfg.inputRate) :
    (t.afterSample raw 0#32).phase = t.phase := by
  refine BitVec.eq_of_toNat_eq ?_
  rw [(t.afterSample_phase raw 0#32).1]
  have hcast := SampleReader.nextPhase_cast t 0#32
  rw [toInt_of_lt_rate h, BitVec.toInt_zero, Int.sub_zero,
    Int.emod_eq_of_lt (Int.natCast_nonneg _) (by exact_mod_cast h)] at hcast
  exact_mod_cast hcast

/-- The pipeline of a SYNC leaves it in its phase, at its count and at its `PHASE`. -/
theorem InSync.afterSample (h : InSync n f rest s used y c t) (hphase : s.phase.toNat < s.cfg.inputRate) (raw : Cplx) :
    InSync n f rest s used y c (t.afterSample raw 0#32) where
  running := by simp [h.running]
  latched := by simp [h.latched]
  cfg := by simp [h.cfg]
  cmdP := by simp [h.cmdP]
  dev := by simp [h.dev]
  phase := (afterSample_zero_phase raw (by rw [h.phase, h.cfg]; exact hphase)).trans h.phase
  fits := h.fits.afterSample raw 0#32
  syNull := by simp [h.syNull]
  syFrame := by simp [h.syFrame]
  syState := by simp [h.syState]
  syCnt := by simp [h.syCnt]

/-! ### One read of a SYNC -/

/-- A sample popped, one more has been used. -/
theorem InSync.opened (h : InSync n f rest s used y c t) (d : PopAnswer) (hcount : readCount (.sync n f) d t = 1) :
    InSync n f rest s (used + 1) y c (counted (opened (.sync n f) d t) d) := by
  have hdev : (counted (Answers.opened (.sync n f) d t) d).dev = s.dev.drop (used + 1) := by
    rw [← List.drop_drop, ← h.dev, ← hcount]
    rfl
  exact ⟨h.running, h.latched, h.cfg, h.cmdP, hdev, h.phase, h.fits, h.syNull, h.syFrame, h.syState, h.syCnt⟩

/-- A read of a SYNC, from its beginning to its sample, which the phase then makes its step of (42_time_syncer.md R191). -/
theorem run_read (d : PopAnswer) (h : InSync n f rest s used y c t) (hphase : s.phase.toNat < s.cfg.inputRate)
    (hdev : s.cfg.lowWater + 1 + used ≤ s.dev.length) (hprime : y = .prime → c < 50) :
    ∃ v g, InSync n f rest s (used + 1) y c v ∧ AtTest v ∧
      ∀ w, v.syncSample g = .next w → ProcRun d 6 t.beginRead w := by
  have hlen : s.cfg.lowWater + 1 ≤ t.dev.length := by
    rw [h.dev, List.length_drop]
    omega
  have henough : threshold (.sync n f) t ≤ t.dev.length := by
    rw [show threshold (.sync n f) t = t.cfg.lowWater from rfl, h.cfg]
    omega
  have hopen := run_opening d h.hdec rfl h.running henough
  have hcount : readCount (.sync n f) d t = 1 := popCount_one (by omega) _
  have hin := h.opened d hcount
  obtain ⟨raw, fifo, hfifo⟩ : ∃ raw fifo, t.dev = raw :: fifo := List.exists_cons_of_length_pos (by omega)
  have hread : (opened (.sync n f) d t).opRead = some ⟨1, [raw]⟩ := by
    rw [opened, hcount, hfifo]
    rfl
  have hrun : (opened (.sync n f) d t).opState = .run := rfl
  have hevent : (opened (.sync n f) d t).opEvent = none := rfl
  generalize opened (.sync n f) d t = u at hopen hin hread hrun hevent
  have hsample := hin.afterSample hphase raw
  refine ⟨{ (counted u d).afterSample raw 0#32 with opRead := some ⟨1, []⟩ },
    (counted u d).cfg.MAG ((counted u d).corrected raw 0#32), ?_, ?_, fun w hw => ?_⟩
  · exact ⟨hsample.running, hsample.latched, hsample.cfg, hsample.cmdP, hsample.dev, hsample.phase, hsample.fits,
      hsample.syNull, hsample.syFrame, hsample.syState, hsample.syCnt⟩
  · exact ⟨by simp [counted, hrun], rfl, by simp [counted, hevent]⟩
  · have hexec := exec_sync_sample n f (s := counted u d) hrun hread hevent hin.fits
      (fun hp => by rw [hin.syCnt]; exact hprime (hin.syState ▸ hp))
    exact hopen.trans (turn_resume (s := u) (by simp [hrun]) hin.hdec (.inl rfl) (hexec.trans hw)).procRun

/-- The turn of a loop test. -/
theorem run_test {w : State} (d : PopAnswer) (h : InSync n f rest s used y c t) (ht : AtTest t)
    (htest : (counted t d).syncTest = .next w) : ProcRun d 1 t w :=
  (turn_resume (by simp [ht.opState]) h.hdec (.inl rfl)
    ((exec_sync_test n f (s := counted t d) ht.opState ht.opRead ht.opEvent).trans htest)).procRun

/-- Counting a turn changes nothing of a SYNC in flight. -/
theorem InSync.counted (h : InSync n f rest s used y c t) (d : PopAnswer) : InSync n f rest s used y c (counted t d) :=
  ⟨h.running, h.latched, h.cfg, h.cmdP, h.dev, h.phase, h.fits, h.syNull, h.syFrame, h.syState, h.syCnt⟩

/-! ### Priming -/

/-- A priming entry before the last (42_time_syncer.md R184). -/
theorem InSync.primeEntry (h : InSync n f rest s used .prime c t) (ht : AtTest t) (g : F32) (hc : c < 49) :
    InSync n f rest s used .prime (c + 1) (t.primeEntry g) ∧ AtTest (t.primeEntry g) := by
  have hcnt : (BitVec.ofNat 33 (t.syCnt.toNat + 1)).toNat = c + 1 := by
    rw [h.syCnt, BitVec.toNat_ofNat, Nat.mod_eq_of_lt (by omega)]
  have hnot : ¬ t.syCnt.toNat + 1 = t.cfg.window := by
    rw [h.syCnt, Cfg.window_fixed]
    omega
  rw [State.primeEntry, if_neg hnot]
  exact ⟨⟨h.running, h.latched, h.cfg, h.cmdP, h.dev, h.phase, h.fits, h.syNull, h.syFrame, h.syState, hcnt⟩,
    ⟨ht.opState, ht.opRead, ht.opEvent⟩⟩

/-- The 50th priming entry ends the phase. -/
theorem InSync.primeEntry_last (h : InSync n f rest s used .prime 49 t) (ht : AtTest t) (g : F32) :
    InSync n f rest s used .dip 0 (t.primeEntry g) ∧ AtTest (t.primeEntry g) := by
  have hlast : t.syCnt.toNat + 1 = t.cfg.window := by rw [h.syCnt, Cfg.window_fixed]
  rw [State.primeEntry, if_pos hlast]
  exact ⟨⟨h.running, h.latched, h.cfg, h.cmdP, h.dev, h.phase, h.fits, h.syNull, h.syFrame, rfl, rfl⟩,
    ⟨ht.opState, ht.opRead, ht.opEvent⟩⟩

/-- Priming takes 50 samples. -/
theorem run_priming (d : PopAnswer) (hphase : s.phase.toNat < s.cfg.inputRate) (hdev : s.cfg.lowWater + 50 ≤ s.dev.length)
    (k : Nat) (hk : c + k = 49) (h : InSync n f rest s c .prime c t) :
    ∃ j w, ProcRun d j t.beginRead w ∧ InSync n f rest s 50 .dip 0 w ∧ AtTest w := by
  induction k generalizing c t with
  | zero =>
    obtain rfl : c = 49 := hk
    obtain ⟨v, g, hv, htest, hrun⟩ := run_read d h hphase (by omega) fun _ => by omega
    obtain ⟨hw, hwtest⟩ := hv.primeEntry_last htest g
    exact ⟨6, _, hrun _ (syncSample_prime hv.syState g), hw, hwtest⟩
  | succ k ih =>
    obtain ⟨v, g, hv, htest, hrun⟩ := run_read d h hphase (by omega) fun _ => by omega
    obtain ⟨hw, hwtest⟩ := hv.primeEntry htest g (by omega)
    have hread := hrun _ (syncSample_prime hv.syState g)
    generalize v.primeEntry g = w at hw hwtest hread
    have hagain : (Runs.counted w d).syncTest = .next (Runs.counted w d).beginRead := by
      simp only [State.syncTest, (hw.counted d).syState]
    obtain ⟨j, u, hrest, hu, hutest⟩ := ih (by omega) (hw.counted d)
    exact ⟨6 + 1 + j, u, (hread.trans (run_test d hw hwtest hagain)).trans hrest, hu, hutest⟩

/-! ### The two searches -/

/-- A search entry within the limit. -/
theorem InSync.searchEntry (h : InSync n f rest s used y c t) (ht : AtTest t) (g : F32) {limit : Nat} (st : Status)
    (hc : c < limit) (hlimit : limit ≤ 2 ^ 32 + 50) :
    InSync n f rest s used y (c + 1) (t.searchEntry g limit st) ∧ AtTest (t.searchEntry g limit st) := by
  have hcnt : (BitVec.ofNat 33 (t.syCnt.toNat + 1)).toNat = c + 1 := by
    rw [h.syCnt, BitVec.toNat_ofNat, Nat.mod_eq_of_lt (by omega)]
  have hin : ¬ limit < t.syCnt.toNat + 1 := by
    rw [h.syCnt]
    omega
  rw [State.searchEntry, if_neg hin]
  exact ⟨⟨h.running, h.latched, h.cfg, h.cmdP, h.dev, h.phase, h.fits, h.syNull, h.syFrame, h.syState, hcnt⟩,
    ⟨ht.opState, ht.opRead, ht.opEvent⟩⟩

/-- A search entry beyond the limit. -/
theorem InSync.searchEntry_last {limit : Nat} (h : InSync n f rest s used y limit t) (g : F32) (st : Status) :
    Ended rest s used st (t.searchEntry g limit st) := by
  have hout : limit < t.syCnt.toNat + 1 := by
    rw [h.syCnt]
    omega
  rw [State.searchEntry, if_pos hout]
  exact ⟨rfl, rfl, h.cmdP, h.dev, h.phase, List.getLast?_concat⟩

/-- The search of the phase `y`: it gives up with the verdict `st` beyond `limit` samples, and its loop test leaves it in the
states where `found` holds. -/
structure Search (n f : Word32) (d : PopAnswer) (y : SyState) (limit : Nat) (st : Status) (found : State → Prop) : Prop where
  notPrime : y ≠ .prime
  limit_le : limit ≤ 2 ^ 32 + 50
  sample : ∀ (t : State) (g : F32), t.syState = y → t.syNull = n → t.syFrame = f →
    t.syncSample g = .next (t.searchEntry g limit st)
  again : ∀ t : State, t.syState = y → ¬ found t → (counted t d).syncTest = .next (counted t d).beginRead

/-- A search ends with its verdict after `limit + 1` samples, or is left after at most `limit`. -/
theorem run_search {d : PopAnswer} {limit : Nat} {st : Status} {found : State → Prop} (hs : Search n f d y limit st found)
    (hphase : s.phase.toNat < s.cfg.inputRate) (base : Nat)
    (hdev : s.cfg.lowWater + (base + limit + 1) ≤ s.dev.length) (k : Nat) (hk : c + k = limit)
    (h : InSync n f rest s (base + c) y c t) (ht : AtTest t) :
    ∃ j w, ProcRun d j t w ∧ (Ended rest s (base + limit + 1) st w ∨
      ∃ m, m ≤ limit ∧ InSync n f rest s (base + m) y m w ∧ AtTest w ∧ found w) := by
  induction k generalizing c t with
  | zero =>
    by_cases hfound : found t
    · exact ⟨0, t, ProcRun.refl d t, .inr ⟨c, by omega, h, ht, hfound⟩⟩
    obtain rfl : c = limit := hk
    have htest := run_test d h ht (hs.again t h.syState hfound)
    obtain ⟨v, g, hv, -, hrun⟩ := run_read d (h.counted d) hphase (by omega) fun hp => absurd hp hs.notPrime
    exact ⟨1 + 6, _, htest.trans (hrun _ (hs.sample v g hv.syState hv.syNull hv.syFrame)), .inl (hv.searchEntry_last g st)⟩
  | succ k ih =>
    by_cases hfound : found t
    · exact ⟨0, t, ProcRun.refl d t, .inr ⟨c, by omega, h, ht, hfound⟩⟩
    have htest := run_test d h ht (hs.again t h.syState hfound)
    obtain ⟨v, g, hv, hvtest, hrun⟩ := run_read d (h.counted d) hphase (by omega) fun hp => absurd hp hs.notPrime
    obtain ⟨hw, hwtest⟩ := hv.searchEntry hvtest g st (by omega) hs.limit_le
    obtain ⟨j, u, hrest, hu⟩ := ih (c := c + 1) (by omega) hw hwtest
    exact ⟨1 + 6 + j, u, (htest.trans (hrun _ (hs.sample v g hv.syState hv.syNull hv.syFrame))).trans hrest, hu⟩

theorem dipSearch (n f : Word32) (d : PopAnswer) :
    Search n f d .dip f.toNat .noDipFound fun t => t.aboveDip = false where
  notPrime := by decide
  limit_le := by omega
  sample t g hy _ hf := hf ▸ syncSample_dip hy g
  again t hy hfound := by
    have hy' : (counted t d).syState = .dip := hy
    have habove : (counted t d).aboveDip = true := (Bool.not_eq_false t.aboveDip).mp hfound
    simp only [State.syncTest, hy', habove, if_true]

theorem recoverySearch (n f : Word32) (d : PopAnswer) :
    Search n f d .recover (n.toNat + 50) .noEndOfDipFound fun t => t.aboveRec = true where
  notPrime := by decide
  limit_le := by omega
  sample t g hy hn _ := hn ▸ syncSample_recover hy g
  again t hy hfound := by
    have hy' : (counted t d).syState = .recover := hy
    have habove : (counted t d).aboveRec = false := (Bool.not_eq_true t.aboveRec).mp hfound
    simp only [State.syncTest, hy', habove, Bool.false_eq_true, if_false]

/-- The dip found, the search for its end begins (42_time_syncer.md R187). -/
theorem run_dip_found (d : PopAnswer) (h : InSync n f rest s used .dip c t) (ht : AtTest t) (hdip : t.aboveDip = false) :
    ∃ w, ProcRun d 1 t w ∧ InSync n f rest s used .recover 0 w ∧ AtTest w := by
  have hy : (counted t d).syState = .dip := h.syState
  have hbelow : (counted t d).aboveDip = false := hdip
  have htest : (counted t d).syncTest = .next { counted t d with syCnt := 0#33, syState := .recover } := by
    simp only [State.syncTest, hy, hbelow, Bool.false_eq_true, if_false]
  exact ⟨_, run_test d h ht htest,
    ⟨h.running, h.latched, h.cfg, h.cmdP, h.dev, h.phase, h.fits, h.syNull, h.syFrame, rfl, rfl⟩,
    ⟨ht.opState, ht.opRead, ht.opEvent⟩⟩

/-- The end of the dip found, SYNC ends with ESTABLISHED (42_time_syncer.md R188). -/
theorem run_established (d : PopAnswer) (h : InSync n f rest s used .recover c t) (ht : AtTest t) (hrec : t.aboveRec = true) :
    ∃ w, ProcRun d 1 t w ∧ Ended rest s used .established w := by
  have hy : (counted t d).syState = .recover := h.syState
  have habove : (counted t d).aboveRec = true := hrec
  have htest : (counted t d).syncTest = .next ((counted t d).syncFinish .established) := by
    simp only [State.syncTest, hy, habove, if_true]
  exact ⟨_, run_test d h ht htest, (h.counted d).finish .established⟩

end

/-! ### The whole command -/

/-- The verdict of a SYNC and the samples that belong to it (42_time_syncer.md R193). -/
def VerdictCount (n f : Word32) (st : Status) (used : Nat) : Prop :=
  (st = .noDipFound ∧ used = 50 + f.toNat + 1) ∨
  (st = .noEndOfDipFound ∧ ∃ dip, dip ≤ f.toNat ∧ used = 50 + dip + n.toNat + 51) ∨
  (st = .established ∧ ∃ dip rec, dip ≤ f.toNat ∧ rec ≤ n.toNat + 50 ∧ used = 50 + dip + rec)

/-- From its acceptance a SYNC runs through its phases to a verdict. -/
theorem run_sync {n f : Word32} {rest : List Word96} {s : State} (d : PopAnswer) (hphase : s.phase.toNat < s.cfg.inputRate)
    (hfits : DumpIdxFits s) (ho : s.opState = .idle) (hrun : s.running = true) (hcmd : s.cmdP = encode (.sync n f) :: rest)
    (hdev : s.cfg.lowWater + (f.toNat + n.toNat + 102) ≤ s.dev.length) :
    ∃ k w used st, ProcRun d k s w ∧ Ended rest s used st w ∧ VerdictCount n f st used := by
  have hbegin : ProcRun d 1 s ((accepted (.sync n f) rest d s).syncStart n f).beginRead := run_begin d rfl ho hcmd
  have hstart : InSync n f rest s 0 .prime 0 ((accepted (.sync n f) rest d s).syncStart n f) :=
    ⟨hrun, rfl, rfl, rfl, rfl, rfl, hfits, rfl, rfl, rfl, rfl⟩
  obtain ⟨j₁, t₁, hrun₁, h₁, ht₁⟩ := run_priming d hphase (by omega) 49 rfl hstart
  obtain ⟨j₂, t₂, hrun₂, hdip⟩ := run_search (c := 0) (dipSearch n f d) hphase 50 (by omega) f.toNat (by omega) h₁ ht₁
  have hto₂ := (hbegin.trans hrun₁).trans hrun₂
  rcases hdip with hnone | ⟨dip, hle, h₂, ht₂, hfound⟩
  · exact ⟨_, t₂, _, _, hto₂, hnone, .inl ⟨rfl, rfl⟩⟩
  obtain ⟨t₃, hrun₃, h₃, ht₃⟩ := run_dip_found d h₂ ht₂ hfound
  obtain ⟨j₄, t₄, hrun₄, hrec⟩ :=
    run_search (c := 0) (recoverySearch n f d) hphase (50 + dip) (by omega) (n.toNat + 50) (by omega) h₃ ht₃
  have hto₄ := (hto₂.trans hrun₃).trans hrun₄
  rcases hrec with hnone | ⟨rec, hle', h₄, ht₄, hfound'⟩
  · exact ⟨_, t₄, _, _, hto₄, hnone, .inr (.inl ⟨rfl, dip, hle, by omega⟩)⟩
  obtain ⟨t₅, hrun₅, hend⟩ := run_established d h₄ ht₄ hfound'
  exact ⟨_, t₅, _, _, hto₄.trans hrun₅, hend, .inr (.inr ⟨rfl, dip, rec, hle, hle', rfl⟩)⟩

/-- Settles O46: `run_sync` from a sound state. -/
theorem syncEndsWithVerdictAndCount : Obligations.SyncEndsWithVerdictAndCount := by
  intro n f d rest s hinv ho hrun hcmd hdev
  obtain ⟨k, w, used, st, hto, hend, hcount⟩ := run_sync d hinv.phase_lt (fun _ => hinv.dumpIdx_lt) ho hrun hcmd hdev
  exact ⟨k, _, used, st, hto.procRun, hend.opState, hend.syState, hend.cmdP, hend.dev, hend.phase, hend.verdict, hcount⟩

end Sys2Proof.Proofs.SyncRun

/-! ## The oscillator table: its exact entries, and the error of the others (20_memory.md R51, R52) -/

namespace Sys2Proof.Proofs.Oscillator

open Sys2Proof.Osc

/-- The point at `q` quarter turns beyond the quarter turn with the components `c` and `s`. -/
def turned (q : Nat) (c s : F32) : Cplx :=
  match q with
  | 0 => ⟨c, s⟩
  | 1 => ⟨negate s, c⟩
  | 2 => ⟨negate c, negate s⟩
  | _ => ⟨s, negate c⟩

/-- An entry whose components the enclosure decides (log entry 5) is a quarter turn, turned. -/
theorem entry_of_decided {n k : Nat} {c s : F32} (h : quarter n (4 * k % n) = (some c, some s)) :
    entry n k = turned (4 * k / n % 4) c s := by
  have hentry : entry n k = turned (4 * k / n % 4) ((quarter n (4 * k % n)).1.getD (Config.freeOsc n k true))
      ((quarter n (4 * k % n)).2.getD (Config.freeOsc n k false)) := rfl
  rw [hentry, h, Option.getD_some, Option.getD_some]

/-! ### The exact entries -/

/-- The entry at a whole number of quarter turns. -/
theorem entry_of_dvd {n k q : Nat} (hn : 1 ≤ n) (hk : 4 * k = q * n) (hq : q < 4) :
    entry n k = turned q NUM.one NUM.zero := by
  have hr : 4 * k % n = 0 := by rw [hk, Nat.mul_mod_left]
  have hd : 4 * k / n % 4 = q := by rw [hk, Nat.mul_div_cancel _ hn, Nat.mod_eq_of_lt hq]
  rw [entry_of_decided (c := NUM.one) (s := NUM.zero) (by rw [hr, quarter, if_pos rfl]), hd]

/-! ### The other entries -/

/-- Quarter turns of a point near the circle stay near it. -/
theorem turned_near {c s : F32} {x : ℝ} (hc : Near c (Real.cos x)) (hs : Near s (Real.sin x)) {q : Nat} (hq : q < 4) :
    Near (turned q c s).re (Real.cos (x + q * (Real.pi / 2))) ∧
      Near (turned q c s).im (Real.sin (x + q * (Real.pi / 2))) := by
  match q, hq with
  | 0, _ =>
    have e : x + (0 : ℕ) * (Real.pi / 2) = x := by push_cast; ring
    rw [e]
    exact ⟨hc, hs⟩
  | 1, _ =>
    have e : x + (1 : ℕ) * (Real.pi / 2) = x + Real.pi / 2 := by push_cast; ring
    rw [e, Real.cos_add_pi_div_two, Real.sin_add_pi_div_two]
    exact ⟨hs.negate, hc⟩
  | 2, _ =>
    have e : x + (2 : ℕ) * (Real.pi / 2) = x + Real.pi := by push_cast; ring
    rw [e, Real.cos_add_pi, Real.sin_add_pi]
    exact ⟨hc.negate, hs.negate⟩
  | 3, _ =>
    have e : x + (3 : ℕ) * (Real.pi / 2) = x + Real.pi / 2 + Real.pi := by push_cast; ring
    rw [e, Real.cos_add_pi, Real.sin_add_pi, Real.cos_add_pi_div_two, Real.sin_add_pi_div_two, neg_neg]
    exact ⟨hs, hc.negate⟩

/-- The angle of an entry, in quarter turns. -/
theorem angle_split {n : Nat} (hn : 1 ≤ n) (k : Nat) :
    2 * Real.pi * k / n = Real.pi / 2 * ((4 * k % n : ℕ) / n) + (4 * k / n : ℕ) * (Real.pi / 2) := by
  have hn' : (n : ℝ) ≠ 0 := by exact_mod_cast (by omega : n ≠ 0)
  have hk : (n : ℝ) * (4 * k / n : ℕ) + (4 * k % n : ℕ) = 4 * k := by exact_mod_cast Nat.div_add_mod (4 * k) n
  generalize ((4 * k / n : ℕ) : ℝ) = q at hk ⊢
  generalize ((4 * k % n : ℕ) : ℝ) = r at hk ⊢
  field_simp
  linear_combination -hk

/-- An entry whose components the enclosure decides is near the point of its angle. -/
theorem entry_near {n k : Nat} {c s : F32} (hk : k < n) (hn : n ≤ 2147483647) (h : quarter n (4 * k % n) = (some c, some s)) :
    Near (entry n k).re (Real.cos (2 * Real.pi * k / n)) ∧ Near (entry n k).im (Real.sin (2 * Real.pi * k / n)) := by
  have hq : 4 * k / n < 4 := Nat.div_lt_of_lt_mul (by omega)
  obtain ⟨hc, hs⟩ := quarter_near (Nat.mod_lt _ (by omega)) hn h
  rw [entry_of_decided h, Nat.mod_eq_of_lt hq, angle_split (by omega)]
  exact turned_near hc hs hq

/-- Settles O28: `entry_of_dvd` at 0 to 3 quarter turns, and `entry_near`. -/
theorem quarterCycleEntriesExact : Obligations.QuarterCycleEntriesExact := by
  intro n hn
  refine ⟨entry_of_dvd (q := 0) hn (by omega) (by omega), fun h2 => entry_of_dvd (q := 2) hn (by omega) (by omega),
    fun h4 => ⟨entry_of_dvd (q := 1) hn (by omega) (by omega), entry_of_dvd (q := 3) hn (by omega) (by omega)⟩,
    fun hle k hk hc hs => ?_⟩
  obtain ⟨c, hc⟩ := Option.isSome_iff_exists.1 hc
  obtain ⟨s, hs⟩ := Option.isSome_iff_exists.1 hs
  exact entry_near hk hle (Prod.ext hc hs)

end Sys2Proof.Proofs.Oscillator

/-! ## The scalar: rounding once to nearest, and the conversion to 16 bits (00_scope.md R12; 40_sample_reader.md R129) -/

namespace Sys2Proof.Proofs.Arithmetic

open Sys2Proof.NUM

/-! ### The value of a pattern -/

/-- A magnitude under a sign. -/
def withSign (negative : Bool) (m : Nat) : Int := if negative then -(m : Int) else (m : Int)

theorem intUnits_eq (a : F32) : intUnits a = withSign (neg? a) (units a) := rfl

theorem abs_withSign (negative : Bool) (m : Nat) : |withSign negative m| = (m : Int) := by
  cases negative <;> simp [withSign]

theorem magBits_ofBits (negative : Bool) {m : Nat} (h : m < 2 ^ 31) : magBits (ofBits negative m) = m := by
  cases negative <;> simp [magBits, ofBits] <;> omega

theorem neg?_ofBits (negative : Bool) {m : Nat} (h : m < 2 ^ 31) : neg? (ofBits negative m) = negative := by
  cases negative <;> simp [neg?, ofBits, BitVec.msb_eq_decide] <;> omega

/-- A magnitude has 24 significant bits. -/
theorem units_eq_mul_pow (a : F32) : ∃ q k, q < 2 ^ 24 ∧ units a = q * 2 ^ k := by
  unfold units
  split
  case isTrue h => exact ⟨magBits a, 0, by omega, by omega⟩
  case isFalse h => exact ⟨_, _, by omega, rfl⟩

/-! ### Packing -/

/-- At most 24 significant bits leave zeros below them. -/
theorem pow_log2_dvd {q k : Nat} (hq : q ≤ 2 ^ 24) : 2 ^ ((q * 2 ^ k).log2 - 23) ∣ q * 2 ^ k := by
  rcases Nat.lt_or_eq_of_le hq with hlt | rfl
  · rcases Nat.eq_zero_or_pos q with rfl | hpos
    · simp
    have hlog : (q * 2 ^ k).log2 < 24 + k :=
      (Nat.log2_lt (by positivity)).2 (by rw [pow_add]; exact (Nat.mul_lt_mul_right (by positivity)).2 hlt)
    exact (Nat.pow_dvd_pow 2 (by omega)).trans (Nat.dvd_mul_left _ _)
  · rw [← pow_add, Nat.log2_two_pow]
    exact Nat.pow_dvd_pow 2 (by omega)

/-- Packing keeps a magnitude of at most 24 significant bits, within the finite range. -/
theorem units_packMag (negative : Bool) {n : Nat} (hdvd : 2 ^ (n.log2 - 23) ∣ n) (hfin : packMag n < 0x7F800000) :
    units (ofBits negative (packMag n)) = n := by
  rw [units, magBits_ofBits negative (by omega)]
  unfold packMag at hfin ⊢
  by_cases hsmall : n < 2 ^ 24
  · rw [if_pos hsmall]
    split
    · rfl
    · rw [show n / 2 ^ 23 - 1 = 0 by omega]
      omega
  rw [if_neg hsmall] at hfin ⊢
  have hn0 : n ≠ 0 := by omega
  have hlo := Nat.log2_self_le hn0
  have hhi := Nat.lt_log2_self (n := n)
  have hlog : 24 ≤ n.log2 := (Nat.le_log2 hn0).2 (by omega)
  obtain ⟨e, he⟩ : ∃ e, n.log2 = e + 23 := ⟨n.log2 - 23, by omega⟩
  have hpos : 0 < 2 ^ e := by positivity
  rw [he, Nat.add_sub_cancel] at hdvd hfin ⊢
  rw [he, pow_add, Nat.mul_comm] at hlo
  rw [he, Nat.add_assoc, pow_add, Nat.mul_comm] at hhi
  obtain ⟨p, rfl⟩ := hdvd
  have hp1 : 2 ^ 23 ≤ p := Nat.le_of_mul_le_mul_left (by rwa [Nat.mul_comm (2 ^ 23)] at hlo) hpos
  have hp2 : p < 2 ^ 24 := Nat.lt_of_mul_lt_mul_left (by rwa [Nat.mul_comm (2 ^ (23 + 1))] at hhi)
  dsimp only at hfin ⊢
  simp only [Nat.mul_div_cancel_left _ hpos] at hfin ⊢
  rw [Nat.min_eq_right (by omega), if_neg (by omega), show (e * 2 ^ 23 + p) / 2 ^ 23 - 1 = e by omega,
    show 2 ^ 23 + (e * 2 ^ 23 + p) % 2 ^ 23 = p by omega, Nat.mul_comm]

/-! ### Rounding to nearest -/

/-- No multiple of `2 ^ d` is nearer to `m` than the rounded one. -/
theorem roundNE_nearest (m d j : Nat) :
    |((roundNE m d * 2 ^ d : Nat) : Int) - m| ≤ |((j * 2 ^ d : Nat) : Int) - m| := by
  obtain ⟨hhi, hlo⟩ := roundNE_error m d
  generalize roundNE m d = r at *
  generalize 2 ^ d = D at *
  rw [Int.abs_eq_natAbs, Int.abs_eq_natAbs]
  rcases Nat.lt_trichotomy j r with hlt | rfl | hlt
  · have hstep : (j + 1) * D ≤ r * D := Nat.mul_le_mul_right D hlt
    rw [Nat.add_mul, Nat.one_mul] at hstep
    omega
  · exact le_rfl
  · have hstep : (r + 1) * D ≤ j * D := Nat.mul_le_mul_right D hlt
    rw [Nat.add_mul, Nat.one_mul] at hstep
    omega

/-- No value of 24 significant bits is nearer to `m * 2 ^ -sh` than the rounded magnitude. -/
theorem roundUnits_nearest (sh m : Nat) {q : Nat} (k : Nat) (hq : q < 2 ^ 24) :
    |((roundUnits sh m * 2 ^ sh : Nat) : Int) - m| ≤ |((q * 2 ^ k * 2 ^ sh : Nat) : Int) - m| := by
  have hround : roundUnits sh m * 2 ^ sh = roundNE m (max sh (m.log2 - 23)) * 2 ^ max sh (m.log2 - 23) := by
    rw [roundUnits, Nat.mul_assoc, ← pow_add, Nat.sub_add_cancel (le_max_left _ _)]
  rw [hround, Nat.mul_assoc, ← pow_add]
  rcases Nat.lt_or_ge (k + sh) (max sh (m.log2 - 23)) with hfine | hcoarse
  · have hlog : 2 ^ 23 * 2 ^ max sh (m.log2 - 23) ≤ m := by
      have hm0 : m ≠ 0 := by
        rintro rfl
        simp at hfine
      rw [← pow_add, ← Nat.le_log2 hm0]
      omega
    have hbelow : q * 2 ^ (k + sh) ≤ 2 ^ 23 * 2 ^ max sh (m.log2 - 23) :=
      calc q * 2 ^ (k + sh) ≤ 2 ^ 24 * 2 ^ (max sh (m.log2 - 23) - 1) :=
            Nat.mul_le_mul hq.le (Nat.pow_le_pow_right (by decide) (by omega))
        _ = 2 ^ 23 * 2 ^ max sh (m.log2 - 23) := by
            rw [← pow_add, ← pow_add]
            congr 1
            omega
    have hnear := roundNE_nearest m (max sh (m.log2 - 23)) (2 ^ 23)
    refine hnear.trans ?_
    rw [Int.abs_eq_natAbs, Int.abs_eq_natAbs]
    omega
  · have hmul : q * 2 ^ (k + sh) = q * 2 ^ (k + sh - max sh (m.log2 - 23)) * 2 ^ max sh (m.log2 - 23) := by
      rw [Nat.mul_assoc, ← pow_add, Nat.sub_add_cancel hcoarse]
    rw [hmul]
    exact roundNE_nearest m _ _

/-- A rounded magnitude has at most 24 significant bits. -/
theorem roundUnits_eq_mul_pow (sh m : Nat) : ∃ q k, q ≤ 2 ^ 24 ∧ roundUnits sh m = q * 2 ^ k := by
  refine ⟨_, _, ?_, rfl⟩
  have hlt : m < 2 ^ max sh (m.log2 - 23) * 2 ^ 24 := by
    rw [← pow_add]
    exact Nat.lt_log2_self.trans_le (Nat.pow_le_pow_right (by decide) (by omega))
  have hdiv : m / 2 ^ max sh (m.log2 - 23) < 2 ^ 24 := Nat.div_lt_of_lt_mul hlt
  unfold roundNE
  dsimp only
  split <;> omega

/-- A finite rounded value is the rounded magnitude under its sign. -/
theorem intUnits_round_of_finite {negative : Bool} {sh m : Nat} (h : isFinite (round negative sh m) = true) :
    intUnits (round negative sh m) = withSign negative (roundUnits sh m) := by
  have hbits : packMag (roundUnits sh m) < 2 ^ 31 := by
    unfold packMag
    dsimp only
    split <;> omega
  have hfin : packMag (roundUnits sh m) < 0x7F800000 := by
    rw [isFinite, NUM.round, magBits_ofBits negative hbits] at h
    exact of_decide_eq_true h
  obtain ⟨q, k, hq, hunits⟩ := roundUnits_eq_mul_pow sh m
  rw [intUnits_eq, NUM.round, neg?_ofBits negative hbits, units_packMag negative (hunits ▸ pow_log2_dvd hq) hfin]

/-- A finite rounded value is as near as every scalar (00_scope.md R12). -/
theorem round_nearest {negative : Bool} {sh m : Nat} (h : isFinite (round negative sh m) = true) (c : F32) :
    |intUnits (round negative sh m) * 2 ^ sh - withSign negative m| ≤ |intUnits c * 2 ^ sh - withSign negative m| := by
  obtain ⟨q, k, hq, hunits⟩ := units_eq_mul_pow c
  have hnear := roundUnits_nearest sh m k hq
  rw [← hunits] at hnear
  push_cast at hnear
  have habs : |(units c : Int) * 2 ^ sh - m| ≤ |intUnits c * 2 ^ sh - withSign negative m| := by
    have hrev := abs_abs_sub_abs_le (intUnits c * 2 ^ sh) (withSign negative m)
    rwa [abs_mul, abs_of_pos (show (0 : Int) < 2 ^ sh by positivity), intUnits_eq, abs_withSign, abs_withSign] at hrev
  have hsign : |withSign negative (roundUnits sh m) * 2 ^ sh - withSign negative m| =
      |(roundUnits sh m : Int) * 2 ^ sh - m| := by
    generalize roundUnits sh m = v
    generalize (2 : Int) ^ sh = p
    cases negative with
    | false => rfl
    | true =>
      have hneg : withSign true v * p - withSign true m = -((v : Int) * p - m) := by
        simp only [withSign, if_true]
        ring
      rw [hneg, abs_neg]
  rw [intUnits_round_of_finite h, hsign]
  exact hnear.trans habs

/-! ### Sum and product -/

theorem isInf_of_isFinite {a : F32} (h : isFinite a = true) : isInf a = false := by
  simp only [isFinite, isInf, decide_eq_true_eq, decide_eq_false_iff_not] at *
  omega

theorem add_of_finite {a b : F32} (ha : isFinite a = true) (hb : isFinite b = true) : add a b = addFinite a b := by
  simp [add, isNaN_of_isFinite ha, isNaN_of_isFinite hb, isInf_of_isFinite ha, isInf_of_isFinite hb]

theorem mul_of_finite {a b : F32} (ha : isFinite a = true) (hb : isFinite b = true) :
    mul a b = round (neg? a != neg? b) 149 (units a * units b) := by
  simp [mul, isNaN_of_isFinite ha, isNaN_of_isFinite hb, isInf_of_isFinite ha, isInf_of_isFinite hb]

/-- Settles O29: an exact zero, or a rounding of the exact sum. -/
theorem sumRoundedToNearest : Obligations.SumRoundedToNearest := by
  intro a b c ha hb _ hsum
  rw [add_of_finite ha hb, addFinite] at hsum ⊢
  generalize intUnits a + intUnits b = z at hsum ⊢
  by_cases hz : z = 0
  · have hzero : intUnits (if (neg? a && neg? b) = true then 0x80000000#32 else zero) = 0 := by split <;> decide
    rw [if_pos hz, hzero, hz]
    exact abs_nonneg _
  · rw [if_neg hz] at hsum ⊢
    have hsign : withSign (decide (z < 0)) z.natAbs = z := by
      unfold withSign
      split
      case isTrue h => have := of_decide_eq_true h; omega
      case isFalse h => have := of_decide_eq_false (Bool.not_eq_true _ ▸ h); omega
    have hnear := round_nearest hsum c
    rwa [hsign, pow_zero, mul_one, mul_one] at hnear

/-- Settles O30: a rounding of the exact product, in units of 2^-298. -/
theorem productRoundedToNearest : Obligations.ProductRoundedToNearest := by
  intro a b c ha hb _ hprod
  rw [mul_of_finite ha hb] at hprod ⊢
  have hsign : withSign (neg? a != neg? b) (units a * units b) = intUnits a * intUnits b := by
    rw [intUnits_eq, intUnits_eq]
    cases neg? a <;> cases neg? b <;> simp [withSign]
  rw [← hsign]
  exact round_nearest hprod c

/-! ### The conversion to 16 bits -/

/-- Settles O27: the truncated quotient has the sign of the value, and each sign saturates at its own end. -/
theorem toI16TruncatesAndSaturates : Obligations.ToI16TruncatesAndSaturates := by
  intro v hfin
  rw [toI16, isNaN_of_isFinite hfin, intUnits_eq]
  have hdiv : Int.tdiv (units v : Int) (2 ^ 149) = ((units v / 2 ^ 149 : Nat) : Int) := by
    rw [Int.tdiv_eq_ediv_of_nonneg (Int.natCast_nonneg _)]
    norm_cast
  cases neg? v with
  | false =>
    simp only [withSign, Bool.false_eq_true, if_false, hdiv]
    generalize units v / 2 ^ 149 = t
    rw [BitVec.toInt_ofNat', Int.bmod_eq_of_le (by omega) (by omega)]
    omega
  | true =>
    simp only [withSign, Bool.false_eq_true, if_false, if_true, Int.neg_tdiv, hdiv]
    generalize units v / 2 ^ 149 = t
    rw [BitVec.toInt_ofInt, Int.bmod_eq_of_le (by omega) (by omega)]
    omega

end Sys2Proof.Proofs.Arithmetic
